-- ==== Sys2Proof/Word.lean ====
section
/-! DEFINITION. The word types of the FFT butterfly core: 32-bit words, binary32 patterns, bytes of the
byte view, and 28-bit host word addresses. -/

namespace Sys2Proof

/-- A byte of the byte-addressed view of the host port (R43). -/
abbrev Byte := BitVec 8

/-- A 32-bit word: what every host access moves (R42). -/
abbrev Word := BitVec 32

/-- A binary32 value held as its raw 32-bit pattern (R26, R80). -/
abbrev F32 := BitVec 32

/-- A host word address: bits 27:24 select a region, bits 23:0 the word inside it (R40). -/
abbrev Addr := BitVec 28

end Sys2Proof
end

