-- ==== Sys2Proof/Config.lean ====
section
/-! DEFINITION. What the spec leaves to an implementation: the memory depths (R6), the three
trigonometric units (R92), and the values the spec does not fix (R86, R49, R214). A constant declared
opaque has no body: nothing can be proved of its values, so a claim holds whatever they are. -/

namespace Sys2Proof

/-- The two numeric parameters of R6, in their ranges by construction:
`0 <= LOGNMAX <= 24` and `1 <= WMAX <= 2^23` (held as `WMAX - 1`). -/
structure Params where
  logNMax : Fin 25
  wMaxPred : Fin 8388608
  deriving DecidableEq, Repr

/-- `NMAX = 2^LOGNMAX`, the depth in words of `XR` and of `XI` (R6, R23). -/
def Params.nmax (p : Params) : Nat := 2 ^ p.logNMax.val

/-- `WMAX`, the depth in words of `WIN` and of `COEF` (R6, R24, R25). -/
def Params.wmax (p : Params) : Nat := p.wMaxPred.val + 1

/-- The suggested defaults of R6: `LOGNMAX = 12`, `WMAX = 4096`.
DESIGN CHOICE, log entry 1: the spec leaves both OPEN. -/
def Params.suggested : Params := ⟨⟨12, by decide⟩, ⟨4095, by decide⟩⟩

/-- Where a value that the spec leaves open arises: which occurrence of the run (`epoch`, a counter of
State), which pass and element of a command, and which operation of that element. Two occurrences of
one run never share a site, so nothing ties their values together (R86). -/
structure Site where
  epoch : Nat
  pass : Nat
  index : Nat
  op : Nat
  deriving DecidableEq, Repr

/-- The same element, operation number `n`. -/
def Site.at (k : Site) (n : Nat) : Site := { k with op := n }

namespace Config

/-- `NaNChoice` of R6: the sign and payload drawn when an operation returns a NaN (R86, U1). Free. -/
opaque nanChoice : Site → BitVec 32

/-- A word the spec calls unspecified: a host read that R49 or R214 gives no value, and a result of a
command during which the host broke the busy rule (U4). Free. -/
opaque freeWord : Site → Word

/-- The cosine unit at nonzero finite arguments (R92, U2). Free; see `Machine.COS`. -/
opaque cosRaw : F32 → F32

/-- The sine unit at nonzero finite arguments (R92, U2). Free; see `Machine.SIN`. -/
opaque sinRaw : F32 → F32

/-- The tangent unit at nonzero finite arguments (R92, U2). Free; see `Machine.TAN`. -/
opaque tanRaw : F32 → F32

end Config

/-- The three trigonometric units as an argument (R6: "a model takes each as an argument"). -/
structure Trig where
  cosRaw : F32 → F32
  sinRaw : F32 → F32
  tanRaw : F32 → F32

/-- The units of this machine: the free ones. -/
def Config.trig : Trig := ⟨Config.cosRaw, Config.sinRaw, Config.tanRaw⟩

end Sys2Proof
end

