-- ==== Sys2Proof/Machine/Numerics.lean ====
section
/-! DEFINITION. Numerics (40_numerics.md): binary32, the four correctly rounded primitives, negation, the
conversion of integers, the constants, the three trigonometric units and the integer operations. -/

namespace Sys2Proof.Machine

/-! ### The format (R80) -/

/-- The sign bit: bit 31. -/
def fsign (a : F32) : Bool := a.getLsbD 31

/-- The biased exponent `E`: bits 30:23. -/
def fexp (a : F32) : Nat := a.toNat / 2 ^ 23 % 2 ^ 8

/-- The fraction `F`: bits 22:0. -/
def ffrac (a : F32) : Nat := a.toNat % 2 ^ 23

def isNaN (a : F32) : Bool := fexp a == 255 && ffrac a != 0

def isInf (a : F32) : Bool := fexp a == 255 && ffrac a == 0

def isFinite (a : F32) : Bool := fexp a != 255

/-- The test `x == 0`: true for `+0` and `-0` and for nothing else (R88). -/
def isZero (a : F32) : Bool := fexp a == 0 && ffrac a == 0

/-- The magnitude of a finite pattern in units of `2^-149`, the smallest subnormal (R80). -/
def magnitude (a : F32) : Nat :=
  if fexp a = 0 then ffrac a else (2 ^ 23 + ffrac a) * 2 ^ (fexp a - 1)

/-- The value of a finite pattern in units of `2^-149`. -/
def scaledValue (a : F32) : Int := if fsign a then -(magnitude a : Int) else magnitude a

/-! ### Rounding (R81) -/

/-- The pattern with this sign and these low 31 bits. -/
def pack (neg : Bool) (low : Nat) : F32 := BitVec.ofNat 32 (low + if neg then 2 ^ 31 else 0)

/-- The low 31 bits of an infinity. -/
def infLow : Nat := 0x7F800000

/-- How many binary places above `2^-149` the last fraction bit stands, for a magnitude whose integer part
in units of `2^-149` is `t`: none in the subnormal range (R83). -/
def roundShift (t : Nat) : Nat := if t < 2 ^ 24 then 0 else Nat.log2 t - 23

/-- The integer nearest `n / d`, ties to even. -/
def roundEven (n d : Nat) : Nat :=
  if d < 2 * (n % d) ∨ (2 * (n % d) = d ∧ n / d % 2 = 1) then n / d + 1 else n / d

/-- The low 31 bits of the binary32 value nearest `p / d`, ties to even, or of the infinity when the
rounded magnitude would reach `2^128` (R81). A significand that rounds up to `2^24` carries into the
exponent field by the addition. -/
def roundLow (p d : Nat) : Nat :=
  min (roundShift (p * 2 ^ 149 / d) * 2 ^ 23 +
    roundEven (p * 2 ^ 149) (d * 2 ^ roundShift (p * 2 ^ 149 / d))) infLow

/-- `fl32` of the real number `p / d`, negated when `neg` (R8, R81). -/
def fl32 (neg : Bool) (p d : Nat) : F32 := pack neg (roundLow p d)

/-! ### Open values: which NaN (R86) -/

/-- Some quiet NaN: exponent 255 and bit 22 set, the other bits free (R86, U1). -/
def nanResult (k : Site) : F32 := (Config.nanChoice k &&& 0x803FFFFF) ||| 0x7FC00000

/-! ### The primitives (R81 to R89) -/

/-- A zero with this sign. -/
def fzero (neg : Bool) : F32 := pack neg 0

/-- An infinity with this sign. -/
def finf (neg : Bool) : F32 := pack neg infLow

/-- `fneg`: bit 31 inverted and nothing else (R89). -/
def fneg (a : F32) : F32 := a ^^^ 0x80000000

/-- `fadd` (R81, R83 to R85, R88). -/
def fadd (k : Site) (a b : F32) : F32 :=
  if isNaN a || isNaN b then nanResult k
  else if isInf a then
    if isInf b && (fsign a != fsign b) then nanResult k else a
  else if isInf b then b
  else if scaledValue a + scaledValue b = 0 then fzero (fsign a && fsign b)
  else fl32 (decide (scaledValue a + scaledValue b < 0)) (scaledValue a + scaledValue b).natAbs (2 ^ 149)

/-- `fsub(a, b)`, which is `fadd(a, fneg(b))` (R81). -/
def fsub (k : Site) (a b : F32) : F32 := fadd k a (fneg b)

/-- `fmul` (R81, R83 to R85, R88). -/
def fmul (k : Site) (a b : F32) : F32 :=
  if isNaN a || isNaN b then nanResult k
  else if isInf a || isInf b then
    if isZero a || isZero b then nanResult k else finf (fsign a != fsign b)
  else fl32 (fsign a != fsign b) (magnitude a * magnitude b) (2 ^ 149 * 2 ^ 149)

/-- `fdiv` (R81, R83 to R85, R88). -/
def fdiv (k : Site) (a b : F32) : F32 :=
  if isNaN a || isNaN b then nanResult k
  else if isInf a then
    if isInf b then nanResult k else finf (fsign a != fsign b)
  else if isInf b then fzero (fsign a != fsign b)
  else if isZero b then
    if isZero a then nanResult k else finf (fsign a != fsign b)
  else fl32 (fsign a != fsign b) (magnitude a) (magnitude b)

/-- `u2f(u) = fl32(u)` (R91). -/
def u2f (u : Nat) : F32 := fl32 false u 1

/-! ### Constants (R90) -/

def HALF : F32 := 0x3F000000
def ONE : F32 := 0x3F800000
def TWO : F32 := 0x40000000
def PI : F32 := 0x40490FDB
def TWO_PI : F32 := 0x40C90FDB
def FOUR_PI_SQ : F32 := 0x421DE9E6

/-! ### Cosine, sine, tangent (R92)

The spec requires of the three units the properties `TRIG_FUN`, `TRIG_ZERO`, `TRIG_RANGE` and
`TRIG_NONFINITE` and nothing else. A unit here is a free function made to have them: the values the
properties fix are given, and a value of the free function that `TRIG_RANGE` forbids is replaced. A function
with the four properties is itself left as it is, so exactly the admissible units are covered (log entry 3). -/

/-- A pattern of magnitude at most 1.0 is kept (R92 `TRIG_RANGE`); any other becomes 1.0 with its sign. -/
def withinOne (v : F32) : F32 := if v.toNat % 2 ^ 31 ≤ 0x3F800000 then v else pack (fsign v) 0x3F800000

/-- A pattern that is no NaN is kept (R92 `TRIG_RANGE` of `TAN`); a NaN becomes the infinity of its sign. -/
def notNaN (v : F32) : F32 := if isNaN v then finf (fsign v) else v

/-- `COS` (R92). -/
def COS (T : Trig) (k : Site) (x : F32) : F32 :=
  if isFinite x then
    if isZero x then ONE else withinOne (T.cosRaw x)
  else nanResult k

/-- `SIN` (R92). -/
def SIN (T : Trig) (k : Site) (x : F32) : F32 :=
  if isFinite x then
    if isZero x then x else withinOne (T.sinRaw x)
  else nanResult k

/-- `TAN` (R92). -/
def TAN (T : Trig) (k : Site) (x : F32) : F32 :=
  if isFinite x then
    if isZero x then x else notNaN (T.tanRaw x)
  else nanResult k

/-! ### Integers (R97, R98) -/

/-- `ispow2(n)`: `n != 0` and `n & (n - 1) = 0` (R97). -/
def ispow2 (n : Nat) : Bool := n != 0 && n &&& (n - 1) == 0

/-- `bitrev(i, L)`: the `L`-bit representation of `i` read backwards (R98). -/
def bitrev (i : Nat) : Nat → Nat
  | 0 => 0
  | L + 1 => i % 2 * 2 ^ L + bitrev (i / 2) L

end Sys2Proof.Machine
end

