-- ==== Sys2Proof/Syntax.lean ====
section
/-! DEFINITION. The syntax: the six commands of `FBC-1` (R62), what a command word decodes to (R61), the
names of registers and memories (R10, R41), and the actions of the host (R67, R68, R210). -/

namespace Sys2Proof

/-- The six commands of R62, one constructor per row of the opcode table. No command carries an operand
in its word (R63). -/
inductive Instr where
  | clr
  | fft
  | ifft
  | hann
  | firlpf
  | iirlpf
  deriving DecidableEq, Repr

/-- Why a command word is illegal (R61, R65). -/
inductive Illegal where
  /-- `w[31:8]` is not zero. -/
  | reservedField
  /-- `w[31:8]` is zero and `w[7:0]` is not in the table of R62. -/
  | reservedOpcode
  deriving DecidableEq, Repr

/-- What a command word decodes to: "every 32-bit word is either exactly one command or illegal" (R61). -/
inductive Decoded where
  | command (i : Instr)
  | illegal (why : Illegal)
  deriving DecidableEq, Repr

/-- The sixteen registers of R10, in the order of their offsets. -/
inductive Reg where
  | cmd | status | len | num | fc | qf | wlen | clen
  | a0 | a1 | a2 | b0 | b1 | b2 | id | cap
  deriving DecidableEq, Repr

/-- The four word memories of R41. -/
inductive MemName where
  | xr | xi | win | coef
  deriving DecidableEq, Repr

/-- What a host word address names (R41, R49). -/
inductive Target where
  | reg (r : Reg)
  | word (m : MemName) (i : Nat)
  | unmapped
  deriving DecidableEq, Repr

/-- One action at the block's boundary. `read` and `write` are the two host transactions `HRD` and `HWR`
(R45, R46); `reset` is one assertion and release of the input `RESET` (R210); `pause` is the host making
no access until the sequencer has completed the command it is running, if any (R195, R221, U7). -/
inductive HostOp where
  | read (a : Addr)
  | write (a : Addr) (v : Word)
  | pause
  | reset
  deriving DecidableEq, Repr

end Sys2Proof
end

