-- ==== Sys2Proof/Machine/State.lean ====
section
/-! DEFINITION. The state of the FFT butterfly core, as plain data: every register of R10 that is not a
constant, the fields of `STATUS` (R12), the four memories (R23 to R25), the sequencer (R28); the parameters
of R6; and the host at the other end of the port, with what it will do and what it has read. -/

namespace Sys2Proof.Machine

/-- The fields of `STATUS` (R12). Its reserved bits are no state: they read as 0. -/
structure Status where
  busy : Bool
  done : Bool
  err : Bool
  hz : Bool
  errCode : BitVec 8
  deriving DecidableEq, Repr

/-- The sequencer `SEQ` (R28): idle, or running the command decoded from the accepted word (R173).
`disturbed` records that the host has broken the busy rule since that acceptance: from then on the spec no
longer defines what the command leaves (R214, U4). A step runs a command whole (R174, log entry 6), so
between steps a running command stands at its start and its loop indices hold nothing. -/
inductive Seq where
  | idle
  | run (d : Decoded) (disturbed : Bool)
  deriving DecidableEq, Repr

/-- The memories `XR`, `XI`, `WIN`, `COEF` in the byte view of R43: word address `A` is the bytes
`4A` to `4A+3`, little-endian. A byte that is not listed holds no value (R27). -/
abbrev Memory := List Host.Cell

/-- The whole machine. -/
structure State where
  /-- `CMD`: the last accepted command word (R11). -/
  cmd : Word
  /-- `STATUS` (R12). -/
  status : Status
  /-- `LEN` (R13). -/
  len : Word
  /-- `NUM` (R14). -/
  num : Word
  /-- `FC` (R15). -/
  fc : F32
  /-- `QF` (R16). -/
  qf : F32
  /-- `WLEN` (R17). -/
  wlen : Word
  /-- `CLEN` (R18). -/
  clen : Word
  /-- `A0` (R19). -/
  a0 : F32
  /-- `A1` (R19). -/
  a1 : F32
  /-- `A2` (R19). -/
  a2 : F32
  /-- `B0` (R19). -/
  b0 : F32
  /-- `B1` (R19). -/
  b1 : F32
  /-- `B2` (R19). -/
  b2 : F32
  /-- `XR`, `XI`, `WIN`, `COEF` (R23 to R25, R40, R41). -/
  mem : Memory
  /-- The sequencer (R28). -/
  seq : Seq
  /-- The parameters `LOGNMAX`, `WMAX` of R6, which `CAP` reports (R21). No step changes them (R32). -/
  params : Params
  /-- The model's own: how many groups of open values the run has drawn (R86, U1). -/
  draws : Nat
  /-- The host's: its coming actions, first one first (R50, R67, R68). -/
  script : List HostOp
  /-- The host's: the address and value of every read it has made, newest first (R68 `RD`). -/
  record : List (Addr × Word)
  deriving DecidableEq, Repr

/-- How the machine stops with a fault. -/
inductive Fault where
  /-- A read of a memory word that holds no value, at this word address: by a host read (R27) or by a
  command that needs the word (R216). U3: "fault or refusal, never a chosen value". Safe: the spec gives
  no result, and the model goes no further. -/
  | noValue (wordAddr : Nat)
  deriving DecidableEq, Repr

/-- How the machine refuses an instruction. -/
inductive Refusal where
  /-- An instruction that has no meaning in this model, raised by an arm of `exec`. Safe. No arm raises
  it: every row of the opcode table has its meaning. -/
  | notModelled (mnemonic : String)
  deriving DecidableEq, Repr

/-- `STATUS = 0x00000000` (R31). -/
def Status.zero : Status :=
  { busy := false, done := false, err := false, hz := false, errCode := 0 }

/-- The machine right after reset (R31, R210): every register zero, `STATUS` zero, no memory word holding
a value, `SEQ` idle. `ID` and `CAP` are constants and are read in `Machine.readReg`. The parameters stand at
the suggested defaults of R6 (DESIGN CHOICE, log entry 1); nothing has been drawn or read, and the host has
no action pending (log entry 5). -/
def State.reset : State :=
  { cmd := 0, status := .zero, len := 0, num := 0, fc := 0, qf := 0, wlen := 0, clen := 0,
    a0 := 0, a1 := 0, a2 := 0, b0 := 0, b1 := 0, b2 := 0,
    mem := [], seq := .idle, params := .suggested, draws := 0, script := [], record := [] }

end Sys2Proof.Machine
end

