-- ==== Sys2Proof/Machine/Flags.lean ====
section
/-! DEFINITION. The flags: the fields of `STATUS` as a word, and everything that sets or clears them (R12,
R29). No arithmetic operation sets a flag (R87). The constants `ID` and `CAP` stand beside them. -/

namespace Sys2Proof.Machine

/-- The four errors of R181. -/
inductive ErrorKind where
  | invalidLength
  | shapeMismatch
  | capacity
  | illegalCmd
  deriving DecidableEq, Repr

/-- The value of `STATUS.ERRCODE` for an error (R181). -/
def ErrorKind.code : ErrorKind → BitVec 8
  | .invalidLength => 0x01
  | .shapeMismatch => 0x02
  | .capacity => 0x03
  | .illegalCmd => 0x04

/-- `STATUS` as the host reads it: `BUSY`, `DONE`, `ERR`, `HZ` in bits 0 to 3, `ERRCODE` in bits 15:8, the
reserved bits 0 (R12). -/
def Status.word (st : Status) : Word :=
  (0 : BitVec 16) ++ st.errCode ++ (0 : BitVec 4) ++ BitVec.ofBool st.hz ++ BitVec.ofBool st.err ++
    BitVec.ofBool st.done ++ BitVec.ofBool st.busy

/-- Acceptance: `BUSY` set, `DONE`, `ERR`, `ERRCODE` cleared, `HZ` kept (R173). -/
def Status.accepted (st : Status) : Status :=
  { busy := true, done := false, err := false, hz := st.hz, errCode := 0 }

/-- Completion without error: `BUSY` cleared, `DONE` set (R174). -/
def Status.completed (st : Status) : Status := { st with busy := false, done := true }

/-- The error entry: `ERRCODE <- code`, `ERR` and `DONE` set, `BUSY` cleared, `HZ` kept (R184). -/
def Status.raised (st : Status) (e : ErrorKind) : Status :=
  { busy := false, done := true, err := true, hz := st.hz, errCode := e.code }

/-- What `CLR` leaves: every field 0 (R170). -/
def Status.cleared : Status :=
  { busy := false, done := false, err := false, hz := false, errCode := 0 }

/-- The broken busy rule: `HZ` set and nothing else (R189, R214). -/
def Status.hazarded (st : Status) : Status := { st with hz := true }

/-- `ID`: the constant `0x46424331` (R20). -/
def idWord : Word := 0x46424331

/-- `CAP`: `LOGNMAX` in bits 4:0, `WMAX` in bits 31:8, bits 7:5 zero (R21). -/
def capWord (p : Params) : Word :=
  BitVec.ofNat 24 p.wmax ++ (0 : BitVec 3) ++ BitVec.ofNat 5 p.logNMax.val

end Sys2Proof.Machine
end

