-- ==== Sys2Proof/Decode.lean ====
section
/-! DEFINITION. The decoder of command words (R60, R61, R62) and the encoder, both from the one table of
R62; and the decoding of a host word address by the address map (R10, R40, R41) with its inverse. -/

namespace Sys2Proof

/-- The field `RSV` of format `C`: bits 31:8 (R60). -/
def rsvField (w : Word) : BitVec 24 := w.extractLsb' 8 24

/-- The field `OP` of format `C`: bits 7:0 (R60). -/
def opField (w : Word) : BitVec 8 := w.extractLsb' 0 8

/-- The table of R62: the command an opcode selects; values above `0x05` are reserved (R65). -/
def commandOf (op : BitVec 8) : Decoded :=
  match op.toNat with
  | 0 => .command .clr
  | 1 => .command .fft
  | 2 => .command .ifft
  | 3 => .command .hann
  | 4 => .command .firlpf
  | 5 => .command .iirlpf
  | _ => .illegal .reservedOpcode

/-- Decoding, total on every word (R61): a nonzero `RSV` is illegal whatever the opcode. -/
def decode (w : Word) : Decoded :=
  if rsvField w = 0 then commandOf (opField w) else .illegal .reservedField

/-- The opcode of a command (R62). -/
def opcode : Instr → BitVec 8
  | .clr => 0x00
  | .fft => 0x01
  | .ifft => 0x02
  | .hann => 0x03
  | .firlpf => 0x04
  | .iirlpf => 0x05

/-- The command word of a command: `RSV = 0` above its opcode (R60, R62). -/
def encode (i : Instr) : Word := (0 : BitVec 24) ++ opcode i

/-- The one command word made of the low `nbits` bits of `w` (every command is 32 bits, R66). -/
def tableWord (nbits w : Nat) : Word := BitVec.ofNat 32 (w % 2 ^ nbits)

/-- The instruction the decoder reads from a table word of at most 32 bits. The port moves whole words
(R42), so the word goes to the decoder as it stands. -/
def decodeTableWord (nbits w : Nat) : Option Instr :=
  if nbits ≤ 32 then
    match decode (tableWord nbits w) with
    | .command i => some i
    | .illegal _ => none
  else none

/-- The region field of a host address: bits 27:24 (R40). -/
def regionField (a : Addr) : BitVec 4 := a.extractLsb' 24 4

/-- The word index of a host address inside its region: bits 23:0 (R40). -/
def indexField (a : Addr) : BitVec 24 := a.extractLsb' 0 24

/-- The register at a word offset of region 0 (R10); offsets `0x10` and above name none (R22). -/
def regOfOffset : Nat → Option Reg
  | 0 => some .cmd
  | 1 => some .status
  | 2 => some .len
  | 3 => some .num
  | 4 => some .fc
  | 5 => some .qf
  | 6 => some .wlen
  | 7 => some .clen
  | 8 => some .a0
  | 9 => some .a1
  | 10 => some .a2
  | 11 => some .b0
  | 12 => some .b1
  | 13 => some .b2
  | 14 => some .id
  | 15 => some .cap
  | _ => none

/-- The word offset of a register in region 0 (R10). -/
def Reg.offset : Reg → Nat
  | .cmd => 0
  | .status => 1
  | .len => 2
  | .num => 3
  | .fc => 4
  | .qf => 5
  | .wlen => 6
  | .clen => 7
  | .a0 => 8
  | .a1 => 9
  | .a2 => 10
  | .b0 => 11
  | .b1 => 12
  | .b2 => 13
  | .id => 14
  | .cap => 15

/-- The region of a memory in the address map (R41). -/
def MemName.region : MemName → Nat
  | .xr => 1
  | .xi => 2
  | .win => 3
  | .coef => 4

/-- The word address of word `i` of a memory, `0x1000000 * region + i` (R41). -/
def MemName.wordAddr (m : MemName) (i : Nat) : Nat := m.region * 2 ^ 24 + i

/-- What a host word address names by the address map, before its index is held against the depth of the
memory (R41); regions `0x5` to `0xF` name nothing (R49). -/
def targetOf (a : Addr) : Target :=
  match (regionField a).toNat with
  | 0 =>
    match regOfOffset (indexField a).toNat with
    | some r => .reg r
    | none => .unmapped
  | 1 => .word .xr (indexField a).toNat
  | 2 => .word .xi (indexField a).toNat
  | 3 => .word .win (indexField a).toNat
  | 4 => .word .coef (indexField a).toNat
  | _ => .unmapped

/-- `addr(<register>)` of R68. -/
def Reg.addr (r : Reg) : Addr := BitVec.ofNat 28 r.offset

/-- `addr(<mem>[<index>])` of R68. -/
def MemName.addr (m : MemName) (i : Nat) : Addr := BitVec.ofNat 28 (m.wordAddr i)

end Sys2Proof
end

