-- ==== Sys2Proof/WellFormed.lean ====
section
/-! DEFINITION. Well-formedness: of a command, of a command word (R65), of what an address names, and of a
host action, whose address must be mapped (R49: "A host must not make such an access"). -/

namespace Sys2Proof

/-- A command has no operand field (R63, R66), so each of the six is well-formed as it stands. -/
def Instr.wf : Instr → Bool
  | .clr => true
  | .fft => true
  | .ifft => true
  | .hann => true
  | .firlpf => true
  | .iirlpf => true

/-- The depth in words of a memory (R41). -/
def MemName.depth (p : Params) : MemName → Nat
  | .xr => p.nmax
  | .xi => p.nmax
  | .win => p.wmax
  | .coef => p.wmax

/-- What an address names is there: a register, or a word inside its memory's depth (R41, R49). -/
def Target.wf (p : Params) : Target → Bool
  | .reg _ => true
  | .word m i => decide (i < m.depth p)
  | .unmapped => false

/-- A command word is well-formed when it is one of the six of R62; every other word is reserved (R65). -/
def commandWordWf (w : Word) : Bool := decide (w.toNat ≤ 5)

/-- A host action is well-formed when the address it names is mapped for these parameters (R49). -/
def HostOp.wf (p : Params) : HostOp → Bool
  | .read a => (targetOf a).wf p
  | .write a _ => (targetOf a).wf p
  | .pause => true
  | .reset => true

end Sys2Proof
end

