-- ==== Sys2Proof/Machine/Ops.lean ====
section
/-! DEFINITION. The shared operations: memory in the byte view of R43, register access (R10, R22), what an
address names (R41, R49), acceptance (R173), completion (R174), the error entry (R184) and the two ways out
of an error (R186), delivery of a command's results (R214, U4), the two host transactions (R45, R46), the
busy rule (R214) and the reset event (R210, R211). -/

namespace Sys2Proof.Machine

/-! ### Memory: bytes -/

/-- The byte at a byte address, if it holds a value. What an unlisted address reads as: no value (R27). -/
def Memory.readByte : Memory → Nat → Option Byte
  | [], _ => none
  | c :: m, a => if c.1 = a then some c.2 else Memory.readByte m a

/-- Write one byte, keeping the addresses strictly rising. -/
def Memory.writeByte : Memory → Nat → Byte → Memory
  | [], a, b => [(a, b)]
  | c :: m, a, b =>
    if a < c.1 then (a, b) :: c :: m
    else if a = c.1 then (a, b) :: m
    else c :: Memory.writeByte m a b

/-- The canonical form: addresses strictly rising, and the four bytes of a word held together, since
every access moves a whole word (R42, R48). An unlisted byte holds no value, so no listed byte equals it. -/
abbrev Memory.wf (m : Memory) : Prop :=
  m.Pairwise (fun c d => c.1 < d.1) ∧
    ∀ c ∈ m, ∀ j < 4, (Memory.readByte m (4 * (c.1 / 4) + j)).isSome = true

/-! ### Memory: words, little-endian (R43) -/

/-- Byte `j` of a word: bits `8j+7 : 8j` (R43). -/
def byteOf (v : Word) (j : Nat) : Byte := v.extractLsb' (8 * j) 8

/-- The word at word address `A`, if it holds a value (R27, R43). -/
def Memory.readWord (m : Memory) (A : Nat) : Option Word :=
  match m.readByte (4 * A), m.readByte (4 * A + 1), m.readByte (4 * A + 2), m.readByte (4 * A + 3) with
  | some b0, some b1, some b2, some b3 => some (b3 ++ b2 ++ b1 ++ b0)
  | _, _, _, _ => none

/-- Write the word at word address `A` (R42, R43). -/
def Memory.writeWord (m : Memory) (A : Nat) (v : Word) : Memory :=
  (((m.writeByte (4 * A) (byteOf v 0)).writeByte (4 * A + 1) (byteOf v 1)).writeByte (4 * A + 2)
    (byteOf v 2)).writeByte (4 * A + 3) (byteOf v 3)

/-- The `n` words from word address `A` on, or the first address among them that holds no value. -/
def Memory.readWords (m : Memory) : (A n : Nat) → Except Nat (List Word)
  | _, 0 => .ok []
  | A, n + 1 =>
    match m.readWord A with
    | none => .error A
    | some w =>
      match Memory.readWords m (A + 1) n with
      | .ok ws => .ok (w :: ws)
      | .error e => .error e

/-- Write words one after the other from word address `A` on. -/
def Memory.writeWords : (m : Memory) → (A : Nat) → List Word → Memory
  | m, _, [] => m
  | m, A, w :: ws => Memory.writeWords (m.writeWord A w) (A + 1) ws

/-- Word `i` of a memory, if it holds a value: `M[i]` of R8. -/
def State.wordAt (s : State) (m : MemName) (i : Nat) : Option Word := s.mem.readWord (m.wordAddr i)

/-! ### Registers -/

/-- A register as the host reads it; `ID` and `CAP` are constants (R10, R20, R21). -/
def State.readReg (s : State) : Reg → Word
  | .cmd => s.cmd
  | .status => s.status.word
  | .len => s.len
  | .num => s.num
  | .fc => s.fc
  | .qf => s.qf
  | .wlen => s.wlen
  | .clen => s.clen
  | .a0 => s.a0
  | .a1 => s.a1
  | .a2 => s.a2
  | .b0 => s.b0
  | .b1 => s.b1
  | .b2 => s.b2
  | .id => idWord
  | .cap => capWord s.params

/-! ### The life of a command -/

/-- Whether the busy rule has been broken since the running command was accepted (R214). -/
def State.disturbed (s : State) : Bool :=
  match s.seq with
  | .idle => false
  | .run _ b => b

/-- Acceptance of a command word (R173). -/
def State.accept (s : State) (w : Word) : State :=
  { s with cmd := w, status := s.status.accepted, seq := .run (decode w) false }

/-- Completion without error (R174): `SEQ` returns to `IDLE`. The draw counter moves on, so that no later
command shares an open value with this one. -/
def State.complete (s : State) : State :=
  { s with status := s.status.completed, seq := .idle, draws := s.draws + 1 }

/-- Taking an error, the one exception of the block: `raise Error(code)` (R184). Only `STATUS` changes and
`SEQ` returns to `IDLE`. -/
def State.raiseError (s : State) (e : ErrorKind) : State :=
  { s with status := s.status.raised e, seq := .idle }

/-- The return from an error by `CLR` (R170, R186): `STATUS` is zero and `SEQ` idle. The other return, by the
next command, is `State.accept` (R186). -/
def State.acknowledge (s : State) : State :=
  { s with status := .cleared, seq := .idle }

/-- What ends at once after its acceptance, with no host access in between: `CLR` (R170) and an illegal word
(R61). Every other command may find the host polling `STATUS` first (R221). DEDUCED, log entry 15. -/
def Decoded.endsAtOnce : Decoded → Bool
  | .command .clr => true
  | .command .fft => false
  | .command .ifft => false
  | .command .hann => false
  | .command .firlpf => false
  | .command .iirlpf => false
  | .illegal _ => true

/-- The sequencer has accepted what ends at once, so its turn comes before any host access (R61, R170). -/
def State.endsAtOnce (s : State) : Bool :=
  s.status.busy &&
    match s.seq with
    | .idle => false
    | .run d _ => Decoded.endsAtOnce d

/-- An illegal word ends at once with `ILLEGAL_CMD` (R61, R65). -/
def State.rejectWord (s : State) : State := s.raiseError .illegalCmd

/-! ### Results -/

/-- A result as the command leaves it: its value, or an open one if the host broke the busy rule while the
command was running (R189, R214, U4). -/
def State.deliver (s : State) (k : Site) (v : Word) : Word :=
  if s.disturbed then Config.freeWord k else v

/-- A result sequence for a memory as the command leaves it. -/
def State.deliverSeq (s : State) (m : MemName) (ws : List Word) : List Word :=
  ws.mapIdx fun i w => s.deliver ⟨s.draws, m.region, i, 0⟩ w

/-- Write a result sequence to words `0, 1, ...` of a memory. -/
def State.storeSeq (s : State) (m : MemName) (ws : List Word) : State :=
  { s with mem := s.mem.writeWords (m.wordAddr 0) (s.deliverSeq m ws) }

/-- A result register's new value. -/
def State.deliverReg (s : State) (r : Reg) (v : Word) : Word := s.deliver ⟨s.draws, 0, r.offset, 0⟩ v

/-! ### The host port -/

/-- What an address names, its index held against the depth of the memory: beyond it nothing is mapped
(R41, R49). -/
def State.target (s : State) (a : Addr) : Target :=
  if (targetOf a).wf s.params then targetOf a else .unmapped

/-- The host records the value it has read (R68 `RD`). -/
def State.recordRead (s : State) (a : Addr) (v : Word) : State := { s with record := (a, v) :: s.record }

/-- A read that returns an unspecified word (R49, R214). -/
def State.recordOpen (s : State) (a : Addr) : State :=
  { s.recordRead a (Config.freeWord ⟨s.draws, 5, a.toNat, 0⟩) with draws := s.draws + 1 }

/-- The sequencer after the host has broken the busy rule: its command goes on (R189, R214). -/
def Seq.disturb : Seq → Seq
  | .idle => .idle
  | .run d _ => .run d true

/-- The host has broken the busy rule: `HZ <- 1` (R214). -/
def State.hazard (s : State) : State := { s with status := s.status.hazarded, seq := s.seq.disturb }

/-- `HRD(a)` (R45). A read of `STATUS` is always defined; any other read while `BUSY = 1` breaks the busy rule
(R214); an unmapped read returns an unspecified word (R49); a memory word that holds no value is a fault
(R27, U3). -/
def State.hostRead (s : State) (a : Addr) : Host.Outcome State Fault Refusal :=
  if a = Reg.status.addr then .next (s.recordRead a s.status.word)
  else if s.status.busy then .next (s.hazard.recordOpen a)
  else
    match s.target a with
    | .reg r => .next (s.recordRead a (s.readReg r))
    | .word m i =>
      match s.wordAt m i with
      | some v => .next (s.recordRead a v)
      | none => .fault (.noValue (m.wordAddr i))
    | .unmapped => .next (s.recordOpen a)

/-- A host write to a register while `BUSY = 0`: a write to `CMD` is acceptance (R173), a read-only register
keeps its value (R22). -/
def State.writeReg (s : State) (r : Reg) (v : Word) : State :=
  match r with
  | .cmd => s.accept v
  | .status => s
  | .len => { s with len := v }
  | .num => { s with num := v }
  | .fc => { s with fc := v }
  | .qf => { s with qf := v }
  | .wlen => { s with wlen := v }
  | .clen => s
  | .a0 => s
  | .a1 => s
  | .a2 => s
  | .b0 => s
  | .b1 => s
  | .b2 => s
  | .id => s
  | .cap => s

/-- A host write to a word inside the depth of its memory: `COEF` is read-only to the host (R25, R46). -/
def State.writeMem (s : State) (m : MemName) (i : Nat) (v : Word) : State :=
  match m with
  | .xr => { s with mem := s.mem.writeWord (MemName.xr.wordAddr i) v }
  | .xi => { s with mem := s.mem.writeWord (MemName.xi.wordAddr i) v }
  | .win => { s with mem := s.mem.writeWord (MemName.win.wordAddr i) v }
  | .coef => s

/-- `HWR(a, v)` (R46). While `BUSY = 1` the write is ignored and breaks the busy rule (R214); a write to an
unmapped address changes nothing (R49). -/
def State.hostWrite (s : State) (a : Addr) (v : Word) : State :=
  if s.status.busy then s.hazard
  else
    match s.target a with
    | .reg r => s.writeReg r v
    | .word m i => s.writeMem m i v
    | .unmapped => s

/-- The reset event (R210, R211): the block takes the state of R31, whatever it was doing. The parameters,
which are fixed for the life of the block (R32), the host's script and record, and the draw counter are not
the block's state and stay. -/
def State.resetEvent (s : State) : State :=
  { State.reset with params := s.params, draws := s.draws, script := s.script, record := s.record }

end Sys2Proof.Machine
end

