-- ==== Sys2Proof/Machine/Operands.lean ====
section
/-! DEFINITION. The operands of commands: lengths as naturals (R95, R96), the checks that come before any
effect (R111, R140, R151, R183, R185), and the sequences a command reads (R63, R212). -/

namespace Sys2Proof.Machine

/-- `n = LEN` (R110, R140). -/
def State.seqLen (s : State) : Nat := s.len.toNat

/-- `NUM + 1`, formed without wrap-around (R96). -/
def State.taps (s : State) : Nat := s.num.toNat + 1

/-- The checks of `FFT` and `IFFT`, in the order of R111: the error they raise, if any. -/
def State.transformError (s : State) : Option ErrorKind :=
  if ispow2 s.seqLen = false then some .invalidLength
  else if s.params.nmax < s.seqLen then some .capacity
  else none

/-- The check of `HANN` (R140). -/
def State.hannError (s : State) : Option ErrorKind :=
  if s.params.wmax < s.seqLen then some .capacity else none

/-- The checks of `FIRLPF`, in the order of R151. -/
def State.firError (s : State) : Option ErrorKind :=
  if s.wlen.toNat ≠ s.taps then some .shapeMismatch
  else if s.params.wmax < s.taps then some .capacity
  else none

/-- Words `0` to `n-1` of a memory, or the address of the first of them that holds no value (R216). -/
def State.loadSeq (s : State) (m : MemName) (n : Nat) : Except Nat (List Word) :=
  s.mem.readWords (m.wordAddr 0) n

/-- A complex value: a pair of binary32 (R8, R23). -/
structure Cpx where
  re : F32
  im : F32
  deriving DecidableEq, Repr

/-- The pair of zeros, read beyond the end of a sequence (no rule reads there). -/
def Cpx.zero : Cpx := ⟨0, 0⟩

/-- The sequence `f 0, f 1, ..., f (n-1)`. -/
def tabulate {α : Type} (n : Nat) (f : Nat → α) : List α := (List.range n).map f

end Sys2Proof.Machine
end

