-- ==== Sys2Proof/Machine/Fft.lean ====
section
/-! DEFINITION. The butterfly unit: `FFT` (R120) and `IFFT` (R121).

A stage is one map over its disjoint pairs, and so are the bit-reversal and scaling passes: R117 lets a model
take them so, because no butterfly, swap or scaling of one pass touches a position of another. -/

namespace Sys2Proof.Machine

/-- The direction of a transform (R114). -/
inductive Direction where
  | forward
  | inverse
  deriving DecidableEq, Repr

/-- Complex multiplication: four rounded products, a rounded difference and a rounded sum (R115). -/
def cmul (k : Site) (d w : Cpx) : Cpx :=
  ⟨fsub (k.at 8) (fmul (k.at 4) d.re w.re) (fmul (k.at 5) d.im w.im),
   fadd (k.at 9) (fmul (k.at 6) d.im w.re) (fmul (k.at 7) d.re w.im)⟩

/-- The difference `d` of a butterfly (R113). -/
def bflyDiff (k : Site) (a b : Cpx) : Cpx := ⟨fsub (k.at 2) a.re b.re, fsub (k.at 3) a.im b.im⟩

/-- The butterfly `BFLY(a, b, tw, W)`: the sum and the twiddled or plain difference (R113). -/
def bfly (k : Site) (a b : Cpx) (tw : Bool) (w : Cpx) : Cpx × Cpx :=
  (⟨fadd (k.at 0) a.re b.re, fadd (k.at 1) a.im b.im⟩,
   if tw then cmul k (bflyDiff k a b) w else bflyDiff k a b)

/-- The angle `(2π·r)/n` of a twiddle factor (R114). -/
def twiddleAngle (k : Site) (r n : Nat) : F32 := fdiv (k.at 11) (fmul (k.at 10) TWO_PI (u2f r)) (u2f n)

/-- The twiddle factor: negative sine forward, positive sine inverse (R114, R122). -/
def twiddle (T : Trig) (k : Site) (dir : Direction) (r n : Nat) : Cpx :=
  ⟨COS T (k.at 12) (twiddleAngle k r n),
   match dir with
   | .forward => fneg (SIN T (k.at 13) (twiddleAngle k r n))
   | .inverse => SIN T (k.at 13) (twiddleAngle k r n)⟩

/-- What a transform is run with: the trigonometric units, the draw counter, the direction and `limit`. -/
structure Plan where
  trig : Trig
  epoch : Nat
  dir : Direction
  limit : Nat

/-- The transform length `n = 2^limit` (R112). -/
def Plan.n (P : Plan) : Nat := 2 ^ P.limit

/-- The pair distance `h = 2^(limit-s)` of stage `s` (R112). -/
def Plan.half (P : Plan) (s : Nat) : Nat := 2 ^ (P.limit - s)

/-- Butterfly `(s, i, j)`: positions `m = 2h·i + j` and `m + h`, twiddle exponent `r = 2^(s-1)·j`, twiddle in
every stage but the last (R112, R113). -/
def Plan.butterfly (P : Plan) (s i j : Nat) (xs : List Cpx) : Cpx × Cpx :=
  bfly ⟨P.epoch, s, 2 * P.half s * i + j, 0⟩
    (xs.getD (2 * P.half s * i + j) .zero) (xs.getD (2 * P.half s * i + j + P.half s) .zero)
    (decide (s < P.limit))
    (twiddle P.trig ⟨P.epoch, s, 2 * P.half s * i + j, 0⟩ P.dir (2 ^ (s - 1) * j) P.n)

/-- What stage `s` leaves at position `p`: the sum in the first half of its group, the difference in the
second (R112, R113). -/
def Plan.stageAt (P : Plan) (s : Nat) (xs : List Cpx) (p : Nat) : Cpx :=
  if p % (2 * P.half s) < P.half s then
    (P.butterfly s (p / (2 * P.half s)) (p % (2 * P.half s)) xs).1
  else (P.butterfly s (p / (2 * P.half s)) (p % (2 * P.half s) - P.half s) xs).2

/-- Stage `s`, all its butterflies at once (R116, R117). -/
def Plan.stage (P : Plan) (s : Nat) (xs : List Cpx) : List Cpx := tabulate P.n (P.stageAt s xs)

/-- Stages `1` to `t`, in order (R116). -/
def Plan.stages (P : Plan) (xs : List Cpx) : Nat → List Cpx
  | 0 => xs
  | t + 1 => P.stage (t + 1) (P.stages xs t)

/-- The bit-reversal pass: `bitrev` is its own inverse, so exchanging positions `i` and `bitrev(i)` once for
each pair leaves at `i` what stood at `bitrev(i)` (R98, R118). -/
def Plan.reversal (P : Plan) (xs : List Cpx) : List Cpx :=
  tabulate P.n fun i => xs.getD (bitrev i P.limit) .zero

/-- The stages, then the bit-reversal pass (R116). -/
def Plan.transform (P : Plan) (xs : List Cpx) : List Cpx := P.reversal (P.stages xs P.limit)

/-- The scaling pass of `IFFT`: every component divided by `n` (R119). -/
def Plan.scale (P : Plan) (xs : List Cpx) : List Cpx :=
  xs.mapIdx fun i x =>
    ⟨fdiv ⟨P.epoch, P.limit + 1, i, 0⟩ x.re (u2f P.n), fdiv ⟨P.epoch, P.limit + 1, i, 1⟩ x.im (u2f P.n)⟩

/-- `fft` of a real sequence of length `2^limit`: imaginary parts `+0` (R110, R120). -/
def fftSeq (T : Trig) (epoch : Nat) (re : List F32) : List Cpx :=
  Plan.transform ⟨T, epoch, .forward, Nat.log2 re.length⟩ (re.map fun x => ⟨x, 0⟩)

/-- `ifft` of a complex sequence of length `2^limit` (R110, R121). -/
def ifftSeq (T : Trig) (epoch : Nat) (xs : List Cpx) : List Cpx :=
  Plan.scale ⟨T, epoch, .inverse, Nat.log2 xs.length⟩
    (Plan.transform ⟨T, epoch, .inverse, Nat.log2 xs.length⟩ xs)

/-- Leave a complex sequence in `XR` and `XI` (R110). -/
def State.storeCpx (s : State) (xs : List Cpx) : State :=
  (s.storeSeq .xr (xs.map Cpx.re)).storeSeq .xi (xs.map Cpx.im)

/-- `FFT` (R120): `XI` is not read. -/
def execFft (s : State) : Host.Outcome State Fault Refusal :=
  match s.transformError with
  | some e => .next (s.raiseError e)
  | none =>
    match s.loadSeq .xr s.seqLen with
    | .error a => .fault (.noValue a)
    | .ok re => .next (s.storeCpx (fftSeq Config.trig s.draws re)).complete

/-- `IFFT` (R121). -/
def execIfft (s : State) : Host.Outcome State Fault Refusal :=
  match s.transformError with
  | some e => .next (s.raiseError e)
  | none =>
    match s.loadSeq .xr s.seqLen with
    | .error a => .fault (.noValue a)
    | .ok re =>
      match s.loadSeq .xi s.seqLen with
      | .error a => .fault (.noValue a)
      | .ok im => .next (s.storeCpx (ifftSeq Config.trig s.draws (List.zipWith Cpx.mk re im))).complete

end Sys2Proof.Machine
end

