-- ==== Sys2Proof/Machine/Fir.lean ====
section
/-! DEFINITION. The FIR windowed-sinc low-pass coefficient generator: `FIRLPF` (R154). -/

namespace Sys2Proof.Machine

/-- `sinc(x)`: 1 at either zero, else `SIN(x)/x` (R152). -/
def sinc (T : Trig) (k : Site) (x : F32) : F32 :=
  if isZero x then ONE else fdiv (k.at 11) (SIN T (k.at 10) x) x

/-- `g = 2π·fc`, the same for every coefficient (R153, R155). -/
def firG (epoch : Nat) (fc : F32) : F32 := fmul ⟨epoch, 1, 0, 0⟩ TWO_PI fc

/-- `tf = 2·fc`, the same for every coefficient (R153, R155). -/
def firTf (epoch : Nat) (fc : F32) : F32 := fmul ⟨epoch, 1, 0, 1⟩ TWO fc

/-- `x = g·(i - num/2)`, with `num/2` the integer quotient (R153). -/
def firX (epoch : Nat) (fc : F32) (num i : Nat) : F32 :=
  fmul ⟨epoch, 0, i, 1⟩ (firG epoch fc) (fsub ⟨epoch, 0, i, 0⟩ (u2f i) (u2f (num >>> 1)))

/-- Coefficient `i` for the window word `w`: `((2·fc)·sinc(x))·w` (R153). -/
def firCoef (T : Trig) (epoch : Nat) (fc : F32) (num i : Nat) (w : F32) : F32 :=
  fmul ⟨epoch, 0, i, 3⟩
    (fmul ⟨epoch, 0, i, 2⟩ (firTf epoch fc) (sinc T ⟨epoch, 0, i, 0⟩ (firX epoch fc num i))) w

/-- `fir_lpf(fc, num, window)`: one coefficient for each window word (R153, R155). -/
def firSeq (T : Trig) (epoch : Nat) (fc : F32) (num : Nat) (win : List F32) : List F32 :=
  win.mapIdx fun i w => firCoef T epoch fc num i w

/-- `FIRLPF` (R154). -/
def execFirlpf (s : State) : Host.Outcome State Fault Refusal :=
  match s.firError with
  | some e => .next (s.raiseError e)
  | none =>
    match s.loadSeq .win s.taps with
    | .error a => .fault (.noValue a)
    | .ok win =>
      .next { s.storeSeq .coef (firSeq Config.trig s.draws s.fc s.num.toNat win) with
        clen := s.deliverReg .clen (BitVec.ofNat 32 s.taps) }.complete

end Sys2Proof.Machine
end

