-- ==== Sys2Proof/Machine/Hann.lean ====
section
/-! DEFINITION. The Hann window generator: `HANN` (R143). -/

namespace Sys2Proof.Machine

/-- `k`: the index, with the half-sample offset on odd indices (R141, R142). -/
def hannK (site : Site) (i : Nat) : F32 :=
  if i % 2 = 0 then u2f i else fadd (site.at 0) (u2f i) HALF

/-- The angle `(2π·k)/n` (R142). -/
def hannAngle (site : Site) (i n : Nat) : F32 :=
  fdiv (site.at 2) (fmul (site.at 1) TWO_PI (hannK site i)) (u2f n)

/-- The weight `w(i, n) = 0.5 - (0.5·cos)` (R142). -/
def hannWeight (T : Trig) (epoch n i : Nat) : F32 :=
  fsub ⟨epoch, 0, i, 5⟩ HALF
    (fmul ⟨epoch, 0, i, 4⟩ HALF (COS T ⟨epoch, 0, i, 3⟩ (hannAngle ⟨epoch, 0, i, 0⟩ i n)))

/-- `hann(n)`: the `n` weights (R141, R144). -/
def hannSeq (T : Trig) (epoch n : Nat) : List F32 := tabulate n (hannWeight T epoch n)

/-- `HANN` (R143). -/
def execHann (s : State) : Host.Outcome State Fault Refusal :=
  match s.hannError with
  | some e => .next (s.raiseError e)
  | none =>
    .next { s.storeSeq .win (hannSeq Config.trig s.draws s.seqLen) with
      wlen := s.deliverReg .wlen s.len }.complete

end Sys2Proof.Machine
end

