-- ==== Sys2Proof/Machine/Iir.lean ====
section
/-! DEFINITION. The bilinear-transform biquad low-pass coefficient calculator: `IIRLPF` (R163). Each
quantity of R162 is a definition, in the order of R162. -/

namespace Sys2Proof.Machine

/-- `df = TAN(π·fc)/(2π)`. -/
def iirDf (T : Trig) (e : Nat) (fc : F32) : F32 :=
  fdiv ⟨e, 0, 0, 2⟩ (TAN T ⟨e, 0, 0, 1⟩ (fmul ⟨e, 0, 0, 0⟩ PI fc)) TWO_PI

/-- `temp = 4π²·(df·df)`. -/
def iirTemp (T : Trig) (e : Nat) (fc : F32) : F32 :=
  fmul ⟨e, 0, 0, 4⟩ FOUR_PI_SQ (fmul ⟨e, 0, 0, 3⟩ (iirDf T e fc) (iirDf T e fc))

/-- `g = (2π·df)/Q`. -/
def iirG (T : Trig) (e : Nat) (fc q : F32) : F32 :=
  fdiv ⟨e, 0, 0, 6⟩ (fmul ⟨e, 0, 0, 5⟩ TWO_PI (iirDf T e fc)) q

/-- `denom = (1 + g) + temp`. -/
def iirDenom (T : Trig) (e : Nat) (fc q : F32) : F32 :=
  fadd ⟨e, 0, 0, 8⟩ (fadd ⟨e, 0, 0, 7⟩ ONE (iirG T e fc q)) (iirTemp T e fc)

/-- `a1 = (2·temp - 2)/denom`. -/
def iirA1 (T : Trig) (e : Nat) (fc q : F32) : F32 :=
  fdiv ⟨e, 0, 0, 11⟩ (fsub ⟨e, 0, 0, 10⟩ (fmul ⟨e, 0, 0, 9⟩ TWO (iirTemp T e fc)) TWO) (iirDenom T e fc q)

/-- `a2 = (1 - g) + temp/denom`: only the trailing term is divided (R161, conflict C2). -/
def iirA2 (T : Trig) (e : Nat) (fc q : F32) : F32 :=
  fadd ⟨e, 0, 0, 14⟩ (fsub ⟨e, 0, 0, 12⟩ ONE (iirG T e fc q))
    (fdiv ⟨e, 0, 0, 13⟩ (iirTemp T e fc) (iirDenom T e fc q))

/-- `b0 = temp/denom`. -/
def iirB0 (T : Trig) (e : Nat) (fc q : F32) : F32 :=
  fdiv ⟨e, 0, 0, 15⟩ (iirTemp T e fc) (iirDenom T e fc q)

/-- `b1 = (2·temp)/denom`. -/
def iirB1 (T : Trig) (e : Nat) (fc q : F32) : F32 :=
  fdiv ⟨e, 0, 0, 17⟩ (fmul ⟨e, 0, 0, 16⟩ TWO (iirTemp T e fc)) (iirDenom T e fc q)

/-- The six results, in register order; `b2` is a copy of `b0` (R162, R164). -/
structure Biquad where
  a0 : F32
  a1 : F32
  a2 : F32
  b0 : F32
  b1 : F32
  b2 : F32
  deriving DecidableEq, Repr

/-- `iir_lpf(fc, q)` (R162). -/
def iirSeq (T : Trig) (e : Nat) (fc q : F32) : Biquad :=
  ⟨ONE, iirA1 T e fc q, iirA2 T e fc q, iirB0 T e fc q, iirB1 T e fc q, iirB0 T e fc q⟩

/-- Write the six coefficient registers together (R163). -/
def State.storeBiquad (s : State) (c : Biquad) : State :=
  { s with
    a0 := s.deliverReg .a0 c.a0, a1 := s.deliverReg .a1 c.a1, a2 := s.deliverReg .a2 c.a2,
    b0 := s.deliverReg .b0 c.b0, b1 := s.deliverReg .b1 c.b1, b2 := s.deliverReg .b2 c.b2 }

/-- `IIRLPF` (R163): no check, no error (R160). -/
def execIirlpf (s : State) : Host.Outcome State Fault Refusal :=
  .next (s.storeBiquad (iirSeq Config.trig s.draws s.fc s.qf)).complete

end Sys2Proof.Machine
end

