-- ==== Sys2Proof/Machine/System.lean ====
section
/-! DEFINITION. `CLR` (R170). -/

namespace Sys2Proof.Machine

/-- `CLR`: every field of `STATUS` to 0, no other register and no memory changed (R170). -/
def execClr (s : State) : Host.Outcome State Fault Refusal := .next s.acknowledge

end Sys2Proof.Machine
end

