-- ==== Sys2Proof/Machine/Dispatch.lean ====
section
/-! DEFINITION. The meaning of each command, one arm each: the sequencer runs it from acceptance to
completion or error (R173, R174, R184). -/

namespace Sys2Proof.Machine

def exec (i : Instr) (s : State) : Host.Outcome State Fault Refusal :=
  match i with
  | .clr => Sys2Proof.Machine.execClr s
  | .fft => Sys2Proof.Machine.execFft s
  | .ifft => Sys2Proof.Machine.execIfft s
  | .hann => Sys2Proof.Machine.execHann s
  | .firlpf => Sys2Proof.Machine.execFirlpf s
  | .iirlpf => Sys2Proof.Machine.execIirlpf s

end Sys2Proof.Machine
end

