-- ==== Sys2Proof/Machine/Step.lean ====
section
/-! DEFINITION. One step of the machine: the next action of the host (R50), or the sequencer running the
accepted command (R174). The state itself says whose turn it is (log entries 5 and 15). -/

namespace Sys2Proof.Machine

/-- The sequencer's turn: an idle sequencer does nothing (R195); a running one executes the command it
decoded, or ends an illegal word with its error (R61, R173). -/
def State.seqTurn (s : State) : Host.Outcome State Fault Refusal :=
  match s.seq with
  | .idle => .next s
  | .run (.command i) _ => exec i s
  | .run (.illegal _) _ => .next s.rejectWord

/-- One step. The host's actions come one at a time, each complete before the next (R50); the sequencer has
its turn when the host pauses or has nothing more to do (R221, U7), and before any host access when what it has
accepted ends at once (R61, R170). A reset may come at any time (R211). -/
def step (s : State) : Host.Outcome State Fault Refusal :=
  match s.script with
  | [] => s.seqTurn
  | .pause :: rest => State.seqTurn { s with script := rest }
  | .read a :: rest => if s.endsAtOnce then s.seqTurn else State.hostRead { s with script := rest } a
  | .write a v :: rest =>
    if s.endsAtOnce then s.seqTurn else .next (State.hostWrite { s with script := rest } a v)
  | .reset :: rest => .next (State.resetEvent { s with script := rest })

/-- The state in which the command word made of the low `nbits` bits of `w` has just been accepted from the
host and the host pauses, so that the very next step runs it (log entry 5). -/
def State.withFetchWord (s : State) (nbits w : Nat) : State :=
  { s.accept (tableWord nbits w) with script := .pause :: s.script }

end Sys2Proof.Machine
end

