-- ==== Sys2Proof/Machine/Script.lean ====
section
/-! DEFINITION. The host-script syntax of R68: each statement as the list of host actions it stands for. -/

namespace Sys2Proof.Machine

/-- `WR <reg>, <val>`. -/
def wrReg (r : Reg) (v : Word) : List HostOp := [.write r.addr v]

/-- `WR <mem>[<i>], <val>`. -/
def wrMem (m : MemName) (i : Nat) (v : Word) : List HostOp := [.write (m.addr i) v]

/-- `RD <reg>`. -/
def rdReg (r : Reg) : List HostOp := [.read r.addr]

/-- `RD <mem>[<a>..<b>]`: words `a, a+1, ..., b`. -/
def rdMem (m : MemName) (a b : Nat) : List HostOp := (List.range (b + 1 - a)).map fun k => .read (m.addr (a + k))

/-- `<MNEMONIC>`: `WR CMD, <command word>`. -/
def issue (i : Instr) : List HostOp := wrReg .cmd (encode i)

/-- `WAIT`, with `polls` reads of `STATUS` that find the command still running (R221, U7: any number). -/
def wait (polls : Nat) : List HostOp :=
  List.replicate polls (.read Reg.status.addr) ++ [.pause, .read Reg.status.addr]

/-- `LDR <mem>[<base>]: ...`. -/
def ldr (m : MemName) (base : Nat) (vs : List Word) : List HostOp :=
  vs.mapIdx fun k v => .write (m.addr (base + k)) v

/-- `LDX <base>: (<re>, <im>), ...`. -/
def ldx (base : Nat) (vs : List Cpx) : List HostOp :=
  (vs.mapIdx fun k v => [HostOp.write (MemName.xr.addr (base + k)) v.re, .write (MemName.xi.addr (base + k)) v.im]).flatten

end Sys2Proof.Machine
end

