-- ==== Sys2Proof/Safety.lean ====
section
/-! DEFINITION. The terms in which claims are made: the legal values of `STATUS` and the invariant of the
machine; what a correct host owes the block (R49, R212, R214); the real value of a binary32 pattern and
correct rounding (R81); and the loops of R118 and R120 taken one butterfly, one exchange at a time. -/

namespace Sys2Proof.Machine

/-! ### The invariant -/

/-- The legal values of the fields of `STATUS` (R12, R29, R181, R189). -/
abbrev Status.legal (st : Status) : Prop :=
  ¬ (st.busy = true ∧ st.done = true) ∧
    (st.err = true → st.done = true) ∧
    (st.err = false → st.errCode = 0) ∧
    (st.err = true → st.errCode = 1 ∨ st.errCode = 2 ∨ st.errCode = 3 ∨ st.errCode = 4) ∧
    (st.hz = true → st.busy = true ∨ st.done = true)

/-- Whether a word address lies inside the depth of one of the four memories (R41). -/
def memMapped (p : Params) (A : Nat) : Bool :=
  [MemName.xr, .xi, .win, .coef].any fun m => decide (m.wordAddr 0 ≤ A ∧ A < m.wordAddr 0 + m.depth p)

/-- The invariant of the machine: `STATUS` is legal (R12); `SEQ` is in phase `RUN` exactly when `BUSY = 1`
(R28); a command disturbed by the host has `HZ` set (R214); memory is in its canonical form and holds values
at mapped words only (R41). -/
abbrev State.Inv (s : State) : Prop :=
  s.status.legal ∧ (s.status.busy = true ↔ s.seq ≠ .idle) ∧ (s.disturbed = true → s.status.hz = true) ∧
    s.mem.wf ∧ ∀ c ∈ s.mem, memMapped s.params (c.1 / 4) = true

/-! ### What a correct host owes the block -/

/-- Words `0` to `n-1` of a memory hold values. -/
abbrev State.holds (s : State) (m : MemName) (n : Nat) : Prop := ∀ i < n, (s.wordAt m i).isSome = true

/-- What must hold values before a command is started (R212): its operand sequences, unless it ends in an
error before it reads them (R183). -/
def State.ready (s : State) : Instr → Prop
  | .clr => True
  | .fft => s.transformError = none → s.holds .xr s.seqLen
  | .ifft => s.transformError = none → s.holds .xr s.seqLen ∧ s.holds .xi s.seqLen
  | .hann => True
  | .firlpf => s.firError = none → s.holds .win s.taps
  | .iirlpf => True

/-- The command the sequencer is running, if any, has what it needs (R212). -/
def State.seqReady (s : State) : Prop :=
  match s.seq with
  | .run (.command i) _ => s.ready i
  | _ => True

/-- An access of the host that the spec defines: any read of `STATUS`; otherwise only while `BUSY = 0` (R214),
to a mapped address (R49), and a read only of a word that holds a value (R27). -/
def State.defined (s : State) : HostOp → Prop
  | .read a => a = Reg.status.addr ∨
      (s.status.busy = false ∧ HostOp.wf s.params (.read a) = true ∧
        ∀ m i, s.target a = .word m i → (s.wordAt m i).isSome = true)
  | .write a v => s.status.busy = false ∧ HostOp.wf s.params (.write a v) = true
  | .pause => s.seqReady
  | .reset => True

/-- The next step meets what the host owes. An access that comes while what ends at once is pending waits for
it (R61, R170) and owes nothing yet: DEDUCED, log entry 15; R214 does not define it. -/
def State.hostCorrect (s : State) : Prop :=
  match s.script with
  | [] => s.seqReady
  | op :: _ => s.endsAtOnce = true ∨ s.defined op

/-! ### Real values and rounding (R80, R81) -/

/-- The real value of a finite pattern (R80). -/
def realValue (a : F32) : ℚ := (scaledValue a : ℚ) / 2 ^ 149

/-- `r` is the binary32 value nearest `x`, ties to an even fraction, or the infinity of the sign of `x` when
the rounded magnitude would reach `2^128`, that is from `2^128 - 2^103` on (R81). -/
def IsNearest (x : ℚ) (r : F32) : Prop :=
  if |x| < 2 ^ 128 - 2 ^ 103 then
    isFinite r = true ∧ ∀ v, isFinite v = true →
      |x - realValue r| ≤ |x - realValue v| ∧
        (|x - realValue r| = |x - realValue v| → realValue v ≠ realValue r → ffrac r % 2 = 0)
  else r = finf (decide (x < 0))

/-- The same for a real number `x` (R81, R93). -/
def IsNearestReal (x : ℝ) (r : F32) : Prop :=
  if |x| < 2 ^ 128 - 2 ^ 103 then
    isFinite r = true ∧ ∀ v, isFinite v = true →
      |x - (realValue r : ℝ)| ≤ |x - (realValue v : ℝ)| ∧
        (|x - (realValue r : ℝ)| = |x - (realValue v : ℝ)| → realValue v ≠ realValue r → ffrac r % 2 = 0)
  else (0 ≤ x → r = finf false) ∧ (x < 0 → r = finf true)

/-- The reference instance `REF_CR` of R93: at nonzero finite arguments the correctly rounded values of the
real functions. (At the zeros and at infinities and NaNs every unit of the model is as R92 fixes it.) The
model assumes it of no unit; the spec's vectors labelled `REF_CR` hold under it only. -/
def IsRefCR (T : Trig) : Prop :=
  ∀ x : F32, isFinite x = true → isZero x = false →
    IsNearestReal (Real.cos (realValue x)) (T.cosRaw x) ∧ IsNearestReal (Real.sin (realValue x)) (T.sinRaw x) ∧
      IsNearestReal (Real.tan (realValue x)) (T.tanRaw x)

/-- A quiet NaN: `E = 255`, bit 22 = 1 (R86). -/
def isQuietNaN (a : F32) : Bool := fexp a == 255 && a.getLsbD 22

/-! ### The loops, one element at a time -/

/-- One butterfly of R120 in place on a sequence given by its elements: both inputs are read, then both
positions written (R117). -/
def Plan.bflyInPlace (P : Plan) (s : Nat) (X : Nat → Cpx) (ij : Nat × Nat) : Nat → Cpx := fun p =>
  if p = 2 * P.half s * ij.1 + ij.2 then
    (bfly ⟨P.epoch, s, 2 * P.half s * ij.1 + ij.2, 0⟩ (X (2 * P.half s * ij.1 + ij.2))
      (X (2 * P.half s * ij.1 + ij.2 + P.half s)) (decide (s < P.limit))
      (twiddle P.trig ⟨P.epoch, s, 2 * P.half s * ij.1 + ij.2, 0⟩ P.dir (2 ^ (s - 1) * ij.2) P.n)).1
  else if p = 2 * P.half s * ij.1 + ij.2 + P.half s then
    (bfly ⟨P.epoch, s, 2 * P.half s * ij.1 + ij.2, 0⟩ (X (2 * P.half s * ij.1 + ij.2))
      (X (2 * P.half s * ij.1 + ij.2 + P.half s)) (decide (s < P.limit))
      (twiddle P.trig ⟨P.epoch, s, 2 * P.half s * ij.1 + ij.2, 0⟩ P.dir (2 ^ (s - 1) * ij.2) P.n)).2
  else X p

/-- The butterflies `(i, j)` of stage `s`, group by group (R112). -/
def Plan.butterflies (P : Plan) (s : Nat) : List (Nat × Nat) :=
  (List.range (2 ^ (s - 1))).flatMap fun i => (List.range (P.half s)).map fun j => (i, j)

/-- The exchange of R118 at index `i`. -/
def Plan.exchange (P : Plan) (X : Nat → Cpx) (i : Nat) : Nat → Cpx :=
  if i < bitrev i P.limit then fun p =>
    if p = i then X (bitrev i P.limit) else if p = bitrev i P.limit then X i else X p
  else X

/-- The loop nest of R120 and R121 between the zeroing and the scaling: stages `1` to `limit` in order, the
butterflies of each one after the other, then the exchanges for `i = 0, 1, ..., n-1`. -/
def Plan.loops (P : Plan) (X : Nat → Cpx) : Nat → Cpx :=
  (List.range P.n).foldl P.exchange
    ((List.range P.limit).foldl (fun Y t => (P.butterflies (t + 1)).foldl (P.bflyInPlace (t + 1)) Y) X)

/-- The elements of a sequence, zeros beyond its end. -/
def elements (xs : List Cpx) : Nat → Cpx := fun p => xs.getD p .zero

end Sys2Proof.Machine
end

