-- ==== Sys2Proof/Certificates/Slice0/Obligations.lean ====
section
/-! DEFINITION. The statements for the provers. Each is a closed proposition; its docstring names the rule of
spec/ it formalises, or says what of it is the model's own. -/

open Sys2Proof Sys2Proof.Machine

/-! ### Encoding -/

/-- R62: each of the six commands is the decoding of its command word and of no other word. -/
def Obligations.DecoderAcceptsExactlySixWords : Prop :=
  ∀ w : Word,
    (decode w = .command .clr ↔ w = 0x00000000) ∧ (decode w = .command .fft ↔ w = 0x00000001) ∧
    (decode w = .command .ifft ↔ w = 0x00000002) ∧ (decode w = .command .hann ↔ w = 0x00000003) ∧
    (decode w = .command .firlpf ↔ w = 0x00000004) ∧ (decode w = .command .iirlpf ↔ w = 0x00000005)

/-- R60 to R62, R65: a word is the encoding of exactly one command, or it is illegal: by its reserved field if
that is not zero, by its opcode if the field is zero and the opcode is `0x06` or above. -/
def Obligations.EveryWordIsOneCommandOrIllegal : Prop :=
  ∀ w : Word,
    (∃ i, w = encode i ∧ decode w = .command i ∧ ∀ j, w = encode j → j = i) ∨
    (w.extractLsb' 8 24 ≠ 0 ∧ decode w = .illegal .reservedField ∧ ∀ j, w ≠ encode j) ∨
    (w.extractLsb' 8 24 = 0 ∧ 6 ≤ (w.extractLsb' 0 8).toNat ∧ decode w = .illegal .reservedOpcode ∧
      ∀ j, w ≠ encode j)

/-- R60, R62: decoding the encoding of a well-formed command gives that command. -/
def Obligations.DecodeOfEncode : Prop := ∀ i : Instr, i.wf = true → decode (encode i) = .command i

/-- R10, R40, R41, R49: what every host address names. In region 0 offsets `0x00` to `0x0F` are the registers
in the order of R10; regions 1 to 4 are the words of `XR`, `XI`, `WIN`, `COEF` inside their depths; everything
else is unmapped. -/
def Obligations.AddressMap : Prop :=
  ∀ (s : State) (region : BitVec 4) (index : BitVec 24),
    s.target (region ++ index) =
      if region = 0 then
        (if index.toNat ≤ 0xF then
          .reg ([Reg.cmd, .status, .len, .num, .fc, .qf, .wlen, .clen, .a0, .a1, .a2, .b0, .b1, .b2, .id,
            .cap].getD index.toNat .cmd)
        else .unmapped)
      else if region = 1 then (if index.toNat < 2 ^ s.params.logNMax.val then .word .xr index.toNat else .unmapped)
      else if region = 2 then (if index.toNat < 2 ^ s.params.logNMax.val then .word .xi index.toNat else .unmapped)
      else if region = 3 then (if index.toNat < s.params.wmax then .word .win index.toNat else .unmapped)
      else if region = 4 then (if index.toNat < s.params.wmax then .word .coef index.toNat else .unmapped)
      else .unmapped

/-! ### Numerics -/

/-- R81: each primitive, on finite operands (for the quotient, a nonzero divisor), is the correctly rounded
value of the exact result; `fsub(a, b)` is `fadd(a, fneg(b))` for all operands that are no NaN. The rounding
depends on nothing else: the statement holds for every site. -/
def Obligations.PrimitivesRoundCorrectly : Prop :=
  ∀ (k : Site) (a b : F32),
    (isFinite a = true → isFinite b = true →
      IsNearest (realValue a + realValue b) (fadd k a b) ∧
      IsNearest (realValue a - realValue b) (fsub k a b) ∧
      IsNearest (realValue a * realValue b) (fmul k a b) ∧
      (isZero b = false → IsNearest (realValue a / realValue b) (fdiv k a b))) ∧
    (isNaN a = false → isNaN b = false → fsub k a b = fadd k a (fneg b))

/-- R89: `fneg` inverts bit 31 and leaves every other bit, for every pattern. -/
def Obligations.NegationInvertsOnlyBit31 : Prop :=
  ∀ a : F32, (fneg a).getLsbD 31 = !a.getLsbD 31 ∧ ∀ i < 31, (fneg a).getLsbD i = a.getLsbD i

/-- R84: infinities and division by zero. -/
def Obligations.InfinitiesAndDivisionByZero : Prop :=
  ∀ (k : Site) (a b : F32),
    (isNaN a = false → isZero a = false → isZero b = true → fdiv k a b = finf (fsign a ^^ fsign b)) ∧
    (isFinite a = true → isInf b = true → fdiv k a b = fzero (fsign a ^^ fsign b)) ∧
    (∀ neg, isNaN b = false → b ≠ finf (!neg) → fadd k (finf neg) b = finf neg) ∧
    (∀ neg, isNaN a = false → a ≠ finf (!neg) → fadd k a (finf neg) = finf neg) ∧
    (isInf a = true → isNaN b = false → isZero b = false → fmul k a b = finf (fsign a ^^ fsign b)) ∧
    (isNaN a = false → isZero a = false → isInf b = true → fmul k a b = finf (fsign a ^^ fsign b))

/-- R85, R86: every invalid operation, and every operation with a NaN operand, returns some quiet NaN. -/
def Obligations.InvalidOperationsGiveQuietNaN : Prop :=
  ∀ (k : Site) (a b : F32),
    (isNaN a = true ∨ isNaN b = true →
      isQuietNaN (fadd k a b) = true ∧ isQuietNaN (fsub k a b) = true ∧
      isQuietNaN (fmul k a b) = true ∧ isQuietNaN (fdiv k a b) = true) ∧
    (isInf a = true → isInf b = true → fsign a ≠ fsign b → isQuietNaN (fadd k a b) = true) ∧
    (isInf a = true → isInf b = true → fsign a = fsign b → isQuietNaN (fsub k a b) = true) ∧
    (isZero a = true → isInf b = true → isQuietNaN (fmul k a b) = true) ∧
    (isInf a = true → isZero b = true → isQuietNaN (fmul k a b) = true) ∧
    (isZero a = true → isZero b = true → isQuietNaN (fdiv k a b) = true) ∧
    (isInf a = true → isInf b = true → isQuietNaN (fdiv k a b) = true)

/-- R88: signed zeros. -/
def Obligations.SignedZeros : Prop :=
  (∀ (k : Site) (a b : F32),
    (isFinite a = true → isFinite b = true → scaledValue a + scaledValue b = 0 →
      fadd k a b = if a = 0x80000000 ∧ b = 0x80000000 then 0x80000000 else 0x00000000) ∧
    (isFinite a = true → isFinite b = true → scaledValue a - scaledValue b = 0 →
      fsub k a b = if a = 0x80000000 ∧ b = 0x00000000 then 0x80000000 else 0x00000000) ∧
    (isZero (fmul k a b) = true → fmul k a b = fzero (fsign a ^^ fsign b)) ∧
    (isZero (fdiv k a b) = true → fdiv k a b = fzero (fsign a ^^ fsign b)) ∧
    (isFinite a = true → isFinite b = true → (isZero a = true ∨ isZero b = true) →
      isZero (fmul k a b) = true) ∧
    (isNaN a = false → isZero a = false → isZero b = true → fadd k a b = a ∧ fsub k a b = a)) ∧
  ∀ x : F32, isZero x = true ↔ x = 0x00000000 ∨ x = 0x80000000

/-- R91: `u2f` rounds an integer to the nearest binary32 value; up to `2^24` it is exact; `u2f(0) = +0`. -/
def Obligations.IntegerConversion : Prop :=
  (∀ u : Nat, IsNearest (u : ℚ) (u2f u)) ∧
  (∀ u ≤ 2 ^ 24, isFinite (u2f u) = true ∧ realValue (u2f u) = u) ∧ u2f 0 = 0x00000000

/-- R92: the three units have the properties `TRIG_FUN`, `TRIG_ZERO`, `TRIG_RANGE`, `TRIG_NONFINITE`, whatever
the free functions they are made from. -/
def Obligations.TrigUnitsHaveTheirProperties : Prop :=
  ∀ (T : Trig) (k k' : Site),
    (∀ x, isFinite x = true → COS T k x = COS T k' x ∧ SIN T k x = SIN T k' x ∧ TAN T k x = TAN T k' x) ∧
    (COS T k 0x00000000 = 0x3F800000 ∧ COS T k 0x80000000 = 0x3F800000 ∧
      SIN T k 0x00000000 = 0x00000000 ∧ SIN T k 0x80000000 = 0x80000000 ∧
      TAN T k 0x00000000 = 0x00000000 ∧ TAN T k 0x80000000 = 0x80000000) ∧
    (∀ x, isFinite x = true →
      isFinite (COS T k x) = true ∧ |realValue (COS T k x)| ≤ 1 ∧
      isFinite (SIN T k x) = true ∧ |realValue (SIN T k x)| ≤ 1 ∧ isNaN (TAN T k x) = false) ∧
    (∀ x, isFinite x = false → isQuietNaN (COS T k x) = true ∧ isQuietNaN (SIN T k x) = true ∧
      isQuietNaN (TAN T k x) = true)

/-- The model's own reading of R92 (log entry 3): every three functions with the properties of R92 are the
units made from some free functions, so a claim about all free functions is a claim about all admissible
units, and about no others. -/
def Obligations.EveryAdmissibleUnitIsCovered : Prop :=
  ∀ (c sn tn : F32 → F32),
    (∀ x, isFinite x = true → isFinite (c x) = true ∧ |realValue (c x)| ≤ 1 ∧
      isFinite (sn x) = true ∧ |realValue (sn x)| ≤ 1 ∧ isNaN (tn x) = false) →
    (∀ x, isZero x = true → c x = 0x3F800000 ∧ sn x = x ∧ tn x = x) →
    ∀ (k : Site) (x : F32), isFinite x = true →
      COS ⟨c, sn, tn⟩ k x = c x ∧ SIN ⟨c, sn, tn⟩ k x = sn x ∧ TAN ⟨c, sn, tn⟩ k x = tn x

/-- R97: `ispow2(n)` exactly when `n = 2^k` for a natural `k`, and then the model's `log2` is that `k`. -/
def Obligations.PowerOfTwoTest : Prop :=
  (∀ n : Nat, ispow2 n = true ↔ ∃ k : Nat, n = 2 ^ k) ∧ ∀ k : Nat, Nat.log2 (2 ^ k) = k

/-- R98: `bitrev` is the sum of the reversed bits, keeps to `L` bits, is its own inverse, and is the table
built by the construction of the rule. -/
def Obligations.BitReversalOfAnIndex : Prop :=
  ∀ L i : Nat, i < 2 ^ L →
    bitrev i L = ((List.range L).map fun b => (i.testBit b).toNat * 2 ^ (L - 1 - b)).sum ∧
    bitrev i L < 2 ^ L ∧ bitrev (bitrev i L) L = i ∧
    ∀ t, 1 ≤ t → t ≤ L → i < 2 ^ (t - 1) → bitrev (2 ^ (t - 1) + i) L = bitrev i L + 2 ^ (L - t)

/-! ### The host port -/

/-- R45, R47, R27 and the reading of U3 (log entry 2): a host read of a register or of `STATUS`, or of a memory word
that holds a value, records the value and changes nothing else; a word that holds no value is a fault. (`STATUS` reads
so whatever `BUSY` is; while an accepted `CLR` or illegal word is still to end, which it does at once, the access
waits one step, the model's choice, log entry 15: `StepRunsTheAcceptedCommand`, `IllegalWordEndsWithIllegalCmd`.) -/
def Obligations.HostReadReturnsTheWord : Prop :=
  ∀ (s : State) (a : Addr) (rest : List HostOp), s.script = .read a :: rest →
    (a = 0x0000001 → (∀ b, s.seq ≠ .run (.command .clr) b) → (∀ w b, s.seq ≠ .run (.illegal w) b) →
      step s = .next { s with script := rest, record := (a, s.status.word) :: s.record }) ∧
    (s.status.busy = false → ∀ r, s.target a = .reg r →
      step s = .next { s with script := rest, record := (a, s.readReg r) :: s.record }) ∧
    (s.status.busy = false → ∀ m i, s.target a = .word m i →
      (∀ v, s.wordAt m i = some v →
        step s = .next { s with script := rest, record := (a, v) :: s.record }) ∧
      (s.wordAt m i = none → step s = .fault (.noValue (m.wordAddr i))))

/-- R46: a host write while `BUSY = 0`, to a host-writable register other than `CMD`, to a memory word, to a
read-only register or to a word of `COEF`. -/
def Obligations.HostWriteReplacesTheWord : Prop :=
  ∀ (s : State) (a : Addr) (v : Word) (rest : List HostOp), s.script = .write a v :: rest →
    s.status.busy = false →
    (s.target a = .reg .len → step s = .next { s with script := rest, len := v }) ∧
    (s.target a = .reg .num → step s = .next { s with script := rest, num := v }) ∧
    (s.target a = .reg .fc → step s = .next { s with script := rest, fc := v }) ∧
    (s.target a = .reg .qf → step s = .next { s with script := rest, qf := v }) ∧
    (s.target a = .reg .wlen → step s = .next { s with script := rest, wlen := v }) ∧
    (∀ r ∈ [Reg.status, .clen, .a0, .a1, .a2, .b0, .b1, .b2, .id, .cap], s.target a = .reg r →
      step s = .next { s with script := rest }) ∧
    (∀ i, s.target a = .word .coef i → step s = .next { s with script := rest }) ∧
    (∀ m ∈ [MemName.xr, .xi, .win], ∀ i, s.target a = .word m i →
      ∃ t, step s = .next t ∧ t = { s with script := rest, mem := t.mem } ∧ t.wordAt m i = some v ∧
        ∀ b, b / 4 ≠ m.wordAddr i → t.mem.readByte b = s.mem.readByte b)

/-- R50: a host read directly after a host write to the same writable register or memory word returns the
word written, and a read of any other memory word returns what it held. -/
def Obligations.ReadReturnsTheLatestWrite : Prop :=
  ∀ (s : State) (a : Addr) (v : Word) (rest : List HostOp), s.script = .write a v :: .read a :: rest →
    s.status.busy = false →
    (s.target a ∈ [Target.reg .len, .reg .num, .reg .fc, .reg .qf, .reg .wlen] ∨
      ∃ m ∈ [MemName.xr, .xi, .win], ∃ i, s.target a = .word m i) →
    ∃ u t, step s = .next u ∧ step u = .next t ∧ t.record = (a, v) :: s.record ∧ t.script = rest ∧ t.status = s.status ∧
      ∀ m j, j < 2 ^ 24 → s.target a ≠ .word m j → t.wordAt m j = s.wordAt m j

/-- R49: an access to an unmapped address while `BUSY = 0`: a write changes nothing; a read records some word
and changes nothing else (the counter of open values, the model's own, moves on). -/
def Obligations.UnmappedAccessChangesNothing : Prop :=
  ∀ (s : State) (a : Addr) (rest : List HostOp), s.target a = .unmapped → s.status.busy = false →
    (∀ v, s.script = .write a v :: rest → step s = .next { s with script := rest }) ∧
    (s.script = .read a :: rest →
      ∃ v, step s = .next { s with script := rest, record := (a, v) :: s.record, draws := s.draws + 1 })

/-- R214, R189: while `BUSY = 1` a read of `STATUS` is as always; any other access, to any address, sets `HZ`;
a write is otherwise ignored, a read records some word; and the sequencer remembers that its command has been
disturbed, and goes on. (Not while an accepted `CLR` or illegal word is still to end: it does so at once, R61,
R170, before any host access, the model's choice, log entry 15.) -/
def Obligations.BusyRule : Prop :=
  ∀ (s : State) (a : Addr) (rest : List HostOp), s.status.busy = true →
    (∀ b, s.seq ≠ .run (.command .clr) b) → (∀ w b, s.seq ≠ .run (.illegal w) b) →
    (s.script = .read 0x0000001 :: rest →
      step s = .next { s with script := rest, record := (0x0000001, s.status.word) :: s.record }) ∧
    (∀ v, s.script = .write a v :: rest →
      step s = .next { s with
        script := rest, status := { s.status with hz := true }, seq := s.seq.disturb }) ∧
    (s.script = .read a :: rest → a ≠ 0x0000001 →
      ∃ v, step s = .next { s with
        script := rest, status := { s.status with hz := true }, seq := s.seq.disturb,
        record := (a, v) :: s.record, draws := s.draws + 1 })

/-- R12: where the fields of `STATUS` stand in the word the host reads; every other bit is 0. -/
def Obligations.StatusWordLayout : Prop :=
  ∀ st : Status,
    st.word.getLsbD 0 = st.busy ∧ st.word.getLsbD 1 = st.done ∧ st.word.getLsbD 2 = st.err ∧
    st.word.getLsbD 3 = st.hz ∧ st.word.extractLsb' 4 4 = 0 ∧ st.word.extractLsb' 8 8 = st.errCode ∧
    st.word.extractLsb' 16 16 = 0

/-- R20, R21: the two constant registers. -/
def Obligations.IdentificationAndCapacity : Prop :=
  ∀ s : State,
    s.readReg .id = 0x46424331 ∧
    ((s.readReg .cap).extractLsb' 0 5).toNat = s.params.logNMax.val ∧
    (s.readReg .cap).extractLsb' 5 3 = 0 ∧
    ((s.readReg .cap).extractLsb' 8 24).toNat = s.params.wmax ∧
    (s.params = .suggested → s.readReg .cap = 0x0010000C)

/-! ### Acceptance, completion, errors, reset -/

/-- R173: a host write to `CMD` while `BUSY = 0`. -/
def Obligations.AcceptanceOfACommand : Prop :=
  ∀ (s : State) (w : Word) (rest : List HostOp), s.script = .write 0x0000000 w :: rest →
    s.status.busy = false →
    step s = .next { s with
      script := rest, cmd := w, seq := .run (decode w) false,
      status := { busy := true, done := false, err := false, hz := s.status.hz, errCode := 0 } }

/-- The step runs the decoded command (R61, R173, R174). When it is the sequencer's turn (the host pauses, or
has nothing more to do) and the command word it accepted decoded to `i`, the step is `exec i` with the pause
taken off the script; an accepted `CLR` has that turn before any host access, since it completes at once (R170);
`withFetchWord` puts the machine there. An idle sequencer does nothing in its turn and all state survives (R195).
Whose turn it is is the model's choice (log entries 5 and 15). -/
def Obligations.StepRunsTheAcceptedCommand : Prop :=
  ∀ (s : State) (i : Instr), i.wf = true →
    (∀ b rest, s.seq = .run (.command i) b → s.script = .pause :: rest →
      step s = exec i { s with script := rest }) ∧
    (∀ b, s.seq = .run (.command i) b → s.script = [] → step s = exec i s) ∧
    (∀ b op rest, s.seq = .run (.command .clr) b → s.status.busy = true → s.script = op :: rest →
      op ≠ .pause → op ≠ .reset → step s = exec .clr s) ∧
    (s.seq = .idle → s.script = [] → step s = .next s) ∧
    (∀ rest, s.seq = .idle → s.script = .pause :: rest → step s = .next { s with script := rest }) ∧
    (∀ w rest, decode w = .command i → s.script = .write 0x0000000 w :: .pause :: rest →
      s.status.busy = false →
      ∃ u, step s = .next u ∧ step u = exec i (State.accept { s with script := rest } w)) ∧
    step (s.withFetchWord 32 (encode i).toNat) = exec i (s.accept (encode i))

/-- R61, R65, R181: an illegal word is accepted like any other, and then ends at once with `ILLEGAL_CMD`,
whatever the host does next but a reset; `CMD` holds the word, and no other state has changed. That "at once" means
before any host access, and that a pause is the sequencer's turn, is the model's choice (log entries 15 and 5). -/
def Obligations.IllegalWordEndsWithIllegalCmd : Prop :=
  ∀ (s : State) (w : Word) (why : Illegal) (rest : List HostOp),
    s.script = .write 0x0000000 w :: rest → s.status.busy = false → decode w = .illegal why →
    rest.head? ≠ some .reset →
    ∃ u, step s = .next u ∧ u.cmd = w ∧ u.status.busy = true ∧
      step u = .next { s with
        script := if rest.head? = some .pause then rest.tail else rest, cmd := w, seq := .idle,
        status := { busy := false, done := true, err := true, hz := s.status.hz, errCode := 4 } }

/-- R170, R173, R174: `CLR` makes every field of `STATUS` 0 and changes no other register and no memory; it raises
nothing; issued by the host, it completes at once after its acceptance, whatever the host does next but a reset,
and leaves `CMD` reading 0; every other command leaves `DONE = 1`; and a step that clears `HZ` is a reset, or is
the sequencer's turn in which it runs `CLR`. That the completion comes in the very next step, before any host access,
is the model's choice, its reading of "at once" (log entry 15): R174 and R221 let the host see `BUSY = 1` first. That
a pause too is the sequencer's turn is the model's choice (log entry 5). -/
def Obligations.ClrClearsStatus : Prop :=
  (∀ (i : Instr) (s t : State), i ≠ .clr → exec i s = .next t → t.status.done = true) ∧
  (∀ s t : State, step s = .next t → s.status.hz = true → t.status.hz = false →
    s.script.head? = some .reset ∨
    ((∃ b, s.seq = .run (.command .clr) b) ∧
      step s = exec .clr { s with
        script := if s.script.head? = some .pause then s.script.tail else s.script })) ∧
  ∀ s : State,
    exec .clr s = .next { s with
      seq := .idle, status := { busy := false, done := false, err := false, hz := false, errCode := 0 } } ∧
    ∀ rest, s.script = .write 0x0000000 0x00000000 :: rest → s.status.busy = false →
      rest.head? ≠ some .reset →
      ∃ u, step s = .next u ∧ step u = .next { s with
        script := if rest.head? = some .pause then rest.tail else rest, cmd := 0, seq := .idle,
        status := { busy := false, done := false, err := false, hz := false, errCode := 0 } }

/-- R184: the error entry changes `STATUS` and the sequencer's phase only, and with `HZ = 0` the host reads
one of four words. -/
def Obligations.ErrorEntry : Prop :=
  ∀ (s : State) (e : ErrorKind),
    s.raiseError e = { s with
      seq := .idle,
      status := { busy := false, done := true, err := true, hz := s.status.hz, errCode := e.code } } ∧
    (s.status.hz = false →
      (s.raiseError .invalidLength).status.word = 0x00000106 ∧
      (s.raiseError .shapeMismatch).status.word = 0x00000206 ∧
      (s.raiseError .capacity).status.word = 0x00000306 ∧
      (s.raiseError .illegalCmd).status.word = 0x00000406)

/-- R111, R185: the errors of `FFT` and `IFFT`, in their order; nothing but `STATUS` changes; every other length
passes both checks. -/
def Obligations.TransformLengthErrors : Prop :=
  ∀ s : State, ∀ i ∈ [Instr.fft, .ifft],
    ((∀ k : Nat, s.len.toNat ≠ 2 ^ k) →
      exec i s = .next { s with
        seq := .idle,
        status := { busy := false, done := true, err := true, hz := s.status.hz, errCode := 1 } }) ∧
    ((∃ k : Nat, s.len.toNat = 2 ^ k) → s.params.nmax < s.len.toNat →
      exec i s = .next { s with
        seq := .idle,
        status := { busy := false, done := true, err := true, hz := s.status.hz, errCode := 3 } }) ∧
    ((∃ k : Nat, s.len.toNat = 2 ^ k) → s.len.toNat ≤ s.params.nmax → s.transformError = none)

/-- R140: the one error of `HANN`; every length up to the depth of the window memory passes. -/
def Obligations.HannCapacityError : Prop :=
  ∀ s : State,
    (s.params.wmax < s.len.toNat →
      exec .hann s = .next { s with
        seq := .idle,
        status := { busy := false, done := true, err := true, hz := s.status.hz, errCode := 3 } }) ∧
    (s.len.toNat ≤ s.params.wmax → s.hannError = none)

/-- R151, R185, R96: the errors of `FIRLPF`, in their order, with `NUM + 1` formed without wrap-around. -/
def Obligations.FirShapeAndCapacityErrors : Prop :=
  ∀ s : State,
    (s.wlen.toNat ≠ s.num.toNat + 1 →
      exec .firlpf s = .next { s with
        seq := .idle,
        status := { busy := false, done := true, err := true, hz := s.status.hz, errCode := 2 } }) ∧
    (s.wlen.toNat = s.num.toNat + 1 → s.params.wmax < s.num.toNat + 1 →
      exec .firlpf s = .next { s with
        seq := .idle,
        status := { busy := false, done := true, err := true, hz := s.status.hz, errCode := 3 } }) ∧
    (s.wlen.toNat = s.num.toNat + 1 → s.num.toNat + 1 ≤ s.params.wmax → s.firError = none) ∧
    (s.num = 0xFFFFFFFF → s.wlen.toNat ≠ s.num.toNat + 1)

/-- R183: a command that ends in error has changed nothing but `STATUS` (and the sequencer is idle). -/
def Obligations.ErrorsChangeNothingElse : Prop :=
  ∀ (i : Instr) (s t : State), s.status.err = false → exec i s = .next t → t.status.err = true →
    t = { s with status := t.status, seq := .idle } ∧ t.status.busy = false ∧ t.status.done = true ∧
      t.status.hz = s.status.hz ∧ (t.status.errCode = 1 ∨ t.status.errCode = 2 ∨ t.status.errCode = 3)

/-- R31: the state after reset; the parameters at their suggested defaults are the model's choice (log
entry 1). -/
def Obligations.ResetState : Prop :=
  (∀ r ∈ [Reg.cmd, .status, .len, .num, .fc, .qf, .wlen, .clen, .a0, .a1, .a2, .b0, .b1, .b2],
    State.reset.readReg r = 0x00000000) ∧
  State.reset.readReg .id = 0x46424331 ∧ State.reset.readReg .cap = 0x0010000C ∧
  State.reset.seq = .idle ∧ ∀ m i, State.reset.wordAt m i = none

/-- R210, R211: the reset event, from any state, a running command included: every register but the two
constants reads 0, the sequencer is idle, no memory word holds a value, and the parameters stay. -/
def Obligations.ResetEventAbandonsEverything : Prop :=
  ∀ (s : State) (rest : List HostOp), s.script = .reset :: rest →
    ∃ t, step s = .next t ∧
      (∀ r ∈ [Reg.cmd, .status, .len, .num, .fc, .qf, .wlen, .clen, .a0, .a1, .a2, .b0, .b1, .b2],
        t.readReg r = 0x00000000) ∧
      t.readReg .id = s.readReg .id ∧ t.readReg .cap = s.readReg .cap ∧ t.params = s.params ∧
      t.seq = .idle ∧ (∀ m i, t.wordAt m i = none) ∧ t.script = rest ∧ t.record = s.record

/-! ### The commands complete, with their results -/

/-- R110, R120: with a length that passes the checks and `XR[0..LEN)` holding values, `FFT` completes; `XR` and
`XI` hold what the loop nest leaves of the pairs `(XR[p], +0)` in the forward direction with `limit = log2(LEN)`
(the loops with the butterfly of `ButterflyArithmetic` and the twiddle of `TwiddleFactors`); every other register
but `STATUS`, every other byte of memory is as before. `XI` is not read: nothing is asked of it. -/
def Obligations.FftCompletes : Prop :=
  ∀ (s : State) (x : Nat → F32), ispow2 s.len.toNat = true → s.len.toNat ≤ s.params.nmax →
    (∀ p < s.len.toNat, s.wordAt .xr p = some (x p)) → s.disturbed = false →
    ∃ t, exec .fft s = .next t ∧
      t = { s with
        mem := t.mem, seq := .idle, draws := s.draws + 1,
        status := { s.status with busy := false, done := true } } ∧
      (∀ p < s.len.toNat,
        t.wordAt .xr p = some (Plan.loops ⟨Config.trig, s.draws, .forward, Nat.log2 s.len.toNat⟩
          (fun q => ⟨x q, 0x00000000⟩) p).re ∧
        t.wordAt .xi p = some (Plan.loops ⟨Config.trig, s.draws, .forward, Nat.log2 s.len.toNat⟩
          (fun q => ⟨x q, 0x00000000⟩) p).im) ∧
      ∀ b, (∀ p < s.len.toNat, b / 4 ≠ MemName.xr.wordAddr p ∧ b / 4 ≠ MemName.xi.wordAddr p) →
        t.mem.readByte b = s.mem.readByte b

/-- R110, R119, R121: the same of `IFFT`, which reads `XR[0..LEN)` and `XI[0..LEN)`, runs the loops in the
inverse direction and divides every component by `u2f(LEN)`, at some sites. -/
def Obligations.IfftCompletes : Prop :=
  ∀ (s : State) (x : Nat → Cpx), ispow2 s.len.toNat = true → s.len.toNat ≤ s.params.nmax →
    (∀ p < s.len.toNat, s.wordAt .xr p = some (x p).re ∧ s.wordAt .xi p = some (x p).im) →
    s.disturbed = false →
    ∃ t, exec .ifft s = .next t ∧
      t = { s with
        mem := t.mem, seq := .idle, draws := s.draws + 1,
        status := { s.status with busy := false, done := true } } ∧
      (∀ p < s.len.toNat, ∃ k k',
        t.wordAt .xr p = some (fdiv k (Plan.loops ⟨Config.trig, s.draws, .inverse, Nat.log2 s.len.toNat⟩
          x p).re (u2f s.len.toNat)) ∧
        t.wordAt .xi p = some (fdiv k' (Plan.loops ⟨Config.trig, s.draws, .inverse, Nat.log2 s.len.toNat⟩
          x p).im (u2f s.len.toNat))) ∧
      ∀ b, (∀ p < s.len.toNat, b / 4 ≠ MemName.xr.wordAddr p ∧ b / 4 ≠ MemName.xi.wordAddr p) →
        t.mem.readByte b = s.mem.readByte b

/-- R112, R113, R116 to R118, R120, R121: the transform of the model, one map over each stage, is the loop nest
of the pseudocode: the butterflies in place one after the other, stage after stage, and then the exchanges. -/
def Obligations.TransformIsTheLoopNest : Prop :=
  ∀ (P : Plan) (xs : List Cpx), xs.length = P.n →
    ∀ p < P.n, (P.transform xs)[p]? = some (P.loops (elements xs) p)

/-- R117, R219: the butterflies of one stage may be taken in any order; the result is the stage. -/
def Obligations.StageOrderIsFree : Prop :=
  ∀ (P : Plan) (s : Nat) (xs : List Cpx) (order : List (Nat × Nat)), 1 ≤ s → s ≤ P.limit →
    xs.length = P.n → order.Perm (P.butterflies s) →
    ∀ p < P.n, (P.stage s xs)[p]? = some (order.foldl (P.bflyInPlace s) (elements xs) p)

/-- R118: the exchanges of the bit-reversal pass, in any order, put at each position what stood at its
bit-reversed index. -/
def Obligations.ReversalOrderIsFree : Prop :=
  ∀ (P : Plan) (X : Nat → Cpx) (order : List Nat), order.Perm (List.range P.n) →
    ∀ p < P.n, order.foldl P.exchange X p = X (bitrev p P.limit)

/-- R119: `IFFT` ends by dividing every component by `n`. -/
def Obligations.IfftScalesTheTransform : Prop :=
  ∀ (T : Trig) (e : Nat) (xs : List Cpx), ispow2 xs.length = true →
    ∀ p < xs.length, ∃ c k k',
      (Plan.transform ⟨T, e, .inverse, Nat.log2 xs.length⟩ xs)[p]? = some c ∧
      (ifftSeq T e xs)[p]? = some ⟨fdiv k c.re (u2f xs.length), fdiv k' c.im (u2f xs.length)⟩

/-- R114, R122: the twiddle factor is `(COS θ, -SIN θ)` forward and `(COS θ, SIN θ)` inverse, with `θ = (2π·r)/n`
the same in every stage; for `r = 0` it is `(1.0, -0)` forward and `(1.0, +0)` inverse. -/
def Obligations.TwiddleFactors : Prop :=
  ∀ (T : Trig) (k : Site) (r n : Nat), 1 ≤ n → n ≤ 2 ^ 24 → r < n →
    (∃ k1 k2 k3 k4,
      twiddle T k .forward r n =
        ⟨COS T k3 (fdiv k2 (fmul k1 0x40C90FDB (u2f r)) (u2f n)),
          fneg (SIN T k4 (fdiv k2 (fmul k1 0x40C90FDB (u2f r)) (u2f n)))⟩ ∧
      twiddle T k .inverse r n =
        ⟨COS T k3 (fdiv k2 (fmul k1 0x40C90FDB (u2f r)) (u2f n)),
          SIN T k4 (fdiv k2 (fmul k1 0x40C90FDB (u2f r)) (u2f n))⟩) ∧
    twiddle T k .forward 0 n = ⟨0x3F800000, 0x80000000⟩ ∧ twiddle T k .inverse 0 n = ⟨0x3F800000, 0x00000000⟩

/-- R124 (b): the `FFT` of an impulse leaves exactly `(1.0, +0)` at every position, for every length and for
all admissible `COS` and `SIN`. -/
def Obligations.ImpulseResponseIsFlat : Prop :=
  ∀ s : State, ispow2 s.len.toNat = true → s.len.toNat ≤ s.params.nmax →
    (∀ p < s.len.toNat, s.wordAt .xr p = some (if p = 0 then 0x3F800000 else 0x00000000)) →
    s.disturbed = false →
    ∃ t, exec .fft s = .next t ∧
      ∀ p < s.len.toNat, t.wordAt .xr p = some 0x3F800000 ∧ t.wordAt .xi p = some 0x00000000

/-- R122 (b): what a transform leaves depends on `LEN` and the input words alone: two states that agree on
them, and on the draws of open values, get the same result words. -/
def Obligations.TransformDependsOnItsInputAlone : Prop :=
  ∀ i ∈ [Instr.fft, .ifft], ∀ s s' t t' : State,
    s.transformError = none → s'.transformError = none → s.len = s'.len → s.draws = s'.draws →
    s.disturbed = false → s'.disturbed = false →
    (∀ p < s.len.toNat, s.wordAt .xr p = s'.wordAt .xr p) →
    (i = .ifft → ∀ p < s.len.toNat, s.wordAt .xi p = s'.wordAt .xi p) →
    exec i s = .next t → exec i s' = .next t' →
    ∀ p < s.len.toNat, t.wordAt .xr p = t'.wordAt .xr p ∧ t.wordAt .xi p = t'.wordAt .xi p

/-- R90, R141 to R143 (the constants as their patterns): with `LEN` within the window memory (0 included, any length,
a power of two or not), `HANN` completes; each weight is the formula of R142 in its order of operations, for some
draws; `WLEN` is `LEN`; every other register but `STATUS` and every other byte of memory is as before. -/
def Obligations.HannCompletes : Prop :=
  ∀ s : State, s.len.toNat ≤ s.params.wmax → s.disturbed = false →
    ∃ t, exec .hann s = .next t ∧
      t = { s with
        mem := t.mem, wlen := s.len, seq := .idle, draws := s.draws + 1,
        status := { s.status with busy := false, done := true } } ∧
      (∀ i < s.len.toNat, ∃ k : Nat → Site,
        t.wordAt .win i = some (fsub (k 5) 0x3F000000 (fmul (k 4) 0x3F000000 (COS Config.trig (k 3)
          (fdiv (k 2) (fmul (k 1) 0x40C90FDB (if i % 2 = 0 then u2f i else fadd (k 0) (u2f i) 0x3F000000))
            (u2f s.len.toNat)))))) ∧
      ∀ b, (∀ i < s.len.toNat, b / 4 ≠ MemName.win.wordAddr i) → t.mem.readByte b = s.mem.readByte b

/-- R145: the first weight of every window is exactly `+0`. -/
def Obligations.FirstHannWeightIsZero : Prop :=
  ∀ s : State, 1 ≤ s.len.toNat → s.len.toNat ≤ s.params.wmax → s.disturbed = false →
    ∃ t, exec .hann s = .next t ∧ t.wordAt .win 0 = some 0x00000000

/-- R90, R152 to R154 (the constants as their patterns): with `WLEN = NUM + 1` within the memories and `WIN[0..=NUM]`
holding values, `FIRLPF` completes; each coefficient is the formula of R153 in its order of operations, for some
draws; `CLEN` is `NUM + 1`; every other register but `STATUS` and every other byte of memory is as before. -/
def Obligations.FirlpfCompletes : Prop :=
  ∀ (s : State) (w : Nat → F32), s.wlen.toNat = s.num.toNat + 1 → s.num.toNat + 1 ≤ s.params.wmax →
    (∀ i ≤ s.num.toNat, s.wordAt .win i = some (w i)) → s.disturbed = false →
    ∃ t, exec .firlpf s = .next t ∧
      t = { s with
        mem := t.mem, clen := t.clen, seq := .idle, draws := s.draws + 1,
        status := { s.status with busy := false, done := true } } ∧
      t.clen.toNat = s.num.toNat + 1 ∧
      (∀ i ≤ s.num.toNat, ∃ (k : Nat → Site) (x : F32),
        x = fmul (k 2) (fmul (k 0) 0x40C90FDB s.fc) (fsub (k 1) (u2f i) (u2f (s.num.toNat / 2))) ∧
        t.wordAt .coef i = some (fmul (k 7) (fmul (k 6) (fmul (k 3) 0x40000000 s.fc)
          (if x = 0x00000000 ∨ x = 0x80000000 then 0x3F800000 else fdiv (k 5) (SIN Config.trig (k 4) x) x)) (w i))) ∧
      ∀ b, (∀ i ≤ s.num.toNat, b / 4 ≠ MemName.coef.wordAddr i) → t.mem.readByte b = s.mem.readByte b

/-- R156, the centre tap: where `2π·FC` is finite, coefficient `NUM/2` is `(2·FC)·WIN[NUM/2]`, for all admissible
`SIN`. (The rule says "every finite fc" of a finite `g`; for a finite `FC` above `2^128/2π` the product `g`
overflows and the coefficient is a NaN by R153.) -/
def Obligations.FirCentreTap : Prop :=
  ∀ (s : State) (w : Nat → F32), s.wlen.toNat = s.num.toNat + 1 → s.num.toNat + 1 ≤ s.params.wmax →
    (∀ i ≤ s.num.toNat, s.wordAt .win i = some (w i)) → s.disturbed = false →
    (∀ k, isFinite (fmul k 0x40C90FDB s.fc) = true) →
    ∃ t k k', exec .firlpf s = .next t ∧
      t.wordAt .coef (s.num.toNat / 2) = some (fmul k (fmul k' 0x40000000 s.fc) (w (s.num.toNat / 2)))

/-- R90, R160, R162, R163, R174: `IIRLPF` completes on every operand; the six registers are the formulas of R162 in
their order of operations (the constants as their patterns), for some draws; nothing else but `STATUS` changes,
and the model's own counter (log entry 14). -/
def Obligations.IirlpfCompletes : Prop :=
  ∀ s : State, s.disturbed = false →
    ∃ (k : Nat → Site) (df temp g denom : F32),
      df = fdiv (k 1) (TAN Config.trig (k 2) (fmul (k 0) 0x40490FDB s.fc)) 0x40C90FDB ∧
      temp = fmul (k 4) 0x421DE9E6 (fmul (k 3) df df) ∧
      g = fdiv (k 6) (fmul (k 5) 0x40C90FDB df) s.qf ∧
      denom = fadd (k 8) (fadd (k 7) 0x3F800000 g) temp ∧
      exec .iirlpf s = .next { s with
        a0 := 0x3F800000, a1 := fdiv (k 11) (fsub (k 10) (fmul (k 9) 0x40000000 temp) 0x40000000) denom,
        a2 := fadd (k 14) (fsub (k 12) 0x3F800000 g) (fdiv (k 13) temp denom), b0 := fdiv (k 15) temp denom,
        b1 := fdiv (k 17) (fmul (k 16) 0x40000000 temp) denom, b2 := fdiv (k 15) temp denom, seq := .idle,
        draws := s.draws + 1, status := { s.status with busy := false, done := true } }

/-- R164. For all operands `A0` is 1.0 and `B2` has the bits of `B0`, a NaN included. With `Q` a NaN, or `FC` a
NaN or an infinity, or `FC = +0` with `Q` a zero, the other four results are quiet NaNs (and `B2` with `B0`). With
`FC = +0` and any other `Q` they are -2.0, 1.0, +0, +0. With `Q = +0`, a positive `df` and `2·temp` finite, for all
units: `a1` is a zero, `a2` is the negative infinity, `b0`, `b1`, `b2` are `+0` (the rule calls the numerator
`2·temp - 2` finite; for a `df` so large that it overflows, R162 gives a NaN: log entry 16). The last clause says
what the command's results have to do with `iirSeq`. -/
def Obligations.IirlpfCornerCases : Prop :=
  (∀ s t : State, s.disturbed = false → exec .iirlpf s = .next t →
    t.a0 = 0x3F800000 ∧ t.b2 = t.b0 ∧
    (isNaN s.qf = true ∨ isFinite s.fc = false ∨ (s.fc = 0x00000000 ∧ isZero s.qf = true) →
      ∀ r ∈ [t.a1, t.a2, t.b0, t.b1, t.b2], isQuietNaN r = true) ∧
    (s.fc = 0x00000000 → isNaN s.qf = false → isZero s.qf = false →
      t.a1 = 0xC0000000 ∧ t.a2 = 0x3F800000 ∧ t.b0 = 0x00000000 ∧ t.b1 = 0x00000000) ∧
    iirSeq Config.trig s.draws s.fc s.qf = ⟨t.a0, t.a1, t.a2, t.b0, t.b1, t.b2⟩) ∧
  ∀ (T : Trig) (e : Nat) (fc df : F32) (k : Nat → Site),
    df = fdiv (k 2) (TAN T (k 1) (fmul (k 0) 0x40490FDB fc)) 0x40C90FDB →
    isNaN df = false → isZero df = false → fsign df = false →
    isFinite (fmul (k 5) 0x40000000 (fmul (k 4) 0x421DE9E6 (fmul (k 3) df df))) = true →
    (iirSeq T e fc 0x00000000).a0 = 0x3F800000 ∧ isZero (iirSeq T e fc 0x00000000).a1 = true ∧
      (iirSeq T e fc 0x00000000).a2 = 0xFF800000 ∧ (iirSeq T e fc 0x00000000).b0 = 0x00000000 ∧
      (iirSeq T e fc 0x00000000).b1 = 0x00000000 ∧ (iirSeq T e fc 0x00000000).b2 = 0x00000000

/-- R27, R216 and the reading of U3 (log entry 2): a command that needs a word holding no value stops with a
fault that names the first such word. -/
def Obligations.UnwrittenOperandIsAFault : Prop :=
  ∀ (s : State) (p : Nat),
    (s.transformError = none → p < s.len.toNat → s.wordAt .xr p = none →
      (∀ q < p, s.wordAt .xr q ≠ none) →
      exec .fft s = .fault (.noValue (MemName.xr.wordAddr p)) ∧
      exec .ifft s = .fault (.noValue (MemName.xr.wordAddr p))) ∧
    (s.transformError = none → p < s.len.toNat → s.holds .xr s.len.toNat → s.wordAt .xi p = none →
      (∀ q < p, s.wordAt .xi q ≠ none) →
      exec .ifft s = .fault (.noValue (MemName.xi.wordAddr p))) ∧
    (s.firError = none → p ≤ s.num.toNat → s.wordAt .win p = none → (∀ q < p, s.wordAt .win q ≠ none) →
      exec .firlpf s = .fault (.noValue (MemName.win.wordAddr p)))

/-- R214, U4 (log entry 4): a disturbed command completes as always, with its results open words. -/
def Obligations.DisturbedResultsAreOpen : Prop :=
  ∀ s : State, s.disturbed = true →
    (∀ i ∈ [Instr.fft, .ifft], s.transformError = none → s.ready i →
      ∃ t, exec i s = .next t ∧ t.status = { s.status with busy := false, done := true } ∧
        ∀ p < s.len.toNat, t.wordAt .xr p = some (Config.freeWord ⟨s.draws, 1, p, 0⟩) ∧
          t.wordAt .xi p = some (Config.freeWord ⟨s.draws, 2, p, 0⟩)) ∧
    (s.hannError = none →
      ∃ t, exec .hann s = .next t ∧ t.status = { s.status with busy := false, done := true } ∧
        t.wlen = Config.freeWord ⟨s.draws, 0, 6, 0⟩ ∧
        ∀ p < s.len.toNat, t.wordAt .win p = some (Config.freeWord ⟨s.draws, 3, p, 0⟩)) ∧
    (s.firError = none → s.ready .firlpf →
      ∃ t, exec .firlpf s = .next t ∧ t.status = { s.status with busy := false, done := true } ∧
        t.clen = Config.freeWord ⟨s.draws, 0, 7, 0⟩ ∧
        ∀ p ≤ s.num.toNat, t.wordAt .coef p = some (Config.freeWord ⟨s.draws, 4, p, 0⟩)) ∧
    (∃ t, exec .iirlpf s = .next t ∧ t.status = { s.status with busy := false, done := true } ∧
      t.a0 = Config.freeWord ⟨s.draws, 0, 8, 0⟩ ∧ t.a1 = Config.freeWord ⟨s.draws, 0, 9, 0⟩ ∧
      t.a2 = Config.freeWord ⟨s.draws, 0, 10, 0⟩ ∧ t.b0 = Config.freeWord ⟨s.draws, 0, 11, 0⟩ ∧
      t.b1 = Config.freeWord ⟨s.draws, 0, 12, 0⟩ ∧ t.b2 = Config.freeWord ⟨s.draws, 0, 13, 0⟩)

/-! ### Frames -/

/-- R63, R110, R120, R121: `FFT` and `IFFT`, whenever they give a next state (an error included), change no
register but `STATUS`, and no byte of memory outside `XR[0..LEN)` and `XI[0..LEN)`. That this holds of a disturbed
run too is the model's choice (log entry 4): there R189 and R214 leave the memories the command writes open. -/
def Obligations.TransformFrame : Prop :=
  ∀ i ∈ [Instr.fft, .ifft], ∀ s t : State, exec i s = .next t →
    t = { s with mem := t.mem, status := t.status, seq := .idle, draws := t.draws } ∧
    ∀ b, (∀ p < s.len.toNat, b / 4 ≠ MemName.xr.wordAddr p ∧ b / 4 ≠ MemName.xi.wordAddr p) →
      t.mem.readByte b = s.mem.readByte b

/-- R63, R143: `HANN` changes no register but `WLEN` and `STATUS`, and no byte outside `WIN[0..LEN)`.
That this holds of a disturbed run too is the model's choice (log entry 4): there R189 and R214 leave `WIN` open. -/
def Obligations.HannFrame : Prop :=
  ∀ s t : State, exec .hann s = .next t →
    t = { s with mem := t.mem, wlen := t.wlen, status := t.status, seq := .idle, draws := t.draws } ∧
    ∀ b, (∀ i < s.len.toNat, b / 4 ≠ MemName.win.wordAddr i) → t.mem.readByte b = s.mem.readByte b

/-- R63, R154: `FIRLPF` changes no register but `CLEN` and `STATUS`, and no byte outside
`COEF[0..=NUM]`. That this holds of a disturbed run too is the model's choice (log entry 4): there R189 and R214
leave `COEF` open. -/
def Obligations.FirlpfFrame : Prop :=
  ∀ s t : State, exec .firlpf s = .next t →
    t = { s with mem := t.mem, clen := t.clen, status := t.status, seq := .idle, draws := t.draws } ∧
    ∀ b, (∀ i ≤ s.num.toNat, b / 4 ≠ MemName.coef.wordAddr i) → t.mem.readByte b = s.mem.readByte b

/-- R63, R163: `IIRLPF` changes no register but `A0` to `B2` and `STATUS`, and no byte of memory. That memory is
kept in a disturbed run too is the model's choice under the wider reading of R189 (log entry 4). -/
def Obligations.IirlpfFrame : Prop :=
  ∀ s t : State, exec .iirlpf s = .next t →
    t = { s with
      a0 := t.a0, a1 := t.a1, a2 := t.a2, b0 := t.b0, b1 := t.b1, b2 := t.b2, status := t.status,
      seq := .idle, draws := t.draws } ∧
    ∀ b, t.mem.readByte b = s.mem.readByte b

/-! ### The machine as a whole -/

/-- The invariant of R12, R28, R41 holds after reset. -/
def Obligations.InvariantHoldsAtReset : Prop := State.reset.Inv

/-- Every step keeps the invariant of R12, R28, R41 (and the canonical form of memory, the model's own): from
every state that has it, whatever the host does next. -/
def Obligations.StepKeepsInvariant : Prop :=
  ∀ s t : State, s.Inv → step s = .next t → t.Inv

/-- R12, R29, R181 and section 3.5 of the test vectors: the words `STATUS` can read as, in every state with the
invariant. -/
def Obligations.StatusReadsOneOfThirteenWords : Prop :=
  ∀ s : State, s.Inv →
    s.status.word ∈ [(0x00000000 : Word), 0x00000001, 0x00000002, 0x00000106, 0x00000206, 0x00000306,
      0x00000406, 0x00000009, 0x0000000A, 0x0000010E, 0x0000020E, 0x0000030E, 0x0000040E]

/-- R32: no step changes the parameters, nor what `ID` and `CAP` read as. -/
def Obligations.ParametersNeverChange : Prop :=
  ∀ s t : State, step s = .next t →
    t.params = s.params ∧ t.readReg .id = s.readReg .id ∧ t.readReg .cap = s.readReg .cap

/-- R61, R170, R189, R212, R214: if the host makes only accesses the spec defines, and starts only commands whose
operands hold values, then the next step neither stops nor sets `HZ`. The premise admits one access more, which R214
does not define: any access that comes while an accepted `CLR` or illegal word has `BUSY = 1`. That such an access
waits, so that `HZ` stays clear, is the model's choice, its reading of "at once" in R61 and R170 (log entry 15); that
the sequencer has its turn at a pause and at an empty script is the model's choice too (log entry 5). -/
def Obligations.CorrectHostIsNeverStopped : Prop :=
  ∀ s : State, s.hostCorrect → ∃ t, step s = .next t ∧ (t.status.hz = true → s.status.hz = true)

/-- R170, R174, R220: an accepted command whose operands hold values completes in the sequencer's turn: `BUSY` is 0 and
the sequencer idle; `DONE` is 1 after every command but `CLR`, and `HZ` is kept by every command but `CLR`.
Whose turn it is is the model's choice: the sequencer's at a pause and at an empty script (log entry 5), and for
`CLR`, which completes at once, whatever access comes next (log entry 15). -/
def Obligations.AcceptedCommandCompletes : Prop :=
  ∀ (s : State) (i : Instr) (b : Bool), s.seq = .run (.command i) b → s.ready i →
    (s.script = [] ∨ (∃ rest, s.script = .pause :: rest) ∨
      (i = .clr ∧ s.status.busy = true ∧ s.script.head? ≠ some .reset)) →
    ∃ t, step s = .next t ∧ t.status.busy = false ∧ t.seq = .idle ∧ t.cmd = s.cmd ∧
      (i ≠ .clr → t.status.done = true ∧ t.status.hz = s.status.hz)

/-! ### The butterfly -/

/-- R113, R115: the butterfly is a rounded sum, and a rounded difference that is multiplied by the twiddle exactly
when the flag says so; the complex product is four rounded products, a rounded difference and a rounded sum; and
butterfly `(s, i, j)` of a stage is that of the values at `m = 2h·i + j` and `m + h`, multiplied in every stage but
the last by the twiddle of exponent `2^(s-1)·j` (R112, R114). All at some sites. -/
def Obligations.ButterflyArithmetic : Prop :=
  (∀ (k : Site) (a b w : Cpx), ∃ (u : Nat → Site) (d : Cpx),
    d = ⟨fsub (u 2) a.re b.re, fsub (u 3) a.im b.im⟩ ∧
    bfly k a b false w = (⟨fadd (u 0) a.re b.re, fadd (u 1) a.im b.im⟩, d) ∧
    bfly k a b true w = (⟨fadd (u 0) a.re b.re, fadd (u 1) a.im b.im⟩,
      ⟨fsub (u 8) (fmul (u 4) d.re w.re) (fmul (u 5) d.im w.im),
        fadd (u 9) (fmul (u 6) d.im w.re) (fmul (u 7) d.re w.im)⟩)) ∧
  ∀ (P : Plan) (s i j h m : Nat) (xs : List Cpx) (a b : Cpx), 1 ≤ s → s ≤ P.limit → i < 2 ^ (s - 1) →
    h = 2 ^ (P.limit - s) → j < h → m = 2 * h * i + j → xs.length = 2 ^ P.limit →
    xs[m]? = some a → xs[m + h]? = some b →
    ∃ k k', (P.stage s xs)[m]? = some (bfly k a b (decide (s < P.limit))
        (twiddle P.trig k' P.dir (2 ^ (s - 1) * j) (2 ^ P.limit))).1 ∧
      (P.stage s xs)[m + h]? = some (bfly k a b (decide (s < P.limit))
        (twiddle P.trig k' P.dir (2 ^ (s - 1) * j) (2 ^ P.limit))).2
end

