-- ==== Sys2Proof/Laws/Decode.lean ====
section
/-! SUPPORT. The laws of the decoders: what a command word decodes to by its number, and what the addresses of
R68 name. -/

namespace Sys2Proof

/-- The reserved field and the opcode are the quotient and the remainder of the word by 256 (R60). -/
theorem toNat_fields_of_word (w : Word) :
    (rsvField w).toNat = w.toNat / 256 ∧ (opField w).toNat = w.toNat % 256 := by
  have h : w.toNat < 2 ^ 32 := w.isLt
  constructor
  · rw [rsvField, BitVec.extractLsb'_toNat, Nat.shiftRight_eq_div_pow]
    omega
  · rw [opField, BitVec.extractLsb'_toNat, Nat.shiftRight_eq_div_pow]
    omega

/-- The reserved field is zero exactly when the word is below 256. -/
theorem rsvField_eq_zero_iff (w : Word) : rsvField w = 0 ↔ w.toNat < 256 := by
  have h := (toNat_fields_of_word w).1
  constructor
  · intro h0
    rw [h0] at h
    have : w.toNat / 256 = 0 := h.symm
    omega
  · intro hw
    apply BitVec.eq_of_toNat_eq
    rw [h]
    exact Nat.div_eq_of_lt hw

/-- What a word decodes to, by its number (R61, R62, R65). -/
theorem decode_eq (w : Word) :
    decode w =
      if w.toNat < 256 then
        match w.toNat with
        | 0 => .command .clr
        | 1 => .command .fft
        | 2 => .command .ifft
        | 3 => .command .hann
        | 4 => .command .firlpf
        | 5 => .command .iirlpf
        | _ => .illegal .reservedOpcode
      else .illegal .reservedField := by
  rw [decode]
  by_cases h : w.toNat < 256
  · have h2 : (opField w).toNat = w.toNat := by rw [(toNat_fields_of_word w).2, Nat.mod_eq_of_lt h]
    rw [if_pos ((rsvField_eq_zero_iff w).2 h), if_pos h, ← h2]
    rfl
  · rw [if_neg (mt (rsvField_eq_zero_iff w).1 h), if_neg h]

/-- `addr` of a register names the register (R10, R68). -/
@[simp] theorem targetOf_regAddr (r : Reg) : targetOf r.addr = .reg r := by
  cases r <;> decide

/-- The two fields of a word address of a memory (R40, R41). -/
theorem toNat_fields_of_memAddr (m : MemName) {i : Nat} (h : i < 2 ^ 24) :
    (regionField (m.addr i)).toNat = m.region ∧ (indexField (m.addr i)).toNat = i := by
  have hr : m.region ≤ 4 := by cases m <;> decide
  have ha : (m.addr i).toNat = m.region * 2 ^ 24 + i := by
    rw [MemName.addr, MemName.wordAddr, BitVec.toNat_ofNat, Nat.mod_eq_of_lt]
    omega
  constructor
  · rw [regionField, BitVec.extractLsb'_toNat, Nat.shiftRight_eq_div_pow, ha]
    omega
  · rw [indexField, BitVec.extractLsb'_toNat, Nat.shiftRight_eq_div_pow, ha]
    omega

/-- `addr` of a memory word names the word (R41, R68). -/
theorem targetOf_memAddr (m : MemName) {i : Nat} (h : i < 2 ^ 24) : targetOf (m.addr i) = .word m i := by
  obtain ⟨hr, hi⟩ := toNat_fields_of_memAddr m h
  rw [targetOf, hr, hi]
  cases m <;> rfl

end Sys2Proof
end

