-- ==== Sys2Proof/Laws/Memory.lean ====
section
/-! SUPPORT. The laws of memory: a read after a write, what a write leaves alone, the canonical form that
every memory operation keeps, and where the words of the four memories lie. -/

namespace Sys2Proof.Machine

/-! ### Bytes -/

@[simp] theorem Memory.readByte_nil (a : Nat) : Memory.readByte [] a = none := rfl

theorem Memory.readByte_writeByte_same (m : Memory) (a : Nat) (b : Byte) :
    (m.writeByte a b).readByte a = some b := by
  induction m with
  | nil => simp [Memory.writeByte, Memory.readByte]
  | cons c m ih =>
    unfold Memory.writeByte
    split
    · simp [Memory.readByte]
    · split
      · simp [Memory.readByte]
      · rename_i h1 h2
        have : ¬ c.1 = a := fun h => h2 h.symm
        simp [Memory.readByte, this, ih]

theorem Memory.readByte_writeByte_other (m : Memory) (a a' : Nat) (b : Byte) (h : a' ≠ a) :
    (m.writeByte a b).readByte a' = m.readByte a' := by
  induction m with
  | nil => simp [Memory.writeByte, Memory.readByte, h.symm]
  | cons c m ih =>
    unfold Memory.writeByte
    split
    · simp [Memory.readByte, h.symm]
    · split
      · rename_i h1 h2
        have : ¬ c.1 = a' := fun h' => h (h'.symm.trans h2.symm)
        simp [Memory.readByte, h.symm, this]
      · simp [Memory.readByte, ih]

/-- One read of a byte after one write of a byte. -/
theorem Memory.readByte_writeByte (m : Memory) (a a' : Nat) (b : Byte) :
    (m.writeByte a b).readByte a' = if a' = a then some b else m.readByte a' := by
  split
  · rename_i h
    rw [h, readByte_writeByte_same]
  · rename_i h
    rw [readByte_writeByte_other _ _ _ _ h]

/-- The entries after a write: the written one, and old ones at other addresses. -/
theorem Memory.mem_writeByte {m : Memory} {a : Nat} {b : Byte} {c : Host.Cell}
    (h : c ∈ m.writeByte a b) : c = (a, b) ∨ c ∈ m := by
  induction m with
  | nil => simpa [Memory.writeByte] using h
  | cons d m ih =>
    unfold Memory.writeByte at h
    split at h
    · simpa using h
    · split at h
      · rcases List.mem_cons.1 h with h | h
        · exact .inl h
        · exact .inr (List.mem_cons_of_mem _ h)
      · rcases List.mem_cons.1 h with h | h
        · exact .inr (h ▸ List.mem_cons_self)
        · exact (ih h).imp_right (List.mem_cons_of_mem _)

/-- A write keeps the addresses strictly rising. -/
theorem Memory.sorted_writeByte {m : Memory} (a : Nat) (b : Byte)
    (h : m.Pairwise (fun c d => c.1 < d.1)) :
    (m.writeByte a b).Pairwise (fun c d => c.1 < d.1) := by
  induction m with
  | nil => simp [Memory.writeByte]
  | cons c m ih =>
    obtain ⟨hc, hm⟩ := List.pairwise_cons.1 h
    unfold Memory.writeByte
    split
    · rename_i h1
      refine List.pairwise_cons.2 ⟨fun d hd => ?_, h⟩
      rcases List.mem_cons.1 hd with hd | hd
      · subst hd; exact h1
      · exact Nat.lt_trans h1 (hc d hd)
    · split
      · rename_i h2
        exact List.pairwise_cons.2 ⟨fun d hd => h2 ▸ hc d hd, hm⟩
      · rename_i h1 h2
        refine List.pairwise_cons.2 ⟨fun d hd => ?_, ih hm⟩
        rcases Memory.mem_writeByte hd with hd | hd
        · subst hd
          simp only
          omega
        · exact hc d hd

/-! ### Words -/

/-- The four bytes of a word put together again. -/
theorem bytes_of_word (v : Word) : byteOf v 3 ++ byteOf v 2 ++ byteOf v 1 ++ byteOf v 0 = v := by
  apply BitVec.eq_of_getLsbD_eq
  intro i hi
  simp only [byteOf, BitVec.getLsbD_append, BitVec.getLsbD_extractLsb']
  by_cases h0 : i < 8
  · simp [h0]
  · by_cases h1 : i < 16
    · simp [h0, show i - 8 < 8 by omega, show 8 + (i - 8) = i by omega]
    · by_cases h2 : i < 24
      · simp [h0, show ¬ i - 8 < 8 by omega, show i - 8 - 8 < 8 by omega,
          show 16 + (i - 8 - 8) = i by omega]
      · simp [h0, show ¬ i - 8 < 8 by omega, show ¬ i - 8 - 8 < 8 by omega,
          show i - 8 - 8 - 8 < 8 by omega, show 24 + (i - 8 - 8 - 8) = i by omega]

/-- One read of a byte after one write of a word. -/
theorem Memory.readByte_writeWord (m : Memory) (A a : Nat) (v : Word) :
    (m.writeWord A v).readByte a = if a / 4 = A then some (byteOf v (a % 4)) else m.readByte a := by
  simp only [Memory.writeWord, Memory.readByte_writeByte]
  by_cases h : a / 4 = A
  · have h4 : a % 4 < 4 := Nat.mod_lt _ (by decide)
    have ha : a = 4 * A + a % 4 := by omega
    obtain h0 | h0 | h0 | h0 : a % 4 = 0 ∨ a % 4 = 1 ∨ a % 4 = 2 ∨ a % 4 = 3 := by omega
    all_goals
      rw [h0] at ha
      subst ha
      simp [h, h0]
  · simp [h, show a ≠ 4 * A + 3 by omega, show a ≠ 4 * A + 2 by omega, show a ≠ 4 * A + 1 by omega,
      show a ≠ 4 * A by omega]

theorem Memory.readWord_writeWord_same (m : Memory) (A : Nat) (v : Word) :
    (m.writeWord A v).readWord A = some v := by
  have h0 : 4 * A / 4 = A := by omega
  have h1 : (4 * A + 1) / 4 = A := by omega
  have h2 : (4 * A + 2) / 4 = A := by omega
  have h3 : (4 * A + 3) / 4 = A := by omega
  have m0 : 4 * A % 4 = 0 := by omega
  have m1 : (4 * A + 1) % 4 = 1 := by omega
  have m2 : (4 * A + 2) % 4 = 2 := by omega
  have m3 : (4 * A + 3) % 4 = 3 := by omega
  simp [Memory.readWord, Memory.readByte_writeWord, h0, h1, h2, h3, m0, m1, m2, m3, bytes_of_word]

theorem Memory.readWord_writeWord_other (m : Memory) (A B : Nat) (v : Word) (h : B ≠ A) :
    (m.writeWord A v).readWord B = m.readWord B := by
  have h0 : 4 * B / 4 = B := by omega
  have h1 : (4 * B + 1) / 4 = B := by omega
  have h2 : (4 * B + 2) / 4 = B := by omega
  have h3 : (4 * B + 3) / 4 = B := by omega
  simp [Memory.readWord, Memory.readByte_writeWord, h0, h1, h2, h3, h]

/-- One read of a word after one write of a word. -/
theorem Memory.readWord_writeWord (m : Memory) (A B : Nat) (v : Word) :
    (m.writeWord A v).readWord B = if B = A then some v else m.readWord B := by
  split
  · rename_i h
    rw [h, readWord_writeWord_same]
  · rename_i h
    rw [readWord_writeWord_other _ _ _ _ h]

/-- The entries after a word write: four new bytes of that word, and old ones. -/
theorem Memory.mem_writeWord {m : Memory} {A : Nat} {v : Word} {c : Host.Cell}
    (h : c ∈ m.writeWord A v) : c.1 / 4 = A ∨ c ∈ m := by
  unfold Memory.writeWord at h
  rcases Memory.mem_writeByte h with rfl | h
  · left; simp only; omega
  rcases Memory.mem_writeByte h with rfl | h
  · left; simp only; omega
  rcases Memory.mem_writeByte h with rfl | h
  · left; simp only; omega
  rcases Memory.mem_writeByte h with rfl | h
  · left; simp only; omega
  exact .inr h

/-- A word write keeps the canonical form. -/
theorem Memory.wf_writeWord {m : Memory} (A : Nat) (v : Word) (h : m.wf) : (m.writeWord A v).wf := by
  obtain ⟨hs, hw⟩ := h
  refine ⟨?_, fun c hc j hj => ?_⟩
  · exact sorted_writeByte _ _ (sorted_writeByte _ _ (sorted_writeByte _ _ (sorted_writeByte _ _ hs)))
  · rw [Memory.readByte_writeWord]
    have hd : (4 * (c.1 / 4) + j) / 4 = c.1 / 4 := by omega
    rw [hd]
    by_cases hA : c.1 / 4 = A
    · simp [hA]
    · rw [if_neg hA]
      exact hw c ((Memory.mem_writeWord hc).resolve_left hA) j hj

theorem Memory.wf_nil : Memory.wf [] := ⟨List.Pairwise.nil, fun _ hc => absurd hc List.not_mem_nil⟩

/-! ### Sequences of words -/

/-- A word after a sequence has been written from word address `A` on. -/
theorem Memory.readWord_writeWords (m : Memory) (A B : Nat) (ws : List Word) :
    (m.writeWords A ws).readWord B =
      if A ≤ B ∧ B < A + ws.length then ws[B - A]? else m.readWord B := by
  induction ws generalizing m A with
  | nil =>
    have h : ¬ (A ≤ B ∧ B < A) := by omega
    simp [Memory.writeWords, h]
  | cons w ws ih =>
    simp only [Memory.writeWords, ih, Memory.readWord_writeWord, List.length_cons]
    by_cases h : B = A
    · subst h
      have h1 : ¬ (B + 1 ≤ B ∧ B < B + 1 + ws.length) := by omega
      have h2 : B ≤ B ∧ B < B + (ws.length + 1) := by omega
      rw [if_neg h1, if_pos h2, if_pos rfl, Nat.sub_self]
      rfl
    · by_cases h1 : A + 1 ≤ B ∧ B < A + 1 + ws.length
      · have h2 : A ≤ B ∧ B < A + (ws.length + 1) := by omega
        have h3 : B - A = (B - (A + 1)) + 1 := by omega
        rw [if_pos h1, if_pos h2, h3, List.getElem?_cons_succ]
      · have h2 : ¬ (A ≤ B ∧ B < A + (ws.length + 1)) := by omega
        rw [if_neg h1, if_neg h2, if_neg h]

/-- A byte outside the words a sequence is written to reads as before. -/
theorem Memory.readByte_writeWords_other (m : Memory) (A a : Nat) (ws : List Word)
    (h : ¬ (A ≤ a / 4 ∧ a / 4 < A + ws.length)) : (m.writeWords A ws).readByte a = m.readByte a := by
  induction ws generalizing m A with
  | nil => rfl
  | cons w ws ih =>
    rw [List.length_cons] at h
    have h1 : a / 4 ≠ A := by omega
    have h2 : ¬ (A + 1 ≤ a / 4 ∧ a / 4 < A + 1 + ws.length) := by omega
    rw [Memory.writeWords, ih _ _ h2, Memory.readByte_writeWord, if_neg h1]

/-- Writing a sequence keeps the canonical form. -/
theorem Memory.wf_writeWords {m : Memory} (A : Nat) (ws : List Word) (h : m.wf) :
    (m.writeWords A ws).wf := by
  induction ws generalizing m A with
  | nil => exact h
  | cons w ws ih => exact ih _ (wf_writeWord _ _ h)

/-- The entries after a sequence has been written: bytes of its words, and old ones. -/
theorem Memory.mem_writeWords {m : Memory} {A : Nat} {ws : List Word} {c : Host.Cell}
    (h : c ∈ m.writeWords A ws) : (A ≤ c.1 / 4 ∧ c.1 / 4 < A + ws.length) ∨ c ∈ m := by
  induction ws generalizing m A with
  | nil => exact .inr h
  | cons w ws ih =>
    rw [List.length_cons]
    rcases ih h with h | h
    · left; omega
    · rcases Memory.mem_writeWord h with h | h
      · left; omega
      · exact .inr h

/-- Reading a sequence succeeds exactly when every word of it holds a value, and gives those words. -/
theorem Memory.readWords_eq_ok_iff (m : Memory) (A n : Nat) (ws : List Word) :
    m.readWords A n = .ok ws ↔ ws.length = n ∧ ∀ i < n, m.readWord (A + i) = ws[i]? := by
  induction n generalizing A ws with
  | zero =>
    constructor
    · intro h
      cases h
      exact ⟨rfl, fun i hi => absurd hi (Nat.not_lt_zero i)⟩
    · rintro ⟨h, -⟩
      rw [List.length_eq_zero_iff.1 h]
      rfl
  | succ n ih =>
    unfold Memory.readWords
    cases hw : m.readWord A with
    | none =>
      simp only [reduceCtorEq, false_iff, not_and]
      intro hl hr
      have h0 := hr 0 (by omega)
      rw [Nat.add_zero, hw, List.getElem?_eq_getElem (by omega)] at h0
      exact absurd h0 (by simp)
    | some w =>
      constructor
      · intro h
        cases hr : m.readWords (A + 1) n with
        | error e => simp [hr] at h
        | ok vs =>
          simp only [hr, Except.ok.injEq] at h
          obtain ⟨hl, hv⟩ := (ih _ _).1 hr
          subst h
          refine ⟨by simp [hl], fun i hi => ?_⟩
          cases i with
          | zero => simpa using hw
          | succ i =>
            have := hv i (by omega)
            rwa [show A + 1 + i = A + (i + 1) by omega] at this
      · rintro ⟨hl, hv⟩
        cases ws with
        | nil => simp at hl
        | cons v vs =>
          have h0 := hv 0 (by omega)
          rw [Nat.add_zero, hw] at h0
          simp only [List.getElem?_cons_zero, Option.some.injEq] at h0
          have hr : m.readWords (A + 1) n = .ok vs := by
            refine (ih _ _).2 ⟨by simpa using hl, fun i hi => ?_⟩
            have := hv (i + 1) (by omega)
            rwa [show A + (i + 1) = A + 1 + i by omega, List.getElem?_cons_succ] at this
          simp [hr, h0]

/-- Reading a sequence fails exactly at the first word that holds no value. -/
theorem Memory.readWords_eq_error_iff (m : Memory) (A n B : Nat) :
    m.readWords A n = .error B ↔
      ∃ i < n, B = A + i ∧ m.readWord B = none ∧ ∀ j < i, m.readWord (A + j) ≠ none := by
  induction n generalizing A with
  | zero => simp [Memory.readWords]
  | succ n ih =>
    unfold Memory.readWords
    cases hw : m.readWord A with
    | none =>
      simp only [Except.error.injEq]
      constructor
      · rintro rfl
        exact ⟨0, by omega, rfl, hw, fun j hj => absurd hj (Nat.not_lt_zero j)⟩
      · rintro ⟨i, hi, rfl, -, hj⟩
        cases i with
        | zero => rfl
        | succ i => exact absurd hw (hj 0 (by omega))
    | some w =>
      have key : (∃ i < n, B = A + 1 + i ∧ m.readWord B = none ∧ ∀ j < i, m.readWord (A + 1 + j) ≠ none) ↔
          ∃ i < n + 1, B = A + i ∧ m.readWord B = none ∧ ∀ j < i, m.readWord (A + j) ≠ none := by
        constructor
        · rintro ⟨i, hi, hB, hn, hj⟩
          refine ⟨i + 1, by omega, by omega, hn, fun j hji => ?_⟩
          cases j with
          | zero => simp [hw]
          | succ j =>
            have := hj j (by omega)
            rwa [show A + 1 + j = A + (j + 1) by omega] at this
        · rintro ⟨i, hi, hB, hn, hj⟩
          cases i with
          | zero =>
            rw [hB, Nat.add_zero, hw] at hn
            exact absurd hn (by simp)
          | succ i =>
            refine ⟨i, by omega, by omega, hn, fun j hji => ?_⟩
            have := hj (j + 1) (by omega)
            rwa [show A + (j + 1) = A + 1 + j by omega] at this
      rw [← key, ← ih]
      cases m.readWords (A + 1) n <;> simp

/-! ### Where the memories lie (R41) -/

theorem MemName.wordAddr_inj {m m' : MemName} {i i' : Nat} (hi : i < 2 ^ 24) (hi' : i' < 2 ^ 24)
    (h : m.wordAddr i = m'.wordAddr i') : m = m' ∧ i = i' := by
  cases m <;> cases m' <;> simp only [MemName.wordAddr, MemName.region] at h <;> simp <;> omega

theorem nmax_le (p : Params) : p.nmax ≤ 2 ^ 24 :=
  Nat.pow_le_pow_right (by decide) (by have := p.logNMax.isLt; omega)

theorem wmax_le (p : Params) : p.wmax ≤ 2 ^ 23 := p.wMaxPred.isLt

theorem depth_le (p : Params) (m : MemName) : m.depth p ≤ 2 ^ 24 := by
  have := nmax_le p
  have := wmax_le p
  cases m <;> simp only [MemName.depth] <;> omega

end Sys2Proof.Machine
end

