-- ==== Sys2Proof/Laws/State.lean ====
section
/-! SUPPORT. The small lemmas of the state: one for each field and each update, true by unfolding, so that no
later proof unfolds a record update; and the fields of `STATUS` after each of its updates. -/

namespace Sys2Proof.Machine

/-! ### `State.accept` -/

@[simp] theorem State.accept_cmd (s : State) (w : Word) : (s.accept w).cmd = w := rfl
@[simp] theorem State.accept_status (s : State) (w : Word) : (s.accept w).status = s.status.accepted := rfl
@[simp] theorem State.accept_len (s : State) (w : Word) : (s.accept w).len = s.len := rfl
@[simp] theorem State.accept_num (s : State) (w : Word) : (s.accept w).num = s.num := rfl
@[simp] theorem State.accept_fc (s : State) (w : Word) : (s.accept w).fc = s.fc := rfl
@[simp] theorem State.accept_qf (s : State) (w : Word) : (s.accept w).qf = s.qf := rfl
@[simp] theorem State.accept_wlen (s : State) (w : Word) : (s.accept w).wlen = s.wlen := rfl
@[simp] theorem State.accept_clen (s : State) (w : Word) : (s.accept w).clen = s.clen := rfl
@[simp] theorem State.accept_a0 (s : State) (w : Word) : (s.accept w).a0 = s.a0 := rfl
@[simp] theorem State.accept_a1 (s : State) (w : Word) : (s.accept w).a1 = s.a1 := rfl
@[simp] theorem State.accept_a2 (s : State) (w : Word) : (s.accept w).a2 = s.a2 := rfl
@[simp] theorem State.accept_b0 (s : State) (w : Word) : (s.accept w).b0 = s.b0 := rfl
@[simp] theorem State.accept_b1 (s : State) (w : Word) : (s.accept w).b1 = s.b1 := rfl
@[simp] theorem State.accept_b2 (s : State) (w : Word) : (s.accept w).b2 = s.b2 := rfl
@[simp] theorem State.accept_mem (s : State) (w : Word) : (s.accept w).mem = s.mem := rfl
@[simp] theorem State.accept_seq (s : State) (w : Word) : (s.accept w).seq = .run (decode w) false := rfl
@[simp] theorem State.accept_params (s : State) (w : Word) : (s.accept w).params = s.params := rfl
@[simp] theorem State.accept_draws (s : State) (w : Word) : (s.accept w).draws = s.draws := rfl
@[simp] theorem State.accept_script (s : State) (w : Word) : (s.accept w).script = s.script := rfl
@[simp] theorem State.accept_record (s : State) (w : Word) : (s.accept w).record = s.record := rfl

/-! ### `State.complete` -/

@[simp] theorem State.complete_cmd (s : State) : s.complete.cmd = s.cmd := rfl
@[simp] theorem State.complete_status (s : State) : s.complete.status = s.status.completed := rfl
@[simp] theorem State.complete_len (s : State) : s.complete.len = s.len := rfl
@[simp] theorem State.complete_num (s : State) : s.complete.num = s.num := rfl
@[simp] theorem State.complete_fc (s : State) : s.complete.fc = s.fc := rfl
@[simp] theorem State.complete_qf (s : State) : s.complete.qf = s.qf := rfl
@[simp] theorem State.complete_wlen (s : State) : s.complete.wlen = s.wlen := rfl
@[simp] theorem State.complete_clen (s : State) : s.complete.clen = s.clen := rfl
@[simp] theorem State.complete_a0 (s : State) : s.complete.a0 = s.a0 := rfl
@[simp] theorem State.complete_a1 (s : State) : s.complete.a1 = s.a1 := rfl
@[simp] theorem State.complete_a2 (s : State) : s.complete.a2 = s.a2 := rfl
@[simp] theorem State.complete_b0 (s : State) : s.complete.b0 = s.b0 := rfl
@[simp] theorem State.complete_b1 (s : State) : s.complete.b1 = s.b1 := rfl
@[simp] theorem State.complete_b2 (s : State) : s.complete.b2 = s.b2 := rfl
@[simp] theorem State.complete_mem (s : State) : s.complete.mem = s.mem := rfl
@[simp] theorem State.complete_seq (s : State) : s.complete.seq = .idle := rfl
@[simp] theorem State.complete_params (s : State) : s.complete.params = s.params := rfl
@[simp] theorem State.complete_draws (s : State) : s.complete.draws = s.draws + 1 := rfl
@[simp] theorem State.complete_script (s : State) : s.complete.script = s.script := rfl
@[simp] theorem State.complete_record (s : State) : s.complete.record = s.record := rfl

/-! ### `State.raiseError` -/

@[simp] theorem State.raiseError_cmd (s : State) (e : ErrorKind) : (s.raiseError e).cmd = s.cmd := rfl
@[simp] theorem State.raiseError_status (s : State) (e : ErrorKind) : (s.raiseError e).status = s.status.raised e := rfl
@[simp] theorem State.raiseError_len (s : State) (e : ErrorKind) : (s.raiseError e).len = s.len := rfl
@[simp] theorem State.raiseError_num (s : State) (e : ErrorKind) : (s.raiseError e).num = s.num := rfl
@[simp] theorem State.raiseError_fc (s : State) (e : ErrorKind) : (s.raiseError e).fc = s.fc := rfl
@[simp] theorem State.raiseError_qf (s : State) (e : ErrorKind) : (s.raiseError e).qf = s.qf := rfl
@[simp] theorem State.raiseError_wlen (s : State) (e : ErrorKind) : (s.raiseError e).wlen = s.wlen := rfl
@[simp] theorem State.raiseError_clen (s : State) (e : ErrorKind) : (s.raiseError e).clen = s.clen := rfl
@[simp] theorem State.raiseError_a0 (s : State) (e : ErrorKind) : (s.raiseError e).a0 = s.a0 := rfl
@[simp] theorem State.raiseError_a1 (s : State) (e : ErrorKind) : (s.raiseError e).a1 = s.a1 := rfl
@[simp] theorem State.raiseError_a2 (s : State) (e : ErrorKind) : (s.raiseError e).a2 = s.a2 := rfl
@[simp] theorem State.raiseError_b0 (s : State) (e : ErrorKind) : (s.raiseError e).b0 = s.b0 := rfl
@[simp] theorem State.raiseError_b1 (s : State) (e : ErrorKind) : (s.raiseError e).b1 = s.b1 := rfl
@[simp] theorem State.raiseError_b2 (s : State) (e : ErrorKind) : (s.raiseError e).b2 = s.b2 := rfl
@[simp] theorem State.raiseError_mem (s : State) (e : ErrorKind) : (s.raiseError e).mem = s.mem := rfl
@[simp] theorem State.raiseError_seq (s : State) (e : ErrorKind) : (s.raiseError e).seq = .idle := rfl
@[simp] theorem State.raiseError_params (s : State) (e : ErrorKind) : (s.raiseError e).params = s.params := rfl
@[simp] theorem State.raiseError_draws (s : State) (e : ErrorKind) : (s.raiseError e).draws = s.draws := rfl
@[simp] theorem State.raiseError_script (s : State) (e : ErrorKind) : (s.raiseError e).script = s.script := rfl
@[simp] theorem State.raiseError_record (s : State) (e : ErrorKind) : (s.raiseError e).record = s.record := rfl

/-! ### `State.acknowledge` -/

@[simp] theorem State.acknowledge_cmd (s : State) : s.acknowledge.cmd = s.cmd := rfl
@[simp] theorem State.acknowledge_status (s : State) : s.acknowledge.status = .cleared := rfl
@[simp] theorem State.acknowledge_len (s : State) : s.acknowledge.len = s.len := rfl
@[simp] theorem State.acknowledge_num (s : State) : s.acknowledge.num = s.num := rfl
@[simp] theorem State.acknowledge_fc (s : State) : s.acknowledge.fc = s.fc := rfl
@[simp] theorem State.acknowledge_qf (s : State) : s.acknowledge.qf = s.qf := rfl
@[simp] theorem State.acknowledge_wlen (s : State) : s.acknowledge.wlen = s.wlen := rfl
@[simp] theorem State.acknowledge_clen (s : State) : s.acknowledge.clen = s.clen := rfl
@[simp] theorem State.acknowledge_a0 (s : State) : s.acknowledge.a0 = s.a0 := rfl
@[simp] theorem State.acknowledge_a1 (s : State) : s.acknowledge.a1 = s.a1 := rfl
@[simp] theorem State.acknowledge_a2 (s : State) : s.acknowledge.a2 = s.a2 := rfl
@[simp] theorem State.acknowledge_b0 (s : State) : s.acknowledge.b0 = s.b0 := rfl
@[simp] theorem State.acknowledge_b1 (s : State) : s.acknowledge.b1 = s.b1 := rfl
@[simp] theorem State.acknowledge_b2 (s : State) : s.acknowledge.b2 = s.b2 := rfl
@[simp] theorem State.acknowledge_mem (s : State) : s.acknowledge.mem = s.mem := rfl
@[simp] theorem State.acknowledge_seq (s : State) : s.acknowledge.seq = .idle := rfl
@[simp] theorem State.acknowledge_params (s : State) : s.acknowledge.params = s.params := rfl
@[simp] theorem State.acknowledge_draws (s : State) : s.acknowledge.draws = s.draws := rfl
@[simp] theorem State.acknowledge_script (s : State) : s.acknowledge.script = s.script := rfl
@[simp] theorem State.acknowledge_record (s : State) : s.acknowledge.record = s.record := rfl

/-! ### `State.hazard` -/

@[simp] theorem State.hazard_cmd (s : State) : s.hazard.cmd = s.cmd := rfl
@[simp] theorem State.hazard_status (s : State) : s.hazard.status = s.status.hazarded := rfl
@[simp] theorem State.hazard_len (s : State) : s.hazard.len = s.len := rfl
@[simp] theorem State.hazard_num (s : State) : s.hazard.num = s.num := rfl
@[simp] theorem State.hazard_fc (s : State) : s.hazard.fc = s.fc := rfl
@[simp] theorem State.hazard_qf (s : State) : s.hazard.qf = s.qf := rfl
@[simp] theorem State.hazard_wlen (s : State) : s.hazard.wlen = s.wlen := rfl
@[simp] theorem State.hazard_clen (s : State) : s.hazard.clen = s.clen := rfl
@[simp] theorem State.hazard_a0 (s : State) : s.hazard.a0 = s.a0 := rfl
@[simp] theorem State.hazard_a1 (s : State) : s.hazard.a1 = s.a1 := rfl
@[simp] theorem State.hazard_a2 (s : State) : s.hazard.a2 = s.a2 := rfl
@[simp] theorem State.hazard_b0 (s : State) : s.hazard.b0 = s.b0 := rfl
@[simp] theorem State.hazard_b1 (s : State) : s.hazard.b1 = s.b1 := rfl
@[simp] theorem State.hazard_b2 (s : State) : s.hazard.b2 = s.b2 := rfl
@[simp] theorem State.hazard_mem (s : State) : s.hazard.mem = s.mem := rfl
@[simp] theorem State.hazard_seq (s : State) : s.hazard.seq = s.seq.disturb := rfl
@[simp] theorem State.hazard_params (s : State) : s.hazard.params = s.params := rfl
@[simp] theorem State.hazard_draws (s : State) : s.hazard.draws = s.draws := rfl
@[simp] theorem State.hazard_script (s : State) : s.hazard.script = s.script := rfl
@[simp] theorem State.hazard_record (s : State) : s.hazard.record = s.record := rfl

/-! ### `State.recordRead` -/

@[simp] theorem State.recordRead_cmd (s : State) (a : Addr) (v : Word) : (s.recordRead a v).cmd = s.cmd := rfl
@[simp] theorem State.recordRead_status (s : State) (a : Addr) (v : Word) : (s.recordRead a v).status = s.status := rfl
@[simp] theorem State.recordRead_len (s : State) (a : Addr) (v : Word) : (s.recordRead a v).len = s.len := rfl
@[simp] theorem State.recordRead_num (s : State) (a : Addr) (v : Word) : (s.recordRead a v).num = s.num := rfl
@[simp] theorem State.recordRead_fc (s : State) (a : Addr) (v : Word) : (s.recordRead a v).fc = s.fc := rfl
@[simp] theorem State.recordRead_qf (s : State) (a : Addr) (v : Word) : (s.recordRead a v).qf = s.qf := rfl
@[simp] theorem State.recordRead_wlen (s : State) (a : Addr) (v : Word) : (s.recordRead a v).wlen = s.wlen := rfl
@[simp] theorem State.recordRead_clen (s : State) (a : Addr) (v : Word) : (s.recordRead a v).clen = s.clen := rfl
@[simp] theorem State.recordRead_a0 (s : State) (a : Addr) (v : Word) : (s.recordRead a v).a0 = s.a0 := rfl
@[simp] theorem State.recordRead_a1 (s : State) (a : Addr) (v : Word) : (s.recordRead a v).a1 = s.a1 := rfl
@[simp] theorem State.recordRead_a2 (s : State) (a : Addr) (v : Word) : (s.recordRead a v).a2 = s.a2 := rfl
@[simp] theorem State.recordRead_b0 (s : State) (a : Addr) (v : Word) : (s.recordRead a v).b0 = s.b0 := rfl
@[simp] theorem State.recordRead_b1 (s : State) (a : Addr) (v : Word) : (s.recordRead a v).b1 = s.b1 := rfl
@[simp] theorem State.recordRead_b2 (s : State) (a : Addr) (v : Word) : (s.recordRead a v).b2 = s.b2 := rfl
@[simp] theorem State.recordRead_mem (s : State) (a : Addr) (v : Word) : (s.recordRead a v).mem = s.mem := rfl
@[simp] theorem State.recordRead_seq (s : State) (a : Addr) (v : Word) : (s.recordRead a v).seq = s.seq := rfl
@[simp] theorem State.recordRead_params (s : State) (a : Addr) (v : Word) : (s.recordRead a v).params = s.params := rfl
@[simp] theorem State.recordRead_draws (s : State) (a : Addr) (v : Word) : (s.recordRead a v).draws = s.draws := rfl
@[simp] theorem State.recordRead_script (s : State) (a : Addr) (v : Word) : (s.recordRead a v).script = s.script := rfl
@[simp] theorem State.recordRead_record (s : State) (a : Addr) (v : Word) : (s.recordRead a v).record = (a, v) :: s.record := rfl

/-! ### `State.recordOpen` -/

@[simp] theorem State.recordOpen_cmd (s : State) (a : Addr) : (s.recordOpen a).cmd = s.cmd := rfl
@[simp] theorem State.recordOpen_status (s : State) (a : Addr) : (s.recordOpen a).status = s.status := rfl
@[simp] theorem State.recordOpen_len (s : State) (a : Addr) : (s.recordOpen a).len = s.len := rfl
@[simp] theorem State.recordOpen_num (s : State) (a : Addr) : (s.recordOpen a).num = s.num := rfl
@[simp] theorem State.recordOpen_fc (s : State) (a : Addr) : (s.recordOpen a).fc = s.fc := rfl
@[simp] theorem State.recordOpen_qf (s : State) (a : Addr) : (s.recordOpen a).qf = s.qf := rfl
@[simp] theorem State.recordOpen_wlen (s : State) (a : Addr) : (s.recordOpen a).wlen = s.wlen := rfl
@[simp] theorem State.recordOpen_clen (s : State) (a : Addr) : (s.recordOpen a).clen = s.clen := rfl
@[simp] theorem State.recordOpen_a0 (s : State) (a : Addr) : (s.recordOpen a).a0 = s.a0 := rfl
@[simp] theorem State.recordOpen_a1 (s : State) (a : Addr) : (s.recordOpen a).a1 = s.a1 := rfl
@[simp] theorem State.recordOpen_a2 (s : State) (a : Addr) : (s.recordOpen a).a2 = s.a2 := rfl
@[simp] theorem State.recordOpen_b0 (s : State) (a : Addr) : (s.recordOpen a).b0 = s.b0 := rfl
@[simp] theorem State.recordOpen_b1 (s : State) (a : Addr) : (s.recordOpen a).b1 = s.b1 := rfl
@[simp] theorem State.recordOpen_b2 (s : State) (a : Addr) : (s.recordOpen a).b2 = s.b2 := rfl
@[simp] theorem State.recordOpen_mem (s : State) (a : Addr) : (s.recordOpen a).mem = s.mem := rfl
@[simp] theorem State.recordOpen_seq (s : State) (a : Addr) : (s.recordOpen a).seq = s.seq := rfl
@[simp] theorem State.recordOpen_params (s : State) (a : Addr) : (s.recordOpen a).params = s.params := rfl
@[simp] theorem State.recordOpen_draws (s : State) (a : Addr) : (s.recordOpen a).draws = s.draws + 1 := rfl
@[simp] theorem State.recordOpen_script (s : State) (a : Addr) : (s.recordOpen a).script = s.script := rfl
@[simp] theorem State.recordOpen_record (s : State) (a : Addr) : (s.recordOpen a).record = (a, Config.freeWord ⟨s.draws, 5, a.toNat, 0⟩) :: s.record := rfl

/-! ### `State.storeSeq` -/

@[simp] theorem State.storeSeq_cmd (s : State) (m : MemName) (ws : List Word) : (s.storeSeq m ws).cmd = s.cmd := rfl
@[simp] theorem State.storeSeq_status (s : State) (m : MemName) (ws : List Word) : (s.storeSeq m ws).status = s.status := rfl
@[simp] theorem State.storeSeq_len (s : State) (m : MemName) (ws : List Word) : (s.storeSeq m ws).len = s.len := rfl
@[simp] theorem State.storeSeq_num (s : State) (m : MemName) (ws : List Word) : (s.storeSeq m ws).num = s.num := rfl
@[simp] theorem State.storeSeq_fc (s : State) (m : MemName) (ws : List Word) : (s.storeSeq m ws).fc = s.fc := rfl
@[simp] theorem State.storeSeq_qf (s : State) (m : MemName) (ws : List Word) : (s.storeSeq m ws).qf = s.qf := rfl
@[simp] theorem State.storeSeq_wlen (s : State) (m : MemName) (ws : List Word) : (s.storeSeq m ws).wlen = s.wlen := rfl
@[simp] theorem State.storeSeq_clen (s : State) (m : MemName) (ws : List Word) : (s.storeSeq m ws).clen = s.clen := rfl
@[simp] theorem State.storeSeq_a0 (s : State) (m : MemName) (ws : List Word) : (s.storeSeq m ws).a0 = s.a0 := rfl
@[simp] theorem State.storeSeq_a1 (s : State) (m : MemName) (ws : List Word) : (s.storeSeq m ws).a1 = s.a1 := rfl
@[simp] theorem State.storeSeq_a2 (s : State) (m : MemName) (ws : List Word) : (s.storeSeq m ws).a2 = s.a2 := rfl
@[simp] theorem State.storeSeq_b0 (s : State) (m : MemName) (ws : List Word) : (s.storeSeq m ws).b0 = s.b0 := rfl
@[simp] theorem State.storeSeq_b1 (s : State) (m : MemName) (ws : List Word) : (s.storeSeq m ws).b1 = s.b1 := rfl
@[simp] theorem State.storeSeq_b2 (s : State) (m : MemName) (ws : List Word) : (s.storeSeq m ws).b2 = s.b2 := rfl
@[simp] theorem State.storeSeq_mem (s : State) (m : MemName) (ws : List Word) : (s.storeSeq m ws).mem = s.mem.writeWords (m.wordAddr 0) (s.deliverSeq m ws) := rfl
@[simp] theorem State.storeSeq_seq (s : State) (m : MemName) (ws : List Word) : (s.storeSeq m ws).seq = s.seq := rfl
@[simp] theorem State.storeSeq_params (s : State) (m : MemName) (ws : List Word) : (s.storeSeq m ws).params = s.params := rfl
@[simp] theorem State.storeSeq_draws (s : State) (m : MemName) (ws : List Word) : (s.storeSeq m ws).draws = s.draws := rfl
@[simp] theorem State.storeSeq_script (s : State) (m : MemName) (ws : List Word) : (s.storeSeq m ws).script = s.script := rfl
@[simp] theorem State.storeSeq_record (s : State) (m : MemName) (ws : List Word) : (s.storeSeq m ws).record = s.record := rfl

/-! ### `State.storeBiquad` -/

@[simp] theorem State.storeBiquad_cmd (s : State) (c : Biquad) : (s.storeBiquad c).cmd = s.cmd := rfl
@[simp] theorem State.storeBiquad_status (s : State) (c : Biquad) : (s.storeBiquad c).status = s.status := rfl
@[simp] theorem State.storeBiquad_len (s : State) (c : Biquad) : (s.storeBiquad c).len = s.len := rfl
@[simp] theorem State.storeBiquad_num (s : State) (c : Biquad) : (s.storeBiquad c).num = s.num := rfl
@[simp] theorem State.storeBiquad_fc (s : State) (c : Biquad) : (s.storeBiquad c).fc = s.fc := rfl
@[simp] theorem State.storeBiquad_qf (s : State) (c : Biquad) : (s.storeBiquad c).qf = s.qf := rfl
@[simp] theorem State.storeBiquad_wlen (s : State) (c : Biquad) : (s.storeBiquad c).wlen = s.wlen := rfl
@[simp] theorem State.storeBiquad_clen (s : State) (c : Biquad) : (s.storeBiquad c).clen = s.clen := rfl
@[simp] theorem State.storeBiquad_a0 (s : State) (c : Biquad) : (s.storeBiquad c).a0 = s.deliverReg .a0 c.a0 := rfl
@[simp] theorem State.storeBiquad_a1 (s : State) (c : Biquad) : (s.storeBiquad c).a1 = s.deliverReg .a1 c.a1 := rfl
@[simp] theorem State.storeBiquad_a2 (s : State) (c : Biquad) : (s.storeBiquad c).a2 = s.deliverReg .a2 c.a2 := rfl
@[simp] theorem State.storeBiquad_b0 (s : State) (c : Biquad) : (s.storeBiquad c).b0 = s.deliverReg .b0 c.b0 := rfl
@[simp] theorem State.storeBiquad_b1 (s : State) (c : Biquad) : (s.storeBiquad c).b1 = s.deliverReg .b1 c.b1 := rfl
@[simp] theorem State.storeBiquad_b2 (s : State) (c : Biquad) : (s.storeBiquad c).b2 = s.deliverReg .b2 c.b2 := rfl
@[simp] theorem State.storeBiquad_mem (s : State) (c : Biquad) : (s.storeBiquad c).mem = s.mem := rfl
@[simp] theorem State.storeBiquad_seq (s : State) (c : Biquad) : (s.storeBiquad c).seq = s.seq := rfl
@[simp] theorem State.storeBiquad_params (s : State) (c : Biquad) : (s.storeBiquad c).params = s.params := rfl
@[simp] theorem State.storeBiquad_draws (s : State) (c : Biquad) : (s.storeBiquad c).draws = s.draws := rfl
@[simp] theorem State.storeBiquad_script (s : State) (c : Biquad) : (s.storeBiquad c).script = s.script := rfl
@[simp] theorem State.storeBiquad_record (s : State) (c : Biquad) : (s.storeBiquad c).record = s.record := rfl

/-! ### `State.storeCpx` -/

@[simp] theorem State.storeCpx_cmd (s : State) (xs : List Cpx) : (s.storeCpx xs).cmd = s.cmd := rfl
@[simp] theorem State.storeCpx_status (s : State) (xs : List Cpx) : (s.storeCpx xs).status = s.status := rfl
@[simp] theorem State.storeCpx_len (s : State) (xs : List Cpx) : (s.storeCpx xs).len = s.len := rfl
@[simp] theorem State.storeCpx_num (s : State) (xs : List Cpx) : (s.storeCpx xs).num = s.num := rfl
@[simp] theorem State.storeCpx_fc (s : State) (xs : List Cpx) : (s.storeCpx xs).fc = s.fc := rfl
@[simp] theorem State.storeCpx_qf (s : State) (xs : List Cpx) : (s.storeCpx xs).qf = s.qf := rfl
@[simp] theorem State.storeCpx_wlen (s : State) (xs : List Cpx) : (s.storeCpx xs).wlen = s.wlen := rfl
@[simp] theorem State.storeCpx_clen (s : State) (xs : List Cpx) : (s.storeCpx xs).clen = s.clen := rfl
@[simp] theorem State.storeCpx_a0 (s : State) (xs : List Cpx) : (s.storeCpx xs).a0 = s.a0 := rfl
@[simp] theorem State.storeCpx_a1 (s : State) (xs : List Cpx) : (s.storeCpx xs).a1 = s.a1 := rfl
@[simp] theorem State.storeCpx_a2 (s : State) (xs : List Cpx) : (s.storeCpx xs).a2 = s.a2 := rfl
@[simp] theorem State.storeCpx_b0 (s : State) (xs : List Cpx) : (s.storeCpx xs).b0 = s.b0 := rfl
@[simp] theorem State.storeCpx_b1 (s : State) (xs : List Cpx) : (s.storeCpx xs).b1 = s.b1 := rfl
@[simp] theorem State.storeCpx_b2 (s : State) (xs : List Cpx) : (s.storeCpx xs).b2 = s.b2 := rfl
@[simp] theorem State.storeCpx_mem (s : State) (xs : List Cpx) : (s.storeCpx xs).mem =
    (s.mem.writeWords (MemName.xr.wordAddr 0) (s.deliverSeq .xr (xs.map Cpx.re))).writeWords
      (MemName.xi.wordAddr 0) (s.deliverSeq .xi (xs.map Cpx.im)) := rfl
@[simp] theorem State.storeCpx_seq (s : State) (xs : List Cpx) : (s.storeCpx xs).seq = s.seq := rfl
@[simp] theorem State.storeCpx_params (s : State) (xs : List Cpx) : (s.storeCpx xs).params = s.params := rfl
@[simp] theorem State.storeCpx_draws (s : State) (xs : List Cpx) : (s.storeCpx xs).draws = s.draws := rfl
@[simp] theorem State.storeCpx_script (s : State) (xs : List Cpx) : (s.storeCpx xs).script = s.script := rfl
@[simp] theorem State.storeCpx_record (s : State) (xs : List Cpx) : (s.storeCpx xs).record = s.record := rfl

/-! ### `STATUS` -/

@[simp] theorem Status.accepted_busy (st : Status) : st.accepted.busy = true := rfl
@[simp] theorem Status.accepted_done (st : Status) : st.accepted.done = false := rfl
@[simp] theorem Status.accepted_err (st : Status) : st.accepted.err = false := rfl
@[simp] theorem Status.accepted_hz (st : Status) : st.accepted.hz = st.hz := rfl
@[simp] theorem Status.accepted_errCode (st : Status) : st.accepted.errCode = 0 := rfl
@[simp] theorem Status.completed_busy (st : Status) : st.completed.busy = false := rfl
@[simp] theorem Status.completed_done (st : Status) : st.completed.done = true := rfl
@[simp] theorem Status.completed_err (st : Status) : st.completed.err = st.err := rfl
@[simp] theorem Status.completed_hz (st : Status) : st.completed.hz = st.hz := rfl
@[simp] theorem Status.completed_errCode (st : Status) : st.completed.errCode = st.errCode := rfl
@[simp] theorem Status.raised_busy (st : Status) (e : ErrorKind) : (st.raised e).busy = false := rfl
@[simp] theorem Status.raised_done (st : Status) (e : ErrorKind) : (st.raised e).done = true := rfl
@[simp] theorem Status.raised_err (st : Status) (e : ErrorKind) : (st.raised e).err = true := rfl
@[simp] theorem Status.raised_hz (st : Status) (e : ErrorKind) : (st.raised e).hz = st.hz := rfl
@[simp] theorem Status.raised_errCode (st : Status) (e : ErrorKind) : (st.raised e).errCode = e.code := rfl
@[simp] theorem Status.hazarded_busy (st : Status) : st.hazarded.busy = st.busy := rfl
@[simp] theorem Status.hazarded_done (st : Status) : st.hazarded.done = st.done := rfl
@[simp] theorem Status.hazarded_err (st : Status) : st.hazarded.err = st.err := rfl
@[simp] theorem Status.hazarded_hz (st : Status) : st.hazarded.hz = true := rfl
@[simp] theorem Status.hazarded_errCode (st : Status) : st.hazarded.errCode = st.errCode := rfl

@[simp] theorem Status.cleared_eq : Status.cleared = Status.zero := rfl

/-! ### The sequencer and delivery -/

@[simp] theorem Seq.disturb_idle : Seq.idle.disturb = .idle := rfl

@[simp] theorem Seq.disturb_run (d : Decoded) (b : Bool) : (Seq.run d b).disturb = .run d true := rfl

theorem State.disturbed_idle {s : State} (h : s.seq = .idle) : s.disturbed = false := by
  simp [State.disturbed, h]

theorem State.disturbed_run {s : State} {d : Decoded} {b : Bool} (h : s.seq = .run d b) :
    s.disturbed = b := by
  simp [State.disturbed, h]

@[simp] theorem State.deliver_undisturbed {s : State} (h : s.disturbed = false) (k : Site) (v : Word) :
    s.deliver k v = v := by
  simp [State.deliver, h]

@[simp] theorem State.length_deliverSeq (s : State) (m : MemName) (ws : List Word) :
    (s.deliverSeq m ws).length = ws.length := by
  simp [State.deliverSeq]

theorem State.getElem?_deliverSeq (s : State) (m : MemName) (ws : List Word) (i : Nat) :
    (s.deliverSeq m ws)[i]? = ws[i]?.map (s.deliver ⟨s.draws, m.region, i, 0⟩) := by
  simp [State.deliverSeq]

end Sys2Proof.Machine
end

