-- ==== Sys2Proof/Laws/Ops.lean ====
section
/-! SUPPORT. One lemma for each shared operation that says everything it can do: the operand checks and
loads, the stores, the two host transactions. Proofs cite these and unfold nothing. -/

namespace Sys2Proof.Machine

/-! ### Operand checks (R111, R140, R151) -/

theorem State.transformError_eq_none_iff (s : State) :
    s.transformError = none ↔ ispow2 s.seqLen = true ∧ s.seqLen ≤ s.params.nmax := by
  unfold State.transformError
  cases ispow2 s.seqLen <;> by_cases h : s.params.nmax < s.seqLen <;> (simp [h]; try omega)

theorem State.transformError_cases (s : State) :
    (ispow2 s.seqLen = false ∧ s.transformError = some .invalidLength) ∨
    (ispow2 s.seqLen = true ∧ s.params.nmax < s.seqLen ∧ s.transformError = some .capacity) ∨
    (ispow2 s.seqLen = true ∧ s.seqLen ≤ s.params.nmax ∧ s.transformError = none) := by
  unfold State.transformError
  cases ispow2 s.seqLen <;> by_cases h : s.params.nmax < s.seqLen <;> (simp [h]; try omega)

theorem State.hannError_cases (s : State) :
    (s.params.wmax < s.seqLen ∧ s.hannError = some .capacity) ∨
    (s.seqLen ≤ s.params.wmax ∧ s.hannError = none) := by
  unfold State.hannError
  by_cases h : s.params.wmax < s.seqLen <;> (simp [h]; try omega)

theorem State.firError_cases (s : State) :
    (s.wlen.toNat ≠ s.taps ∧ s.firError = some .shapeMismatch) ∨
    (s.wlen.toNat = s.taps ∧ s.params.wmax < s.taps ∧ s.firError = some .capacity) ∨
    (s.wlen.toNat = s.taps ∧ s.taps ≤ s.params.wmax ∧ s.firError = none) := by
  unfold State.firError
  by_cases h : s.wlen.toNat = s.taps <;> by_cases h' : s.params.wmax < s.taps <;> (simp [h, h']; try omega)

/-! ### Loads (R63, R216) -/

theorem MemName.wordAddr_add (m : MemName) (i j : Nat) : m.wordAddr i + j = m.wordAddr (i + j) := by
  simp only [MemName.wordAddr]
  omega

/-- A load gives exactly the words of the memory. -/
theorem State.loadSeq_eq_ok_iff (s : State) (m : MemName) (n : Nat) (ws : List Word) :
    s.loadSeq m n = .ok ws ↔ ws.length = n ∧ ∀ i < n, s.wordAt m i = ws[i]? := by
  simp only [State.loadSeq, Memory.readWords_eq_ok_iff, MemName.wordAddr_add, Nat.zero_add, State.wordAt]

/-- A load fails exactly at the first word that holds no value. -/
theorem State.loadSeq_eq_error_iff (s : State) (m : MemName) (n A : Nat) :
    s.loadSeq m n = .error A ↔
      ∃ i < n, A = m.wordAddr i ∧ s.wordAt m i = none ∧ ∀ j < i, s.wordAt m j ≠ none := by
  simp only [State.loadSeq, Memory.readWords_eq_error_iff, MemName.wordAddr_add, Nat.zero_add, State.wordAt]
  constructor
  · rintro ⟨i, hi, rfl, h⟩
    exact ⟨i, hi, rfl, h⟩
  · rintro ⟨i, hi, rfl, h⟩
    exact ⟨i, hi, rfl, h⟩

/-- A load succeeds exactly when every word holds a value. -/
theorem State.loadSeq_ok_iff_holds (s : State) (m : MemName) (n : Nat) :
    (∃ ws, s.loadSeq m n = .ok ws) ↔ ∀ i < n, (s.wordAt m i).isSome = true := by
  constructor
  · rintro ⟨ws, h⟩ i hi
    obtain ⟨hl, hw⟩ := (s.loadSeq_eq_ok_iff m n ws).1 h
    rw [hw i hi, List.getElem?_eq_getElem (by omega)]
    rfl
  · intro h
    cases hl : s.loadSeq m n with
    | ok ws => exact ⟨ws, rfl⟩
    | error A =>
      obtain ⟨i, hi, -, hn, -⟩ := (s.loadSeq_eq_error_iff m n A).1 hl
      have := h i hi
      rw [hn] at this
      exact absurd this (by simp)

/-- The load of a sequence whose words are known. -/
theorem State.loadSeq_of_words {s : State} {m : MemName} {n : Nat} {x : Nat → Word}
    (h : ∀ i < n, s.wordAt m i = some (x i)) : s.loadSeq m n = .ok (tabulate n x) := by
  refine (s.loadSeq_eq_ok_iff m n _).2 ⟨by simp [tabulate], fun i hi => ?_⟩
  rw [h i hi]
  simp [tabulate, hi]

/-! ### Sequences -/

@[simp] theorem length_tabulate {α : Type} (n : Nat) (f : Nat → α) : (tabulate n f).length = n := by
  simp [tabulate]

theorem getElem?_tabulate {α : Type} (n : Nat) (f : Nat → α) (i : Nat) :
    (tabulate n f)[i]? = if i < n then some (f i) else none := by
  by_cases h : i < n <;> simp [tabulate, h]

theorem getD_tabulate {α : Type} (n : Nat) (f : Nat → α) (i : Nat) (d : α) :
    (tabulate n f).getD i d = if i < n then f i else d := by
  rw [List.getD_eq_getElem?_getD, getElem?_tabulate]
  split <;> rfl

/-- Every sequence is the tabulation of its elements. -/
theorem tabulate_getD {α : Type} (xs : List α) (d : α) : tabulate xs.length (fun i => xs.getD i d) = xs := by
  apply List.ext_getElem?
  intro i
  rw [getElem?_tabulate]
  by_cases h : i < xs.length
  · simp [h]
  · simp [h]

/-! ### Stores -/

/-- A word after a result sequence has been stored: the delivered results in the words of that memory it
covers, every other word as before. -/
theorem State.wordAt_storeSeq (s : State) (m m' : MemName) (ws : List Word) (i : Nat)
    (hl : ws.length ≤ 2 ^ 24) (hi : i < 2 ^ 24) :
    (s.storeSeq m ws).wordAt m' i =
      if m' = m ∧ i < ws.length then ws[i]?.map (s.deliver ⟨s.draws, m.region, i, 0⟩)
      else s.wordAt m' i := by
  simp only [State.wordAt, State.storeSeq_mem, Memory.readWord_writeWords, State.length_deliverSeq]
  by_cases h : m' = m ∧ i < ws.length
  · obtain ⟨rfl, hi'⟩ := h
    have h1 : m'.wordAddr 0 ≤ m'.wordAddr i ∧ m'.wordAddr i < m'.wordAddr 0 + ws.length := by
      simp only [MemName.wordAddr]
      omega
    have h2 : m'.wordAddr i - m'.wordAddr 0 = i := by
      simp only [MemName.wordAddr]
      omega
    rw [if_pos h1, if_pos ⟨rfl, hi'⟩, h2, State.getElem?_deliverSeq]
  · have h1 : ¬ (m.wordAddr 0 ≤ m'.wordAddr i ∧ m'.wordAddr i < m.wordAddr 0 + ws.length) := by
      rintro ⟨ha, hb⟩
      have hk : m'.wordAddr i = m.wordAddr (m'.wordAddr i - m.wordAddr 0) := by
        simp only [MemName.wordAddr] at *
        omega
      obtain ⟨rfl, hj⟩ := MemName.wordAddr_inj hi (by omega) hk
      exact h ⟨rfl, by omega⟩
    rw [if_neg h1, if_neg h]

/-- A byte outside the words a result sequence is stored to reads as before. -/
theorem State.readByte_storeSeq_other (s : State) (m : MemName) (ws : List Word) (a : Nat)
    (h : ¬ (m.wordAddr 0 ≤ a / 4 ∧ a / 4 < m.wordAddr 0 + ws.length)) :
    (s.storeSeq m ws).mem.readByte a = s.mem.readByte a :=
  Memory.readByte_writeWords_other _ _ _ _ (by simpa using h)

/-- A byte outside the words a complex sequence is stored to reads as before. -/
theorem State.readByte_storeCpx_other (s : State) (xs : List Cpx) (a : Nat)
    (hr : ¬ (MemName.xr.wordAddr 0 ≤ a / 4 ∧ a / 4 < MemName.xr.wordAddr 0 + xs.length))
    (hi : ¬ (MemName.xi.wordAddr 0 ≤ a / 4 ∧ a / 4 < MemName.xi.wordAddr 0 + xs.length)) :
    (s.storeCpx xs).mem.readByte a = s.mem.readByte a := by
  rw [State.storeCpx, State.readByte_storeSeq_other _ _ _ _ (by simpa using hi),
    State.readByte_storeSeq_other _ _ _ _ (by simpa using hr)]

/-- A word after a complex sequence has been stored. -/
theorem State.wordAt_storeCpx (s : State) (xs : List Cpx) (m : MemName) (i : Nat)
    (hl : xs.length ≤ 2 ^ 24) (hi : i < 2 ^ 24) :
    (s.storeCpx xs).wordAt m i =
      if m = .xr ∧ i < xs.length then xs[i]?.map fun x => s.deliver ⟨s.draws, 1, i, 0⟩ x.re
      else if m = .xi ∧ i < xs.length then xs[i]?.map fun x => s.deliver ⟨s.draws, 2, i, 0⟩ x.im
      else s.wordAt m i := by
  rw [State.storeCpx, State.wordAt_storeSeq _ _ _ _ _ (by simpa using hl) hi,
    State.wordAt_storeSeq _ _ _ _ _ (by simpa using hl) hi]
  have hd : (s.storeSeq .xr (xs.map Cpx.re)).disturbed = s.disturbed := rfl
  cases m <;> by_cases h : i < xs.length <;>
    simp [h, MemName.region, State.deliver, hd]

/-! ### The two host transactions (R45, R46, R214) -/

/-- Everything a host read can do. -/
theorem State.hostRead_cases (s : State) (a : Addr) :
    (a = Reg.status.addr ∧ s.hostRead a = .next (s.recordRead a s.status.word)) ∨
    (a ≠ Reg.status.addr ∧ s.status.busy = true ∧ s.hostRead a = .next (s.hazard.recordOpen a)) ∨
    (a ≠ Reg.status.addr ∧ s.status.busy = false ∧
      ((∃ r, s.target a = .reg r ∧ s.hostRead a = .next (s.recordRead a (s.readReg r))) ∨
        (∃ m i v, s.target a = .word m i ∧ s.wordAt m i = some v ∧
          s.hostRead a = .next (s.recordRead a v)) ∨
        (∃ m i, s.target a = .word m i ∧ s.wordAt m i = none ∧
          s.hostRead a = .fault (.noValue (m.wordAddr i))) ∨
        (s.target a = .unmapped ∧ s.hostRead a = .next (s.recordOpen a)))) := by
  unfold State.hostRead
  by_cases ha : a = Reg.status.addr
  · simp [ha]
  · cases hb : s.status.busy
    · right; right
      refine ⟨ha, rfl, ?_⟩
      cases ht : s.target a with
      | reg r => exact .inl ⟨r, rfl, by simp [ha]⟩
      | word m i =>
        cases hw : s.wordAt m i with
        | some v => exact .inr (.inl ⟨m, i, v, rfl, hw, by simp [ha, hw]⟩)
        | none => exact .inr (.inr (.inl ⟨m, i, rfl, hw, by simp [ha, hw]⟩))
      | unmapped => exact .inr (.inr (.inr ⟨rfl, by simp [ha]⟩))
    · right; left
      exact ⟨ha, rfl, by simp [ha]⟩

/-- Everything a host write can do. -/
theorem State.hostWrite_cases (s : State) (a : Addr) (v : Word) :
    (s.status.busy = true ∧ s.hostWrite a v = s.hazard) ∨
    (s.status.busy = false ∧
      ((∃ r, s.target a = .reg r ∧ s.hostWrite a v = s.writeReg r v) ∨
        (∃ m i, s.target a = .word m i ∧ s.hostWrite a v = s.writeMem m i v) ∨
        (s.target a = .unmapped ∧ s.hostWrite a v = s))) := by
  unfold State.hostWrite
  cases hb : s.status.busy
  · right
    refine ⟨rfl, ?_⟩
    cases ht : s.target a with
    | reg r => exact .inl ⟨r, rfl, by simp⟩
    | word m i => exact .inr (.inl ⟨m, i, rfl, by simp⟩)
    | unmapped => exact .inr (.inr ⟨rfl, by simp⟩)
  · left
    exact ⟨rfl, by simp⟩

/-- A word an address names is inside the depth of its memory. -/
theorem State.target_word_lt {s : State} {a : Addr} {m : MemName} {i : Nat} (h : s.target a = .word m i) :
    i < m.depth s.params := by
  unfold State.target at h
  split at h
  · rename_i hw
    rw [h] at hw
    simpa [Target.wf] using hw
  · exact absurd h (by simp)

end Sys2Proof.Machine
end

