-- ==== Sys2Proof/Laws/Exec.lean ====
section
/-! SUPPORT. What each command can do, said once (one inversion lemma per meaning), and what a step can do. -/

namespace Sys2Proof.Machine

/-! ### Lengths of the results -/

@[simp] theorem Plan.length_reversal (P : Plan) (xs : List Cpx) : (P.reversal xs).length = P.n := by
  simp [Plan.reversal]

@[simp] theorem Plan.length_scale (P : Plan) (xs : List Cpx) : (P.scale xs).length = xs.length := by
  simp [Plan.scale]

theorem ispow2_iff_log2 (n : Nat) : ispow2 n = true ↔ n ≠ 0 ∧ 2 ^ Nat.log2 n = n := by
  constructor
  · intro h
    simp only [ispow2, Bool.and_eq_true, bne_iff_ne, ne_eq, beq_iff_eq] at h
    refine ⟨h.1, ?_⟩
    have h1 := (Nat.and_sub_one_eq_zero_iff_isPowerOfTwo h.1).1 h.2
    obtain ⟨k, rfl⟩ := h1
    rw [Nat.log2_two_pow]
  · rintro ⟨h0, h⟩
    have : n.isPowerOfTwo := ⟨Nat.log2 n, h.symm⟩
    simp [ispow2, h0, (Nat.and_sub_one_eq_zero_iff_isPowerOfTwo h0).2 this]

theorem length_fftSeq {T : Trig} {e : Nat} {re : List F32} (h : ispow2 re.length = true) :
    (fftSeq T e re).length = re.length := by
  simp [fftSeq, Plan.transform, Plan.n, ((ispow2_iff_log2 _).1 h).2]

theorem length_ifftSeq {T : Trig} {e : Nat} {xs : List Cpx} (h : ispow2 xs.length = true) :
    (ifftSeq T e xs).length = xs.length := by
  simp [ifftSeq, Plan.transform, Plan.n, ((ispow2_iff_log2 _).1 h).2]

@[simp] theorem length_hannSeq (T : Trig) (e n : Nat) : (hannSeq T e n).length = n := by
  simp [hannSeq]

@[simp] theorem length_firSeq (T : Trig) (e : Nat) (fc : F32) (num : Nat) (win : List F32) :
    (firSeq T e fc num win).length = win.length := by
  simp [firSeq]

/-! ### Everything each command can do -/

theorem execClr_eq (s : State) : execClr s = .next s.acknowledge := rfl

/-- Everything `FFT` can do. -/
theorem execFft_cases (s : State) :
    (∃ e, s.transformError = some e ∧ execFft s = .next (s.raiseError e)) ∨
    (∃ A, s.transformError = none ∧ s.loadSeq .xr s.seqLen = .error A ∧
      execFft s = .fault (.noValue A)) ∨
    (∃ re, s.transformError = none ∧ s.loadSeq .xr s.seqLen = .ok re ∧ re.length = s.seqLen ∧
      (fftSeq Config.trig s.draws re).length = s.seqLen ∧
      execFft s = .next (s.storeCpx (fftSeq Config.trig s.draws re)).complete) := by
  unfold execFft
  cases he : s.transformError with
  | some e => exact .inl ⟨e, rfl, rfl⟩
  | none =>
    right
    cases hl : s.loadSeq .xr s.seqLen with
    | error A => exact .inl ⟨A, rfl, rfl, rfl⟩
    | ok re =>
      have hlen := ((s.loadSeq_eq_ok_iff _ _ _).1 hl).1
      have hp := ((s.transformError_eq_none_iff).1 he).1
      exact .inr ⟨re, rfl, rfl, hlen, by rw [length_fftSeq (by rwa [hlen]), hlen], rfl⟩

/-- Everything `IFFT` can do. -/
theorem execIfft_cases (s : State) :
    (∃ e, s.transformError = some e ∧ execIfft s = .next (s.raiseError e)) ∨
    (∃ A, s.transformError = none ∧
      (s.loadSeq .xr s.seqLen = .error A ∨
        (∃ re, s.loadSeq .xr s.seqLen = .ok re) ∧ s.loadSeq .xi s.seqLen = .error A) ∧
      execIfft s = .fault (.noValue A)) ∨
    (∃ re im, s.transformError = none ∧ s.loadSeq .xr s.seqLen = .ok re ∧ s.loadSeq .xi s.seqLen = .ok im ∧
      re.length = s.seqLen ∧ im.length = s.seqLen ∧
      (ifftSeq Config.trig s.draws (List.zipWith Cpx.mk re im)).length = s.seqLen ∧
      execIfft s = .next (s.storeCpx (ifftSeq Config.trig s.draws (List.zipWith Cpx.mk re im))).complete) := by
  unfold execIfft
  cases he : s.transformError with
  | some e => exact .inl ⟨e, rfl, rfl⟩
  | none =>
    right
    cases hr : s.loadSeq .xr s.seqLen with
    | error A => exact .inl ⟨A, rfl, .inl rfl, rfl⟩
    | ok re =>
      cases hi : s.loadSeq .xi s.seqLen with
      | error A => exact .inl ⟨A, rfl, .inr ⟨⟨re, rfl⟩, rfl⟩, rfl⟩
      | ok im =>
        have h1 := ((s.loadSeq_eq_ok_iff _ _ _).1 hr).1
        have h2 := ((s.loadSeq_eq_ok_iff _ _ _).1 hi).1
        have hp := ((s.transformError_eq_none_iff).1 he).1
        have hz : (List.zipWith Cpx.mk re im).length = s.seqLen := by simp [h1, h2]
        exact .inr ⟨re, im, rfl, rfl, rfl, h1, h2, by rw [length_ifftSeq (by rwa [hz]), hz], rfl⟩

/-- Everything `HANN` can do. -/
theorem execHann_cases (s : State) :
    (s.hannError = some .capacity ∧ execHann s = .next (s.raiseError .capacity)) ∨
    (s.hannError = none ∧ execHann s =
      .next { s.storeSeq .win (hannSeq Config.trig s.draws s.seqLen) with
        wlen := s.deliverReg .wlen s.len }.complete) := by
  unfold execHann
  obtain ⟨-, h⟩ | ⟨-, h⟩ := s.hannError_cases <;> simp [h]

/-- Everything `FIRLPF` can do. -/
theorem execFirlpf_cases (s : State) :
    (∃ e, s.firError = some e ∧ execFirlpf s = .next (s.raiseError e)) ∨
    (∃ A, s.firError = none ∧ s.loadSeq .win s.taps = .error A ∧ execFirlpf s = .fault (.noValue A)) ∨
    (∃ win, s.firError = none ∧ s.loadSeq .win s.taps = .ok win ∧ win.length = s.taps ∧
      execFirlpf s =
        .next { s.storeSeq .coef (firSeq Config.trig s.draws s.fc s.num.toNat win) with
          clen := s.deliverReg .clen (BitVec.ofNat 32 s.taps) }.complete) := by
  unfold execFirlpf
  cases he : s.firError with
  | some e => exact .inl ⟨e, rfl, rfl⟩
  | none =>
    right
    cases hl : s.loadSeq .win s.taps with
    | error A => exact .inl ⟨A, rfl, rfl, rfl⟩
    | ok win => exact .inr ⟨win, rfl, rfl, ((s.loadSeq_eq_ok_iff _ _ _).1 hl).1, rfl⟩

theorem execIirlpf_eq (s : State) :
    execIirlpf s = .next (s.storeBiquad (iirSeq Config.trig s.draws s.fc s.qf)).complete := rfl

/-! ### Everything a step can do -/

theorem State.seqTurn_idle {s : State} (h : s.seq = .idle) : s.seqTurn = .next s := by
  simp [State.seqTurn, h]

theorem State.seqTurn_command {s : State} {i : Instr} {b : Bool} (h : s.seq = .run (.command i) b) :
    s.seqTurn = exec i s := by
  simp [State.seqTurn, h]

theorem State.seqTurn_illegal {s : State} {w : Illegal} {b : Bool} (h : s.seq = .run (.illegal w) b) :
    s.seqTurn = .next (s.raiseError .illegalCmd) := by
  simp [State.seqTurn, h, State.rejectWord]

theorem step_nil {s : State} (h : s.script = []) : step s = s.seqTurn := by
  simp [step, h]

theorem step_pause {s : State} {rest : List HostOp} (h : s.script = .pause :: rest) :
    step s = State.seqTurn { s with script := rest } := by
  simp [step, h]

/-- What ends at once: an accepted `CLR` or an accepted illegal word (R61, R170). -/
theorem State.endsAtOnce_iff (s : State) :
    s.endsAtOnce = true ↔ s.status.busy = true ∧
      ((∃ b, s.seq = .run (.command .clr) b) ∨ ∃ w b, s.seq = .run (.illegal w) b) := by
  unfold State.endsAtOnce
  rcases s.seq with _ | ⟨i | w, b⟩
  · simp
  · cases i <;> simp [Decoded.endsAtOnce]
  · simp [Decoded.endsAtOnce]

theorem State.endsAtOnce_of_not_busy {s : State} (h : s.status.busy = false) : s.endsAtOnce = false := by
  simp [State.endsAtOnce, h]

/-- What ends at once never stops and needs no operand. -/
theorem State.seqTurn_of_endsAtOnce {s : State} (h : s.endsAtOnce = true) :
    s.seqTurn = .next s.acknowledge ∨ s.seqTurn = .next s.rejectWord := by
  obtain ⟨-, ⟨b, hs⟩ | ⟨w, b, hs⟩⟩ := s.endsAtOnce_iff.1 h
  · exact .inl (s.seqTurn_command hs)
  · exact .inr (s.seqTurn_illegal hs)

theorem step_read {s : State} {a : Addr} {rest : List HostOp} (h : s.script = .read a :: rest)
    (hn : s.endsAtOnce = false) : step s = State.hostRead { s with script := rest } a := by
  simp [step, h, hn]

theorem step_write {s : State} {a : Addr} {v : Word} {rest : List HostOp}
    (h : s.script = .write a v :: rest) (hn : s.endsAtOnce = false) :
    step s = .next (State.hostWrite { s with script := rest } a v) := by
  simp [step, h, hn]

/-- What ends at once comes before a host access; the access stays in the script. -/
theorem step_endsAtOnce {s : State} {op : HostOp} {rest : List HostOp} (h : s.script = op :: rest)
    (hop : op ≠ .pause ∧ op ≠ .reset) (he : s.endsAtOnce = true) : step s = s.seqTurn := by
  cases op with
  | read a => simp [step, h, he]
  | write a v => simp [step, h, he]
  | pause => exact absurd rfl hop.1
  | reset => exact absurd rfl hop.2

theorem step_reset {s : State} {rest : List HostOp} (h : s.script = .reset :: rest) :
    step s = .next (State.resetEvent { s with script := rest }) := by
  simp [step, h]

/-- Everything a step can do: the sequencer's turn, with a pause taken off the script; one host access, when
nothing that ends at once is pending; or a reset. -/
theorem step_cases (s : State) :
    (step s = State.seqTurn { s with script := if s.script.head? = some .pause then s.script.tail else s.script } ∧
      s.script.head? ≠ some .reset) ∨
    (∃ a rest, s.script = .read a :: rest ∧ s.endsAtOnce = false ∧
      step s = State.hostRead { s with script := rest } a) ∨
    (∃ a v rest, s.script = .write a v :: rest ∧ s.endsAtOnce = false ∧
      step s = .next (State.hostWrite { s with script := rest } a v)) ∨
    (∃ rest, s.script = .reset :: rest ∧ step s = .next (State.resetEvent { s with script := rest })) := by
  rcases h : s.script with _ | ⟨op, rest⟩
  · refine .inl ⟨?_, by simp⟩
    show step s = State.seqTurn { s with script := [] }
    rw [step_nil h, ← h]
  · cases op with
    | pause => exact .inl ⟨by simpa using step_pause h, by simp⟩
    | reset => exact .inr (.inr (.inr ⟨rest, rfl, step_reset h⟩))
    | read a =>
      cases he : s.endsAtOnce
      · exact .inr (.inl ⟨a, rest, rfl, rfl, step_read h he⟩)
      · refine .inl ⟨?_, by simp⟩
        show step s = State.seqTurn { s with script := .read a :: rest }
        rw [step_endsAtOnce h (by simp) he, ← h]
    | write a v =>
      cases he : s.endsAtOnce
      · exact .inr (.inr (.inl ⟨a, v, rest, rfl, rfl, step_write h he⟩))
      · refine .inl ⟨?_, by simp⟩
        show step s = State.seqTurn { s with script := .write a v :: rest }
        rw [step_endsAtOnce h (by simp) he, ← h]

end Sys2Proof.Machine
end

