-- ==== Sys2Proof/Laws/Fft.lean ====
section
/-! SUPPORT. The laws of the index scheme (R98, R112) and of the loops of R120: which positions a butterfly and
an exchange read and write, and that the loops see the first `n` positions only. -/

namespace Sys2Proof.Machine

theorem bitrev_lt (i L : Nat) : bitrev i L < 2 ^ L := by
  induction L generalizing i with
  | zero => exact Nat.one_pos
  | succ L ih =>
    have h := ih (i / 2)
    have hm : i % 2 * 2 ^ L ≤ 1 * 2 ^ L := Nat.mul_le_mul_right _ (by omega)
    rw [bitrev, Nat.pow_succ]
    omega

/-- A stage is made of `2^(s-1)` groups of twice the pair distance (R112). -/
theorem Plan.n_eq_groups (P : Plan) {s : Nat} (h1 : 1 ≤ s) (h2 : s ≤ P.limit) :
    P.n = 2 * P.half s * 2 ^ (s - 1) := by
  rw [Plan.n, Plan.half, Nat.mul_assoc, ← Nat.pow_add, ← Nat.pow_succ']
  congr 1
  omega

theorem Plan.mem_butterflies (P : Plan) (s : Nat) (ij : Nat × Nat) :
    ij ∈ P.butterflies s ↔ ij.1 < 2 ^ (s - 1) ∧ ij.2 < P.half s := by
  obtain ⟨i, j⟩ := ij
  simp [Plan.butterflies]

/-- Both positions of a butterfly are positions of the sequence (R112). -/
theorem Plan.butterfly_lt (P : Plan) {s : Nat} (h1 : 1 ≤ s) (h2 : s ≤ P.limit) {ij : Nat × Nat}
    (h : ij ∈ P.butterflies s) : 2 * P.half s * ij.1 + ij.2 + P.half s < P.n := by
  obtain ⟨hi, hj⟩ := (P.mem_butterflies s ij).1 h
  have hg := Nat.mul_le_mul_left (2 * P.half s) (Nat.succ_le_of_lt hi)
  rw [P.n_eq_groups h1 h2]
  rw [Nat.mul_succ] at hg
  omega

/-- Two sequences agree at the first `n` positions. -/
def AgreeBelow (n : Nat) (X Y : Nat → Cpx) : Prop := ∀ p < n, X p = Y p

/-- A fold keeps agreement if each of its steps does. -/
theorem AgreeBelow.foldl {α : Type} {n : Nat} {f : (Nat → Cpx) → α → Nat → Cpx} {as : List α}
    (hf : ∀ a ∈ as, ∀ X Y, AgreeBelow n X Y → AgreeBelow n (f X a) (f Y a)) {X Y : Nat → Cpx}
    (h : AgreeBelow n X Y) : AgreeBelow n (as.foldl f X) (as.foldl f Y) := by
  induction as generalizing X Y with
  | nil => exact h
  | cons a as ih =>
    exact ih (fun b hb => hf b (List.mem_cons_of_mem _ hb)) (hf a List.mem_cons_self _ _ h)

theorem AgreeBelow.bflyInPlace (P : Plan) {s : Nat} (h1 : 1 ≤ s) (h2 : s ≤ P.limit) {ij : Nat × Nat}
    (hij : ij ∈ P.butterflies s) {X Y : Nat → Cpx} (h : AgreeBelow P.n X Y) :
    AgreeBelow P.n (P.bflyInPlace s X ij) (P.bflyInPlace s Y ij) := by
  have hlt := P.butterfly_lt h1 h2 hij
  intro p hp
  simp only [Plan.bflyInPlace, h p hp, h _ (Nat.lt_of_le_of_lt (Nat.le_add_right _ _) hlt), h _ hlt]

theorem AgreeBelow.exchange (P : Plan) {i : Nat} (hi : i < P.n) {X Y : Nat → Cpx} (h : AgreeBelow P.n X Y) :
    AgreeBelow P.n (P.exchange X i) (P.exchange Y i) := by
  intro p hp
  unfold Plan.exchange
  split
  · simp only [h p hp, h i hi, h _ (bitrev_lt i P.limit)]
  · exact h p hp

/-- The loops read and write the first `n` positions only: what stands beyond them does not matter (R110). -/
theorem AgreeBelow.loops (P : Plan) {X Y : Nat → Cpx} (h : AgreeBelow P.n X Y) :
    AgreeBelow P.n (P.loops X) (P.loops Y) := by
  refine AgreeBelow.foldl (fun i hi X Y => AgreeBelow.exchange P (List.mem_range.1 hi)) ?_
  refine AgreeBelow.foldl (fun t ht X Y hXY => ?_) h
  exact AgreeBelow.foldl
    (fun ij hij X Y => AgreeBelow.bflyInPlace P (Nat.succ_le_succ (Nat.zero_le t)) (List.mem_range.1 ht) hij) hXY

end Sys2Proof.Machine
end

