-- ==== Sys2Proof/Laws/Numerics.lean ====
section
/-! SUPPORT. The laws of the format and of rounding: the fields of a pattern, of a packed pattern and of a
NaN result; what `roundEven` and `roundLow` give; and each primitive on the operands that need no rounding. -/

namespace Sys2Proof.Machine

/-! ### The fields of a pattern (R80) -/

theorem fexp_lt (a : F32) : fexp a < 256 := Nat.mod_lt _ (by decide)

theorem ffrac_lt (a : F32) : ffrac a < 2 ^ 23 := Nat.mod_lt _ (by decide)

/-- The sign bit is the top bit of the pattern's number. -/
theorem fsign_eq (a : F32) : fsign a = decide (2 ^ 31 ≤ a.toNat) := by
  have h : a.toNat < 2 ^ 32 := a.isLt
  rw [fsign, BitVec.getLsbD, Nat.testBit_eq_decide_div_mod_eq]
  congr 1
  rw [eq_iff_iff]
  omega

/-- A pattern is its sign, exponent and fraction. -/
theorem toNat_fields (a : F32) :
    a.toNat = (if fsign a then 2 ^ 31 else 0) + fexp a * 2 ^ 23 + ffrac a := by
  have h : a.toNat < 2 ^ 32 := a.isLt
  rw [fsign_eq, fexp, ffrac]
  by_cases hs : 2 ^ 31 ≤ a.toNat
  · simp only [hs, decide_true, if_true]
    omega
  · simp only [hs, decide_false]
    simp only [Bool.false_eq_true, if_false]
    omega

/-- Two patterns with the same sign, exponent and fraction are the same. -/
theorem eq_of_fields {a b : F32} (hs : fsign a = fsign b) (he : fexp a = fexp b)
    (hf : ffrac a = ffrac b) : a = b := by
  apply BitVec.eq_of_toNat_eq
  rw [toNat_fields a, toNat_fields b, hs, he, hf]

theorem toNat_pack {low : Nat} (neg : Bool) (h : low < 2 ^ 31) :
    (pack neg low).toNat = low + if neg then 2 ^ 31 else 0 := by
  rw [pack, BitVec.toNat_ofNat, Nat.mod_eq_of_lt]
  cases neg <;> simp only [Bool.false_eq_true, if_false, if_true] <;> omega

theorem fsign_pack {low : Nat} (neg : Bool) (h : low < 2 ^ 31) : fsign (pack neg low) = neg := by
  rw [fsign_eq, toNat_pack neg h]
  cases neg
  · simp only [Bool.false_eq_true, if_false, decide_eq_false_iff_not]
    omega
  · simp only [if_true, decide_eq_true_iff]
    omega

theorem fexp_pack {low : Nat} (neg : Bool) (h : low < 2 ^ 31) : fexp (pack neg low) = low / 2 ^ 23 := by
  rw [fexp, toNat_pack neg h]
  cases neg <;> simp only [Bool.false_eq_true, if_false, if_true] <;> omega

theorem ffrac_pack {low : Nat} (neg : Bool) (h : low < 2 ^ 31) : ffrac (pack neg low) = low % 2 ^ 23 := by
  rw [ffrac, toNat_pack neg h]
  cases neg <;> simp only [Bool.false_eq_true, if_false, if_true] <;> omega

/-- Every pattern is packed from its own fields. -/
theorem pack_fields (a : F32) : pack (fsign a) (fexp a * 2 ^ 23 + ffrac a) = a := by
  have he := fexp_lt a
  have hf := ffrac_lt a
  have h : fexp a * 2 ^ 23 + ffrac a < 2 ^ 31 := by omega
  refine eq_of_fields (fsign_pack _ h) ?_ ?_
  · rw [fexp_pack _ h]
    omega
  · rw [ffrac_pack _ h]
    omega

theorem isNaN_iff (a : F32) : isNaN a = true ↔ fexp a = 255 ∧ ffrac a ≠ 0 := by
  simp [isNaN]

theorem isInf_iff (a : F32) : isInf a = true ↔ fexp a = 255 ∧ ffrac a = 0 := by
  simp [isInf]

theorem isFinite_iff (a : F32) : isFinite a = true ↔ fexp a ≠ 255 := by
  simp [isFinite]

theorem isZero_iff (a : F32) : isZero a = true ↔ fexp a = 0 ∧ ffrac a = 0 := by
  simp [isZero]

theorem isNaN_false_of_finite {a : F32} (h : isFinite a = true) : isNaN a = false := by
  have := (isFinite_iff a).1 h
  simp [isNaN, this]

theorem isInf_false_of_finite {a : F32} (h : isFinite a = true) : isInf a = false := by
  have := (isFinite_iff a).1 h
  simp [isInf, this]

/-- A zero pattern is one of the two zeros. -/
theorem eq_fzero_of_isZero {a : F32} (h : isZero a = true) : a = fzero (fsign a) := by
  obtain ⟨he, hf⟩ := (isZero_iff a).1 h
  have := pack_fields a
  rw [he, hf] at this
  exact this.symm

theorem magnitude_eq_zero_iff (a : F32) : magnitude a = 0 ↔ isZero a = true := by
  rw [isZero_iff, magnitude]
  by_cases he : fexp a = 0
  · simp [he]
  · simp [he]

@[simp] theorem fsign_fzero (neg : Bool) : fsign (fzero neg) = neg := fsign_pack neg (by decide)

@[simp] theorem fsign_finf (neg : Bool) : fsign (finf neg) = neg := fsign_pack neg (by decide)

@[simp] theorem isZero_fzero (neg : Bool) : isZero (fzero neg) = true := by cases neg <;> decide

@[simp] theorem isInf_finf (neg : Bool) : isInf (finf neg) = true := by cases neg <;> decide

/-! ### Negation (R89) -/

theorem toNat_fneg (a : F32) : (fneg a).toNat = if fsign a then a.toNat - 2 ^ 31 else a.toNat + 2 ^ 31 := by
  have h : a.toNat < 2 ^ 32 := a.isLt
  have hx : (fneg a).toNat = a.toNat ^^^ 2 ^ 31 := by simp [fneg]
  rw [hx, fsign_eq]
  have key : a.toNat ^^^ 2 ^ 31 = (a.toNat / 2 ^ 31 ^^^ 1) * 2 ^ 31 + a.toNat % 2 ^ 31 := by
    have h1 : (a.toNat ^^^ 2 ^ 31) / 2 ^ 31 = a.toNat / 2 ^ 31 ^^^ 1 := by
      rw [← Nat.shiftRight_eq_div_pow, Nat.shiftRight_xor_distrib, Nat.shiftRight_eq_div_pow]
      rfl
    have h2 : (a.toNat ^^^ 2 ^ 31) % 2 ^ 31 = a.toNat % 2 ^ 31 := by
      rw [Nat.xor_mod_two_pow]
      simp
    have := Nat.div_add_mod (a.toNat ^^^ 2 ^ 31) (2 ^ 31)
    omega
  rw [key]
  by_cases hs : 2 ^ 31 ≤ a.toNat
  · have hd : a.toNat / 2 ^ 31 = 1 := by omega
    simp only [hs, decide_true, if_true, hd]
    rw [show (1 : Nat) ^^^ 1 = 0 from rfl]
    omega
  · have hd : a.toNat / 2 ^ 31 = 0 := by omega
    simp only [hs, decide_false, hd]
    simp only [Bool.false_eq_true, if_false]
    rw [show (0 : Nat) ^^^ 1 = 1 from rfl]
    omega

@[simp] theorem fsign_fneg (a : F32) : fsign (fneg a) = !fsign a := by
  have h : a.toNat < 2 ^ 32 := a.isLt
  rw [fsign_eq (fneg a), toNat_fneg]
  cases hs : fsign a
  · simp only [Bool.false_eq_true, if_false, Bool.not_false, decide_eq_true_iff]
    omega
  · simp only [if_true, Bool.not_true, decide_eq_false_iff_not]
    omega

@[simp] theorem fexp_fneg (a : F32) : fexp (fneg a) = fexp a := by
  have hs := fsign_eq a
  rw [fexp, fexp, toNat_fneg]
  cases h : fsign a
  · simp only [Bool.false_eq_true, if_false]
    omega
  · rw [h] at hs
    have := of_decide_eq_true hs.symm
    simp only [if_true]
    omega

@[simp] theorem ffrac_fneg (a : F32) : ffrac (fneg a) = ffrac a := by
  have hs := fsign_eq a
  rw [ffrac, ffrac, toNat_fneg]
  cases h : fsign a
  · simp only [Bool.false_eq_true, if_false]
    omega
  · rw [h] at hs
    have := of_decide_eq_true hs.symm
    simp only [if_true]
    omega

@[simp] theorem isNaN_fneg (a : F32) : isNaN (fneg a) = isNaN a := by simp [isNaN]

@[simp] theorem isInf_fneg (a : F32) : isInf (fneg a) = isInf a := by simp [isInf]

@[simp] theorem isFinite_fneg (a : F32) : isFinite (fneg a) = isFinite a := by simp [isFinite]

@[simp] theorem isZero_fneg (a : F32) : isZero (fneg a) = isZero a := by simp [isZero]

@[simp] theorem magnitude_fneg (a : F32) : magnitude (fneg a) = magnitude a := by simp [magnitude]

@[simp] theorem scaledValue_fneg (a : F32) : scaledValue (fneg a) = -scaledValue a := by
  cases h : fsign a <;> simp [scaledValue, h]

/-! ### Which NaN (R86) -/

theorem getLsbD_nanResult (k : Site) (i : Nat) (h1 : 22 ≤ i) (h2 : i < 31) :
    (nanResult k).getLsbD i = true := by
  have h : i = 22 ∨ i = 23 ∨ i = 24 ∨ i = 25 ∨ i = 26 ∨ i = 27 ∨ i = 28 ∨ i = 29 ∨ i = 30 := by omega
  rw [nanResult, BitVec.getLsbD_or]
  have : (0x7FC00000 : BitVec 32).getLsbD i = true := by
    rcases h with h | h | h | h | h | h | h | h | h <;> subst h <;> decide
  rw [this, Bool.or_true]

theorem fexp_nanResult (k : Site) : fexp (nanResult k) = 255 := by
  have key : ∀ i < 8, (fexp (nanResult k)).testBit i = (255 : Nat).testBit i := by
    intro i hi
    rw [fexp, Nat.testBit_mod_two_pow, Nat.testBit_div_two_pow]
    have := getLsbD_nanResult k (i + 23) (by omega) (by omega)
    rw [BitVec.getLsbD] at this
    rw [this]
    have h : i = 0 ∨ i = 1 ∨ i = 2 ∨ i = 3 ∨ i = 4 ∨ i = 5 ∨ i = 6 ∨ i = 7 := by omega
    rcases h with h | h | h | h | h | h | h | h <;> subst h <;> decide
  apply Nat.eq_of_testBit_eq
  intro i
  by_cases hi : i < 8
  · exact key i hi
  · have h1 : fexp (nanResult k) < 2 ^ i :=
      Nat.lt_of_lt_of_le (fexp_lt _) (Nat.pow_le_pow_right (n := 2) (by decide) (Nat.le_of_not_lt hi))
    have h2 : 255 < 2 ^ i :=
      Nat.lt_of_lt_of_le (by decide : 255 < 2 ^ 8) (Nat.pow_le_pow_right (by decide) (Nat.le_of_not_lt hi))
    rw [Nat.testBit_lt_two_pow h1, Nat.testBit_lt_two_pow h2]

theorem ffrac_nanResult_ne_zero (k : Site) : ffrac (nanResult k) ≠ 0 := by
  intro h
  have h1 : (ffrac (nanResult k)).testBit 22 = true := by
    rw [ffrac, Nat.testBit_mod_two_pow]
    have := getLsbD_nanResult k 22 (by decide) (by decide)
    rw [BitVec.getLsbD] at this
    simp [this]
  rw [h] at h1
  exact absurd h1 (by decide)

@[simp] theorem isNaN_nanResult (k : Site) : isNaN (nanResult k) = true :=
  (isNaN_iff _).2 ⟨fexp_nanResult k, ffrac_nanResult_ne_zero k⟩

/-! ### Rounding (R81) -/

/-- `roundEven n d` is at most half a unit from `n / d`, and even where it is exactly half a unit away. -/
theorem roundEven_spec {n d : Nat} (hd : 0 < d) :
    2 * n ≤ (2 * roundEven n d + 1) * d ∧ 2 * roundEven n d * d ≤ 2 * n + d ∧
      ((2 * n = (2 * roundEven n d + 1) * d ∨ 2 * roundEven n d * d = 2 * n + d) →
        roundEven n d % 2 = 0) := by
  have hm := Nat.mod_lt n hd
  have hn := Nat.div_add_mod n d
  have e1 : (2 * (n / d) + 1) * d = 2 * (d * (n / d)) + d := by ring
  have e2 : (2 * (n / d + 1) + 1) * d = 2 * (d * (n / d)) + 3 * d := by ring
  have e3 : 2 * (n / d) * d = 2 * (d * (n / d)) := by ring
  have e4 : 2 * (n / d + 1) * d = 2 * (d * (n / d)) + 2 * d := by ring
  unfold roundEven
  split
  · rename_i h
    rw [e2, e4]
    refine ⟨by omega, by omega, fun h' => ?_⟩
    rcases h with h | ⟨h, hq⟩ <;> omega
  · rename_i h
    rw [e1, e3]
    refine ⟨by omega, by omega, fun h' => ?_⟩
    omega

/-- An exact quotient is left as it is. -/
theorem roundEven_mul_right {q d : Nat} (hd : 0 < d) : roundEven (q * d) d = q := by
  unfold roundEven
  rw [Nat.mul_mod_left, Nat.mul_div_cancel _ hd, if_neg]
  omega

/-- A common factor of numerator and denominator does not matter. -/
theorem roundEven_mul_mul (n d : Nat) {c : Nat} (hc : 0 < c) : roundEven (n * c) (d * c) = roundEven n d := by
  have c1 : d * c < 2 * (n % d * c) ↔ d < 2 * (n % d) := by
    rw [← Nat.mul_assoc]
    exact Nat.mul_lt_mul_right hc
  have c2 : 2 * (n % d * c) = d * c ↔ 2 * (n % d) = d := by
    rw [← Nat.mul_assoc]
    exact Nat.mul_left_inj (by omega)
  unfold roundEven
  simp only [Nat.mul_mod_mul_right, Nat.mul_div_mul_right _ _ hc, c1, c2]

/-- Rounding a fraction does not depend on how the fraction is written. -/
theorem roundLow_mul_mul (p d : Nat) {c : Nat} (hc : 0 < c) : roundLow (p * c) (d * c) = roundLow p d := by
  have h : p * c * 2 ^ 149 / (d * c) = p * 2 ^ 149 / d := by
    rw [Nat.mul_right_comm, Nat.mul_div_mul_right _ _ hc]
  rw [roundLow, roundLow, h, Nat.mul_right_comm p, Nat.mul_right_comm d, roundEven_mul_mul _ _ hc]

/-- The magnitude of a finite pattern rounds to the pattern. -/
theorem fl32_magnitude {a : F32} (h : isFinite a = true) (neg : Bool) :
    fl32 neg (magnitude a) (2 ^ 149) = pack neg (fexp a * 2 ^ 23 + ffrac a) := by
  have he := fexp_lt a
  have hf := ffrac_lt a
  have hn := (isFinite_iff a).1 h
  rw [fl32, roundLow]
  congr 1
  rw [Nat.mul_div_cancel _ (by positivity)]
  have hinf : fexp a * 2 ^ 23 + ffrac a ≤ infLow := by
    unfold infLow
    omega
  by_cases he0 : fexp a = 0
  · have hs : roundShift (magnitude a) = 0 := by
      rw [roundShift, if_pos]
      rw [magnitude, if_pos he0]
      omega
    rw [hs, Nat.pow_zero, Nat.mul_one, roundEven_mul_right (by positivity), magnitude, if_pos he0]
    omega
  · have hm : magnitude a = (2 ^ 23 + ffrac a) * 2 ^ (fexp a - 1) := by rw [magnitude, if_neg he0]
    have hs : roundShift (magnitude a) = fexp a - 1 := by
      rw [roundShift, hm]
      by_cases h1 : fexp a = 1
      · rw [if_pos]
        · omega
        · rw [h1, Nat.sub_self, Nat.pow_zero]
          omega
      · have hlog : Nat.log2 ((2 ^ 23 + ffrac a) * 2 ^ (fexp a - 1)) = 23 + (fexp a - 1) := by
          rw [Nat.log2_eq_iff (by positivity)]
          constructor
          · rw [Nat.pow_add]
            exact Nat.mul_le_mul_right _ (by omega)
          · rw [show 23 + (fexp a - 1) + 1 = 24 + (fexp a - 1) by omega, Nat.pow_add]
            exact Nat.mul_lt_mul_of_pos_right (by omega) (by positivity)
        rw [if_neg, hlog]
        · omega
        · have : 2 ^ 1 ≤ 2 ^ (fexp a - 1) := Nat.pow_le_pow_right (by decide) (by omega)
          have := Nat.mul_le_mul (Nat.le_add_right (2 ^ 23) (ffrac a)) this
          omega
    rw [hs, hm, show (2 ^ 23 + ffrac a) * 2 ^ (fexp a - 1) * 2 ^ 149 =
      (2 ^ 23 + ffrac a) * (2 ^ 149 * 2 ^ (fexp a - 1)) by ring, roundEven_mul_right (by positivity)]
    omega

/-- Rounding the exact value of a finite pattern gives the pattern back. -/
theorem fl32_self {a : F32} (h : isFinite a = true) : fl32 (fsign a) (magnitude a) (2 ^ 149) = a := by
  rw [fl32_magnitude h, pack_fields]

@[simp] theorem fl32_zero (neg : Bool) (d : Nat) : fl32 neg 0 d = fzero neg := by
  have h : roundEven 0 (d * 2 ^ 0) = 0 := by
    unfold roundEven
    rw [Nat.zero_mod, Nat.zero_div, if_neg]
    omega
  rw [fl32, fzero, roundLow, Nat.zero_mul, Nat.zero_div]
  have hs : roundShift 0 = 0 := by decide
  rw [hs, h]
  rfl

/-! ### The primitives on a NaN (R85, R86) -/

theorem fadd_of_isNaN (k : Site) {a b : F32} (h : isNaN a = true ∨ isNaN b = true) :
    fadd k a b = nanResult k := by
  rcases h with h | h <;> simp [fadd, h]

theorem fsub_of_isNaN (k : Site) {a b : F32} (h : isNaN a = true ∨ isNaN b = true) :
    fsub k a b = nanResult k := fadd_of_isNaN k (by simpa using h)

theorem fmul_of_isNaN (k : Site) {a b : F32} (h : isNaN a = true ∨ isNaN b = true) :
    fmul k a b = nanResult k := by
  rcases h with h | h <;> simp [fmul, h]

theorem fdiv_of_isNaN (k : Site) {a b : F32} (h : isNaN a = true ∨ isNaN b = true) :
    fdiv k a b = nanResult k := by
  rcases h with h | h <;> simp [fdiv, h]

/-! ### The primitives on finite operands (R81) -/

theorem fadd_of_finite (k : Site) {a b : F32} (ha : isFinite a = true) (hb : isFinite b = true) :
    fadd k a b =
      if scaledValue a + scaledValue b = 0 then fzero (fsign a && fsign b)
      else fl32 (decide (scaledValue a + scaledValue b < 0)) (scaledValue a + scaledValue b).natAbs
        (2 ^ 149) := by
  simp [fadd, isNaN_false_of_finite, isInf_false_of_finite, ha, hb]

theorem fmul_of_finite (k : Site) {a b : F32} (ha : isFinite a = true) (hb : isFinite b = true) :
    fmul k a b = fl32 (fsign a != fsign b) (magnitude a * magnitude b) (2 ^ 149 * 2 ^ 149) := by
  simp [fmul, isNaN_false_of_finite, isInf_false_of_finite, ha, hb]

theorem fdiv_of_finite (k : Site) {a b : F32} (ha : isFinite a = true) (hb : isFinite b = true)
    (hz : isZero b = false) : fdiv k a b = fl32 (fsign a != fsign b) (magnitude a) (magnitude b) := by
  simp [fdiv, isNaN_false_of_finite, isInf_false_of_finite, ha, hb, hz]

/-- Adding either zero to a nonzero finite value leaves it (R88). -/
theorem fadd_zero_right (k : Site) {a b : F32} (ha : isFinite a = true) (hz : isZero a = false)
    (hb : isZero b = true) : fadd k a b = a := by
  have hm : magnitude b = 0 := (magnitude_eq_zero_iff b).2 hb
  have hbf : isFinite b = true := by
    rw [isFinite_iff, ((isZero_iff b).1 hb).1]
    decide
  have hv : scaledValue b = 0 := by simp [scaledValue, hm]
  have hma : magnitude a ≠ 0 := fun h => by
    rw [(magnitude_eq_zero_iff a).1 h] at hz
    exact absurd hz (by decide)
  have hva : scaledValue a ≠ 0 := by
    rw [scaledValue]
    cases fsign a <;> simp [hma]
  rw [fadd_of_finite k ha hbf, hv, Int.add_zero, if_neg hva]
  have h1 : decide (scaledValue a < 0) = fsign a := by
    rw [scaledValue]
    cases fsign a
    · simp
    · simp only [if_true, decide_eq_true_iff]
      omega
  have h2 : (scaledValue a).natAbs = magnitude a := by
    rw [scaledValue]
    cases fsign a <;> simp
  rw [h1, h2, fl32_self ha]

/-- Multiplying a finite value by 1.0 leaves it (R156 uses it for the centre tap). -/
theorem fmul_one_right (k : Site) {a : F32} (ha : isFinite a = true) : fmul k a ONE = a := by
  have h1 : isFinite ONE = true := by decide
  have hm : magnitude ONE = 2 ^ 149 := by decide
  have hs : fsign ONE = false := by decide
  rw [fmul_of_finite k ha h1, hm, hs]
  rw [Bool.bne_false, fl32, roundLow_mul_mul _ _ (by positivity), ← fl32, fl32_self ha]

end Sys2Proof.Machine
end

