-- ==== Sys2Proof/Laws/PerInstr.lean ====
section
/-! SUPPORT. Laws stated for each command: the shape of its encoding (R60, R62, R63, R66). -/

namespace Sys2Proof.Laws.EncodingShape

/-- The command is well-formed as it stands, its word has a zero reserved field and its opcode in the low
byte, and the word is one the table of R62 lists. -/
def Statement (i : Instr) : Prop :=
  i.wf = true ∧ rsvField (encode i) = 0 ∧ opField (encode i) = opcode i ∧ commandWordWf (encode i) = true

theorem clr : Statement .clr := by unfold Statement; decide

theorem fft : Statement .fft := by unfold Statement; decide

theorem ifft : Statement .ifft := by unfold Statement; decide

theorem hann : Statement .hann := by unfold Statement; decide

theorem firlpf : Statement .firlpf := by unfold Statement; decide

theorem iirlpf : Statement .iirlpf := by unfold Statement; decide

end Sys2Proof.Laws.EncodingShape
end

