-- ==== Sys2Proof/Tests/Slice0.lean ====
section
/-! SUPPORT. The model's own tests. Expected values come from spec/95_test_vectors.md (the section is named)
or from the rule named; the witnesses at the end show that the hypotheses of each obligation can be met. -/

namespace Sys2Proof.Tests

open Sys2Proof Sys2Proof.Machine

set_option Elab.async false

/-! ### Helpers -/

/-- The state a step leads to, if it gives one. -/
def nextOf : Host.Outcome State Fault Refusal → Option State
  | .next t => some t
  | .fault _ => none
  | .refused _ => none

theorem exists_next {o : Host.Outcome State Fault Refusal} (h : (nextOf o).isSome = true) :
    ∃ t, o = .next t := by
  cases o with
  | next t => exact ⟨t, rfl⟩
  | fault _ => cases h
  | refused _ => cases h

/-- A block with memories of four words each, right after reset. -/
def small : State := { State.reset with params := ⟨⟨2, by decide⟩, ⟨3, by decide⟩⟩ }

/-- Words loaded from index 0 of a memory on. -/
def put (m : MemName) (ws : List Word) (s : State) : State :=
  { s with mem := s.mem.writeWords (m.wordAddr 0) ws }

/-- The host's next action. -/
def does (op : HostOp) (s : State) : State := { s with script := [op] }

/-- The sequencer running a command. -/
def running (i : Instr) (s : State) : State :=
  { s with seq := .run (.command i) false, status := s.status.accepted }

/-- The same, after the host has broken the busy rule. -/
def disturbed (i : Instr) (s : State) : State :=
  { s with seq := .run (.command i) true, status := s.status.accepted.hazarded }

/-- A trigonometric function given by a table of patterns (0 elsewhere). -/
def table (l : List (Nat × Nat)) (x : F32) : F32 := BitVec.ofNat 32 ((l.lookup x.toNat).getD 0)

/-- Values of `REF_CR` (spec/95, sections 3.1 to 3.4; 42_hann.md R145; 43_fir.md, worked example). -/
def ref : Trig where
  cosRaw := table [(0x3FC90FDB, 0xB33BBD2E), (0x4096CBE4, 0x324CDE2E), (0x4016CBE4, 0xBF3504F3),
    (0x40490FDB, 0xBF800000)]
  sinRaw := table [(0x3FC90FDB, 0x3F800000), (0xBFC90FDB, 0xBF800000), (0x40490FDB, 0xB3BBBD2E),
    (0xC0490FDB, 0x33BBBD2E)]
  tanRaw := table [(0x3F490FDB, 0x3F800000), (0x3EA0D97C, 0x3EA65BE0)]

/-- A site for operations whose result is no NaN. -/
def k0 : Site := ⟨0, 0, 0, 0⟩

/-! ### Well-formedness -/

theorem test_wf_refuses_opcode_above_five : commandWordWf 0x00000006 = false := by decide

theorem test_wf_refuses_reserved_field : commandWordWf 0x00000100 = false := by decide

theorem test_wf_accepts_the_last_command : commandWordWf 0x00000005 = true := by decide

theorem test_wf_refuses_register_offset_16 : HostOp.wf .suggested (.read 0x0000010) = false := by decide

theorem test_wf_refuses_word_beyond_depth :
    HostOp.wf .suggested (.write 0x1001000 0) = false ∧ HostOp.wf .suggested (.write 0x1000FFF 0) = true := by
  decide

theorem test_wf_refuses_region_5 : HostOp.wf .suggested (.read 0x5000000) = false := by decide

theorem test_wf_target : Target.wf .suggested .unmapped = false ∧ Target.wf .suggested (.word .coef 4096) = false ∧
    Target.wf .suggested (.reg .cap) = true := by decide

theorem test_wf_pause_reset : HostOp.wf .suggested .pause = true ∧ HostOp.wf .suggested .reset = true := by decide

/-! ### Decoding (R62, spec/95 section 3.5) -/

theorem test_decode_clr : decode 0b00000000000000000000000000000000 = .command .clr := by decide

theorem test_decode_fft : decode 0b00000000000000000000000000000001 = .command .fft := by decide

theorem test_decode_ifft : decode 0b00000000000000000000000000000010 = .command .ifft := by decide

theorem test_decode_hann : decode 0b00000000000000000000000000000011 = .command .hann := by decide

theorem test_decode_firlpf : decode 0b00000000000000000000000000000100 = .command .firlpf := by decide

theorem test_decode_iirlpf : decode 0b00000000000000000000000000000101 = .command .iirlpf := by decide

theorem test_decode_reserved_opcodes :
    decode 0x00000006 = .illegal .reservedOpcode ∧ decode 0x000000FF = .illegal .reservedOpcode := by decide

theorem test_decode_reserved_field :
    decode 0x00000100 = .illegal .reservedField ∧ decode 0x00010001 = .illegal .reservedField ∧
    decode 0x80000001 = .illegal .reservedField ∧ decode 0xFFFFFFFF = .illegal .reservedField := by decide

theorem test_decodeTableWord :
    decodeTableWord 32 0 = some .clr ∧ decodeTableWord 32 5 = some .iirlpf ∧ decodeTableWord 8 3 = some .hann ∧
    decodeTableWord 32 6 = none ∧ decodeTableWord 32 0x101 = none := by decide

/-- spec/95 section 3.7. -/
theorem test_addresses :
    MemName.xr.addr 5 = 0x1000005 ∧ MemName.xi.addr 5 = 0x2000005 ∧ MemName.win.addr 5 = 0x3000005 ∧
    MemName.coef.addr 5 = 0x4000005 ∧ Reg.cmd.addr = 0x0000000 ∧ Reg.clen.addr = 0x0000007 ∧
    Reg.a0.addr = 0x0000008 ∧ Reg.cap.addr = 0x000000F := by decide

/-- The bytes of a word (spec/95 section 3.7): `00 00 80 3F` from byte address `0x8000014`. -/
theorem test_byte_view :
    Memory.writeWord [] 0x2000005 0x3F800000 =
      [(0x8000014, 0x00), (0x8000015, 0x00), (0x8000016, 0x80), (0x8000017, 0x3F)] := by decide +kernel

/-! ### Numerics (spec/95 section 3.1) -/

theorem test_rounding :
    fadd k0 0x3F800000 0x33800000 = 0x3F800000 ∧ fadd k0 0x3F800001 0x33800000 = 0x3F800002 ∧
    fadd k0 0x3F800000 0x33C00000 = 0x3F800001 ∧ fdiv k0 0x3F800000 0x40400000 = 0x3EAAAAAB ∧
    fdiv k0 0x40000000 0x40400000 = 0x3F2AAAAB ∧ fmul k0 TWO PI = TWO_PI ∧
    fmul k0 TWO_PI TWO_PI = 0x421DE9E7 := by decide +kernel

theorem test_subnormals_and_overflow :
    fmul k0 0x00800000 HALF = 0x00400000 ∧ fmul k0 0x00000003 HALF = 0x00000002 ∧
    fmul k0 0x00000001 HALF = 0x00000000 ∧ fadd k0 0x7F7FFFFF 0x7F7FFFFF = 0x7F800000 := by decide +kernel

theorem test_division_by_zero :
    fdiv k0 ONE 0x00000000 = 0x7F800000 ∧ fdiv k0 0xBF800000 0x00000000 = 0xFF800000 ∧
    fdiv k0 ONE 0x80000000 = 0xFF800000 := by decide +kernel

theorem test_signed_zeros :
    fsub k0 0x3FC00000 0x3FC00000 = 0x00000000 ∧ fadd k0 0x80000000 0x80000000 = 0x80000000 ∧
    fsub k0 0x80000000 0x00000000 = 0x80000000 ∧ fadd k0 0x00000000 0x80000000 = 0x00000000 ∧
    fsub k0 0x80000000 0x80000000 = 0x00000000 ∧ fmul k0 0xC0000000 0x00000000 = 0x80000000 ∧
    fdiv k0 0x00000000 0xC0800000 = 0x80000000 := by decide +kernel

theorem test_invalid_operations :
    isNaN (fdiv k0 0 0) = true ∧ isNaN (fmul k0 0 0x7F800000) = true ∧
    isNaN (fsub k0 0x7F800000 0x7F800000) = true :=
  ⟨isNaN_nanResult k0, isNaN_nanResult k0, isNaN_nanResult k0⟩

theorem test_fneg_u2f :
    fneg 0x00000000 = 0x80000000 ∧ fneg 0x7FC00001 = 0xFFC00001 ∧ u2f 0 = 0x00000000 ∧ u2f 3 = 0x40400000 ∧
    u2f 4096 = 0x45800000 ∧ u2f 16777215 = 0x4B7FFFFF ∧ u2f 16777216 = 0x4B800000 := by decide +kernel

theorem test_integers :
    [0, 1, 2, 3, 6, 4096, 4097, 0x80000000, 0xFFFFFFFF].map ispow2 =
      [false, true, true, false, false, true, false, true, false] ∧
    (List.range 8).map (fun i => bitrev i 3) = [0, 4, 2, 6, 1, 5, 3, 7] := by decide +kernel

theorem test_trig_zero :
    COS ref k0 0x80000000 = 0x3F800000 ∧ SIN ref k0 0x80000000 = 0x80000000 ∧
    TAN ref k0 0x80000000 = 0x80000000 := by decide

/-! ### The kernels under REF_CR (spec/95 sections 3.2 to 3.4; 41_fft.md section 8) -/

theorem test_fft_1234 :
    fftSeq ref 0 [0x3F800000, 0x40000000, 0x40400000, 0x40800000] =
      [⟨0x41200000, 0x00000000⟩, ⟨0xBFFFFFFF, 0x40000000⟩, ⟨0xC0000000, 0x00000000⟩,
        ⟨0xC0000000, 0xC0000000⟩] := by decide +kernel

theorem test_ifft_0400 :
    ifftSeq ref 0 [⟨0, 0⟩, ⟨0x40800000, 0⟩, ⟨0, 0⟩, ⟨0, 0⟩] =
      [⟨0x3F800000, 0x00000000⟩, ⟨0xB33BBD2E, 0x3F800000⟩, ⟨0xBF800000, 0x00000000⟩,
        ⟨0x333BBD2E, 0xBF800000⟩] := by decide +kernel

theorem test_hann_2 : hannSeq ref 0 2 = [0x00000000, 0x3F000000] := by decide +kernel

theorem test_hann_4_odd_offset :
    hannWeight ref 0 4 1 = 0x3F5A827A ∧ hannWeight ref 0 4 2 = 0x3F800000 := by decide +kernel

theorem test_fir_hann5 :
    firSeq ref 0 0x3E800000 4 [0x00000000, 0x3F278DDF, 0x3F678DDF, 0x3F278DDC, 0x3EB0E441] =
      [0x80000000, 0x3E55562C, 0x3EE78DDF, 0x3E555628, 0xB1A52B96] := by decide +kernel

theorem test_fir_odd_num :
    firCoef ref 0 0x3E800000 3 0 ONE = 0x3EA2F983 ∧ firCoef ref 0 0x3E800000 3 3 ONE = 0xB26F0965 := by
  decide +kernel

theorem test_iir_literal_a2 :
    iirSeq ref 0 0x3DCCCCCD 0x3F3504F3 =
      ⟨0x3F800000, 0xBF924D2F, 0x3F1BA293, 0x3D8A25FE, 0x3E0A25FE, 0x3D8A25FE⟩ := by decide +kernel

theorem test_iir_quarter :
    iirSeq ref 0 0x3E800000 0x3F800000 =
      ⟨0x3F800000, 0xB3AAAAAB, 0x3EAAAAA9, 0x3EAAAAA9, 0x3F2AAAA9, 0x3EAAAAA9⟩ := by decide +kernel

/-- `QF = +0` (spec/95 section 3.4, corner vectors). -/
theorem test_iir_zero_q :
    iirSeq ref 0 0x3E800000 0x00000000 = ⟨0x3F800000, 0x80000000, 0xFF800000, 0, 0, 0⟩ := by decide +kernel

/-! ### One step each (spec/95 sections 3.2, 3.5) -/

theorem test_clr_clears_error :
    (nextOf (exec .clr { small with status := Status.zero.raised .invalidLength })).map
      (fun t => t.status.word) = some 0x00000000 := by decide +kernel

theorem test_fft_length_one :
    (nextOf (exec .fft { put .xr [0x80000000] small with len := 1 })).map
      (fun t => (t.status.word, t.wordAt .xr 0, t.wordAt .xi 0)) =
    some (0x00000002, some 0x80000000, some 0x00000000) := by decide +kernel

theorem test_fft_length_three :
    (nextOf (exec .fft { small with len := 3 })).map (fun t => t.status.word) = some 0x00000106 := by
  decide +kernel

theorem test_ifft_length_one :
    (nextOf (exec .ifft { put .xi [0xC0A00000] (put .xr [0x40400000] small) with len := 1 })).map
      (fun t => (t.status.word, t.wordAt .xr 0, t.wordAt .xi 0)) =
    some (0x00000002, some 0x40400000, some 0xC0A00000) := by decide +kernel

theorem test_ifft_capacity :
    (nextOf (exec .ifft { small with len := 0x80000000 })).map (fun t => t.status.word) = some 0x00000306 := by
  decide +kernel

theorem test_hann_length_one :
    (nextOf (exec .hann { small with len := 1 })).map
      (fun t => (t.status.word, t.wlen, t.wordAt .win 0, t.wordAt .win 1)) =
    some (0x00000002, 1, some 0x00000000, none) := by decide +kernel

theorem test_hann_capacity :
    (nextOf (exec .hann { small with len := 5 })).map (fun t => (t.status.word, t.wlen)) =
      some (0x00000306, 0) := by decide +kernel

theorem test_firlpf_one_tap :
    (nextOf (exec .firlpf { put .win [0x3F000000] small with wlen := 1, fc := 0x3E800000 })).map
      (fun t => (t.status.word, t.clen, t.wordAt .coef 0)) =
    some (0x00000002, 1, some 0x3E800000) := by decide +kernel

theorem test_firlpf_shape_before_capacity :
    (nextOf (exec .firlpf { small with num := 5000, wlen := 7 })).map (fun t => t.status.word) =
      some 0x00000206 := by decide +kernel

theorem test_iirlpf_zero_cutoff :
    (nextOf (exec .iirlpf { small with qf := 0x3F800000 })).map
      (fun t => [t.a0, t.a1, t.a2, t.b0, t.b1, t.b2]) =
    some [0x3F800000, 0xC0000000, 0x3F800000, 0, 0, 0] := by decide +kernel

theorem test_iirlpf_keeps_hazard :
    (nextOf (exec .iirlpf { small with
      qf := 0x3F800000, status := Status.zero.hazarded.accepted })).map (fun t => t.status.word) =
    some 0x0000000A := by decide +kernel

theorem test_illegal_word :
    (nextOf (step (State.reset.accept 0x00000100))).map (fun t => (t.status.word, t.cmd)) =
      some (0x00000406, 0x00000100) := by decide +kernel

/-- R170 and spec/95, program P4: a read of `STATUS` after `CLR` finds `CLR` completed; the read waits. -/
theorem test_clr_completes_at_once :
    (nextOf (step (does (.read 0x0000001) (running .clr small)))).map
      (fun t => (t.status.word, t.script, t.record)) =
    some (0x00000000, [.read 0x0000001], []) := by decide +kernel

/-- R61: an illegal word ends at once; the access after it waits and sets no `HZ`. -/
theorem test_illegal_word_ends_at_once :
    (nextOf (step (does (.write 0x0000000 1) (small.accept 0x00000006)))).map
      (fun t => (t.status.word, t.script, t.cmd)) =
    some (0x00000406, [.write 0x0000000 1], 6) := by decide +kernel

/-- R221: any other command may be found running. -/
theorem test_poll_finds_busy :
    (nextOf (step (does (.read 0x0000001) (running .fft small)))).map (fun t => (t.record, t.seq)) =
    some ([(0x0000001, 0x00000001)], .run (.command .fft) false) := by decide +kernel

theorem test_write_to_cmd_accepts :
    (nextOf (step (does (.write 0x0000000 0x00000003) small))).map (fun t => (t.status.word, t.cmd, t.seq)) =
      some (0x00000001, 3, .run (.command .hann) false) := by decide +kernel

theorem test_withFetchWord_runs_at_once :
    (nextOf (step (State.reset.withFetchWord 32 3))).map (fun t => (t.status.word, t.cmd, t.seq)) =
      some (0x00000002, 3, .idle) := by decide +kernel

theorem test_read_cap :
    (nextOf (step (does (.read 0x000000F) State.reset))).map (fun t => t.record) =
      some [(0x000000F, 0x0010000C)] := by decide +kernel

theorem test_cap_extremes :
    capWord ⟨⟨24, by decide⟩, ⟨8388607, by decide⟩⟩ = 0x80000018 ∧
    capWord ⟨⟨0, by decide⟩, ⟨0, by decide⟩⟩ = 0x00000100 := by decide +kernel

theorem test_host_write_then_read :
    ((nextOf (step (does (.write 0x1000003 0x7FC12345) small))).map (fun t => t.wordAt .xr 3)) =
      some (some 0x7FC12345) := by decide +kernel

theorem test_coef_is_read_only :
    ((nextOf (step (does (.write 0x4000000 0x12345678) small))).map (fun t => t.mem)) = some [] := by
  decide +kernel

theorem test_busy_write_is_ignored :
    ((nextOf (step (does (.write 0x0000002 7) (running .hann small)))).map
      (fun t => (t.status.word, t.len, t.seq))) =
    some (0x00000009, 0, .run (.command .hann) true) := by decide +kernel

theorem test_reset_abandons :
    ((nextOf (step (does .reset (put .xr [1] (running .hann { small with wlen := 9 }))))).map
      (fun t => (t.status.word, t.wlen, t.mem, t.seq))) =
    some (0, 0, [], .idle) := by decide +kernel

/-! ### Witnesses: the hypotheses of each obligation can be met, clause by clause, at boundary values -/

theorem witness_DecodeOfEncode : Instr.wf .clr = true ∧ Instr.wf .iirlpf = true := by decide

theorem witness_PrimitivesRoundCorrectly :
    (isFinite 0x7F7FFFFF = true ∧ isFinite 0x00000001 = true ∧ isZero 0x00000001 = false) ∧
    isNaN 0x7F800000 = false ∧ isNaN 0xFF800000 = false := by decide

theorem witness_InfinitiesAndDivisionByZero :
    (isNaN 0x7F800000 = false ∧ isZero 0x7F800000 = false ∧ isZero 0x80000000 = true) ∧
    (isFinite 0x7F7FFFFF = true ∧ isInf 0xFF800000 = true) ∧
    (isNaN 0x7F800000 = false ∧ (0x7F800000 : F32) ≠ finf (!false)) ∧
    (isNaN 0xFF800000 = false ∧ (0xFF800000 : F32) ≠ finf (!true)) ∧
    (isInf 0x7F800000 = true ∧ isNaN 0x00000001 = false ∧ isZero 0x00000001 = false) ∧
    (isNaN 0x80000001 = false ∧ isZero 0x80000001 = false ∧ isInf 0x7F800000 = true) := by decide +kernel

theorem witness_InvalidOperationsGiveQuietNaN :
    isNaN 0x7F800001 = true ∧
    (isInf 0x7F800000 = true ∧ isInf 0xFF800000 = true ∧ fsign 0x7F800000 ≠ fsign 0xFF800000) ∧
    fsign 0xFF800000 = fsign 0xFF800000 ∧ (isZero 0x80000000 = true ∧ isInf 0x7F800000 = true) ∧
    (isZero 0x00000000 = true ∧ isZero 0x80000000 = true) := by decide

theorem witness_SignedZeros :
    (isFinite 0x3F800000 = true ∧ isFinite 0xBF800000 = true ∧
      scaledValue 0x3F800000 + scaledValue 0xBF800000 = 0) ∧
    (isFinite 0x80000000 = true ∧ scaledValue 0x80000000 - scaledValue 0x00000000 = 0) ∧
    isZero (fmul k0 0xC0000000 0x00000000) = true ∧ isZero (fdiv k0 0x00000000 0xC0800000) = true ∧
    (isFinite 0x7F7FFFFF = true ∧ isZero 0x80000000 = true) ∧
    (isNaN 0x7F800000 = false ∧ isZero 0x7F800000 = false) := by decide +kernel

theorem witness_IntegerConversion : 16777216 ≤ 2 ^ 24 := by decide

theorem witness_TrigUnitsHaveTheirProperties :
    isFinite 0x7F7FFFFF = true ∧ isFinite 0x7F800000 = false ∧ isFinite 0x7FC00001 = false := by decide

theorem realValue_zero {a : F32} (h : isZero a = true) : realValue a = 0 := by
  simp [realValue, scaledValue, (magnitude_eq_zero_iff a).2 h]

theorem realValue_one : realValue ONE = 1 := by
  have h : scaledValue ONE = 2 ^ 149 := by decide +kernel
  rw [realValue, h]
  norm_num

/-- Three admissible units: the constant 1, and the identity on zeros and 0 elsewhere, twice. -/
theorem witness_EveryAdmissibleUnitIsCovered :
    ∃ c sn tn : F32 → F32,
      (∀ x, isFinite x = true → isFinite (c x) = true ∧ |realValue (c x)| ≤ 1 ∧
        isFinite (sn x) = true ∧ |realValue (sn x)| ≤ 1 ∧ isNaN (tn x) = false) ∧
      (∀ x, isZero x = true → c x = 0x3F800000 ∧ sn x = x ∧ tn x = x) ∧ isFinite 0x00000001 = true := by
  have hz : ∀ x : F32, isZero (if isZero x then x else 0) = true := by
    intro x
    split
    · assumption
    · decide
  have hf : ∀ x : F32, isFinite (if isZero x then x else 0) = true := by
    intro x
    rw [isFinite_iff, ((isZero_iff _).1 (hz x)).1]
    decide
  refine ⟨fun _ => ONE, fun x => if isZero x then x else 0, fun x => if isZero x then x else 0, ?_, ?_, by decide⟩
  · intro x _
    refine ⟨(by decide : isFinite ONE = true), ?_, hf x, ?_, isNaN_false_of_finite (hf x)⟩
    · simp only [realValue_one, abs_one, le_refl]
    · simp only [realValue_zero (hz x), abs_zero, zero_le_one]
  · intro x hx
    simp only [hx, if_true, and_true]
    rfl

theorem witness_BitReversalOfAnIndex : 7 < 2 ^ 3 ∧ 1 ≤ 3 ∧ 3 ≤ 3 ∧ 3 < 2 ^ (3 - 1) := by decide

theorem witness_HostReadReturnsTheWord :
    ((does (.read 0x0000001) (running .fft small)).script = [.read 0x0000001] ∧
      (∀ b, (running .fft small).seq ≠ .run (.command .clr) b) ∧
      ∀ w b, (running .fft small).seq ≠ .run (.illegal w) b) ∧
    (small.status.busy = false ∧ small.target 0x000000F = .reg .cap) ∧
    (small.target 0x1000003 = .word .xr 3 ∧ (put .xr [1, 2, 3, 4] small).wordAt .xr 3 = some 4) ∧
    (small.target 0x4000003 = .word .coef 3 ∧ small.wordAt .coef 3 = none) := by
  refine ⟨⟨rfl, ?_, ?_⟩, ?_⟩
  · simp [running]
  · simp [running]
  · decide +kernel

theorem witness_HostWriteReplacesTheWord :
    (does (.write 0x0000002 7) small).script = [.write 0x0000002 7] ∧ small.status.busy = false ∧
    [0x0000002, 0x0000003, 0x0000004, 0x0000005, 0x0000006].map small.target =
      [.reg .len, .reg .num, .reg .fc, .reg .qf, .reg .wlen] ∧
    [0x0000001, 0x0000007, 0x0000008, 0x0000009, 0x000000A, 0x000000B, 0x000000C, 0x000000D, 0x000000E,
      0x000000F].map small.target =
      [.reg .status, .reg .clen, .reg .a0, .reg .a1, .reg .a2, .reg .b0, .reg .b1, .reg .b2, .reg .id,
        .reg .cap] ∧
    [0x4000000, 0x1000003, 0x2000000, 0x3000003].map small.target =
      [.word .coef 0, .word .xr 3, .word .xi 0, .word .win 3] := by decide +kernel

theorem witness_ReadReturnsTheLatestWrite :
    ({ small with script := [.write 0x3000003 7, .read 0x3000003] }).script =
      .write 0x3000003 7 :: .read 0x3000003 :: [] ∧
    small.status.busy = false ∧ small.target 0x3000003 = .word .win 3 ∧
    small.target 0x0000006 = .reg .wlen ∧ small.target 0x3000003 ≠ .word .win (2 ^ 24 - 1) := by decide +kernel

theorem witness_UnmappedAccessChangesNothing :
    [0x0000010, 0x1000004, 0x2000004, 0x3000004, 0x4000004, 0x5000000, 0xFFFFFFF].map small.target =
      List.replicate 7 .unmapped ∧
    small.status.busy = false ∧ (does (.read 0x0000010) small).script = [.read 0x0000010] ∧
    (does (.write 0x5000000 1) small).script = [.write 0x5000000 1] := by decide +kernel

theorem witness_BusyRule :
    (running .hann small).status.busy = true ∧
    ((∀ b, (running .hann small).seq ≠ .run (.command .clr) b) ∧
      ∀ w b, (running .hann small).seq ≠ .run (.illegal w) b) ∧
    (does (.read 0x0000001) (running .hann small)).script = [.read 0x0000001] ∧
    (does (.write 0x0000000 1) (running .hann small)).script = [.write 0x0000000 1] ∧
    (does (.read 0x5000000) (running .hann small)).script = [.read 0x5000000] ∧
    (0x5000000 : Addr) ≠ 0x0000001 := by
  refine ⟨rfl, ⟨?_, ?_⟩, rfl, rfl, rfl, by decide⟩
  · simp [running]
  · simp [running]

theorem witness_IdentificationAndCapacity : State.reset.params = .suggested := by decide

theorem witness_AcceptanceOfACommand :
    (does (.write 0x0000000 0xFFFFFFFF) small).script = [.write 0x0000000 0xFFFFFFFF] ∧
    (does (.write 0x0000000 0xFFFFFFFF) small).status.busy = false := by decide

theorem witness_StepRunsTheAcceptedCommand :
    Instr.wf .fft = true ∧ (does .pause (running .fft small)).seq = .run (.command .fft) false ∧
    (does .pause (running .fft small)).script = [.pause] ∧ (running .fft small).script = [] ∧
    (disturbed .fft small).seq = .run (.command .fft) true ∧ decode 0x00000001 = .command .fft ∧
    ({ small with script := [.write 0x0000000 1, .pause] }).script = [.write 0x0000000 1, .pause] ∧
    small.status.busy = false ∧
    ((does (.read 0x0000001) (running .clr small)).seq = .run (.command .clr) false ∧
      (does (.read 0x0000001) (running .clr small)).status.busy = true ∧
      (does (.read 0x0000001) (running .clr small)).script = [.read 0x0000001]) ∧
    (small.seq = .idle ∧ small.script = [] ∧ (does .pause small).script = [.pause]) := by decide

theorem witness_IllegalWordEndsWithIllegalCmd :
    ({ small with script := [.write 0x0000000 6, .pause] }).script = [.write 0x0000000 6, .pause] ∧
    small.status.busy = false ∧ decode 6 = .illegal .reservedOpcode ∧
    decode 0x80000000 = .illegal .reservedField ∧ [HostOp.pause].head? ≠ some .reset ∧
    ([] : List HostOp).head? ≠ some .reset ∧ [HostOp.read 0x0000001].head? ≠ some .reset := by decide

theorem witness_ClrClearsStatus :
    (∃ t, exec .fft small = .next t) ∧
    (∃ t, step (disturbed .clr small) = .next t ∧ (disturbed .clr small).status.hz = true ∧
      t.status.hz = false) ∧
    (∃ t, step (does .reset (disturbed .fft small)) = .next t ∧ (disturbed .fft small).status.hz = true ∧
      t.status.hz = false) ∧
    ({ small with script := [.write 0x0000000 0, .read 0x0000001] }).script =
      .write 0x0000000 0 :: [.read 0x0000001] ∧
    small.status.busy = false ∧ [HostOp.read 0x0000001].head? ≠ some .reset :=
  ⟨⟨_, rfl⟩, ⟨_, rfl, rfl, rfl⟩, ⟨_, rfl, rfl, rfl⟩, rfl, rfl, by decide⟩

theorem witness_ErrorEntry : small.status.hz = false := by decide

theorem three_is_no_power (k : Nat) : 3 ≠ 2 ^ k := by
  rcases k with _ | _ | k
  · decide
  · decide
  · rw [Nat.pow_add]
    omega

theorem witness_TransformLengthErrors :
    (∀ k : Nat, ({ small with len := 3 }).len.toNat ≠ 2 ^ k) ∧
    (∃ k : Nat, ({ small with len := 8 }).len.toNat = 2 ^ k) ∧
    ({ small with len := 8 }).params.nmax < ({ small with len := 8 }).len.toNat ∧
    (∃ k : Nat, ({ small with len := 4 }).len.toNat = 2 ^ k) ∧
    ({ small with len := 4 }).len.toNat ≤ ({ small with len := 4 }).params.nmax :=
  ⟨three_is_no_power, ⟨3, by decide⟩, by decide, ⟨2, by decide⟩, by decide⟩

theorem witness_HannCapacityError :
    ({ small with len := 5 }).params.wmax < ({ small with len := 5 }).len.toNat ∧
    ({ small with len := 4 }).len.toNat ≤ ({ small with len := 4 }).params.wmax := by decide

theorem witness_FirShapeAndCapacityErrors :
    small.wlen.toNat ≠ small.num.toNat + 1 ∧
    (({ small with num := 4, wlen := 5 }).wlen.toNat = ({ small with num := 4, wlen := 5 }).num.toNat + 1 ∧
      ({ small with num := 4, wlen := 5 }).params.wmax < ({ small with num := 4, wlen := 5 }).num.toNat + 1) ∧
    (({ small with num := 3, wlen := 4 }).wlen.toNat = ({ small with num := 3, wlen := 4 }).num.toNat + 1 ∧
      ({ small with num := 3, wlen := 4 }).num.toNat + 1 ≤ ({ small with num := 3, wlen := 4 }).params.wmax) ∧
    ({ small with num := 0xFFFFFFFF, wlen := 0xFFFFFFFF }).num = 0xFFFFFFFF := by decide

theorem witness_ErrorsChangeNothingElse :
    small.status.err = false ∧ ∃ t, exec .fft small = .next t ∧ t.status.err = true :=
  ⟨rfl, small.raiseError .invalidLength, rfl, rfl⟩

theorem witness_ResetEventAbandonsEverything :
    (does .reset (running .fft small)).script = [.reset] := by decide

/-- Four samples in a memory of four words, so that `LEN = NMAX`. -/
def four : State := { put .xi [5, 6, 7, 8] (put .xr [1, 2, 3, 4] small) with len := 4 }

theorem witness_FftCompletes :
    ispow2 four.len.toNat = true ∧ four.len.toNat ≤ four.params.nmax ∧
    (∀ p < four.len.toNat, four.wordAt .xr p = some (BitVec.ofNat 32 (p + 1))) ∧ four.disturbed = false := by
  decide +kernel

theorem witness_IfftCompletes :
    ispow2 four.len.toNat = true ∧ four.len.toNat ≤ four.params.nmax ∧
    (∀ p < four.len.toNat, four.wordAt .xr p = some (BitVec.ofNat 32 (p + 1)) ∧
      four.wordAt .xi p = some (BitVec.ofNat 32 (p + 5))) ∧ four.disturbed = false := by decide +kernel

theorem witness_TransformIsTheLoopNest :
    ([⟨1, 2⟩, ⟨3, 4⟩] : List Cpx).length = Plan.n ⟨Config.trig, 0, .forward, 1⟩ ∧
    1 < Plan.n ⟨Config.trig, 0, .forward, 1⟩ := by decide

theorem witness_StageOrderIsFree :
    1 ≤ 2 ∧ 2 ≤ (Plan.mk Config.trig 0 .forward 2).limit ∧
    (List.replicate 4 Cpx.zero).length = Plan.n ⟨Config.trig, 0, .forward, 2⟩ ∧
    (Plan.butterflies ⟨Config.trig, 0, .forward, 2⟩ 2).reverse.Perm
      (Plan.butterflies ⟨Config.trig, 0, .forward, 2⟩ 2) ∧
    Plan.butterflies ⟨Config.trig, 0, .forward, 2⟩ 2 = [(0, 0), (1, 0)] ∧
    3 < Plan.n ⟨Config.trig, 0, .forward, 2⟩ :=
  ⟨by decide, by decide, by decide, List.reverse_perm _, by decide, by decide⟩

theorem witness_ReversalOrderIsFree :
    [3, 2, 1, 0].Perm (List.range (Plan.n ⟨Config.trig, 0, .inverse, 2⟩)) ∧
    2 < Plan.n ⟨Config.trig, 0, .inverse, 2⟩ := ⟨by decide, by decide⟩

theorem witness_IfftScalesTheTransform : ispow2 (List.replicate 4 Cpx.zero).length = true ∧
    3 < (List.replicate 4 Cpx.zero).length := by decide

theorem witness_TwiddleFactors : 1 ≤ 2 ^ 24 ∧ 2 ^ 24 ≤ 2 ^ 24 ∧ 2 ^ 24 - 1 < 2 ^ 24 := by decide

/-- The impulse of length four. -/
def impulse : State := { put .xr [0x3F800000, 0, 0, 0] small with len := 4 }

theorem witness_ImpulseResponseIsFlat :
    ispow2 impulse.len.toNat = true ∧ impulse.len.toNat ≤ impulse.params.nmax ∧
    (∀ p < impulse.len.toNat, impulse.wordAt .xr p = some (if p = 0 then 0x3F800000 else 0x00000000)) ∧
    impulse.disturbed = false := by decide +kernel

theorem witness_TransformDependsOnItsInputAlone :
    ∀ i ∈ [Instr.fft, .ifft],
      four.transformError = none ∧ ({ four with num := 9 }).transformError = none ∧
      four.len = ({ four with num := 9 }).len ∧ four.draws = ({ four with num := 9 }).draws ∧
      four.disturbed = false ∧ ({ four with num := 9 }).disturbed = false ∧
      (∀ p < four.len.toNat, four.wordAt .xr p = ({ four with num := 9 }).wordAt .xr p) ∧
      (i = .ifft → ∀ p < four.len.toNat, four.wordAt .xi p = ({ four with num := 9 }).wordAt .xi p) ∧
      (nextOf (exec i four)).isSome = true ∧ (nextOf (exec i { four with num := 9 })).isSome = true := by
  decide +kernel

theorem witness_HannCompletes :
    ({ small with len := 4 }).len.toNat ≤ ({ small with len := 4 }).params.wmax ∧
    small.len.toNat = 0 ∧ ({ small with len := 4 }).disturbed = false := by decide

theorem witness_FirstHannWeightIsZero :
    1 ≤ ({ small with len := 1 }).len.toNat ∧
    ({ small with len := 1 }).len.toNat ≤ ({ small with len := 1 }).params.wmax ∧
    ({ small with len := 1 }).disturbed = false := by decide

/-- Four taps in a memory of four words, so that `NUM + 1 = WMAX`. -/
def taps4 : State := { put .win [1, 2, 3, 4] small with num := 3, wlen := 4, fc := 0x3E800000 }

theorem witness_FirlpfCompletes :
    taps4.wlen.toNat = taps4.num.toNat + 1 ∧ taps4.num.toNat + 1 ≤ taps4.params.wmax ∧
    (∀ i ≤ taps4.num.toNat, taps4.wordAt .win i = some (BitVec.ofNat 32 (i + 1))) ∧
    taps4.disturbed = false := by decide +kernel

theorem witness_FirCentreTap :
    (taps4.wlen.toNat = taps4.num.toNat + 1 ∧ taps4.num.toNat + 1 ≤ taps4.params.wmax ∧
      (∀ i ≤ taps4.num.toNat, taps4.wordAt .win i = some (BitVec.ofNat 32 (i + 1))) ∧
      taps4.disturbed = false) ∧ ∀ k, isFinite (fmul k 0x40C90FDB taps4.fc) = true := by
  refine ⟨by decide +kernel, fun k => ?_⟩
  rw [fmul_of_finite k (by decide) (by decide)]
  decide +kernel

theorem witness_IirlpfCompletes : State.reset.disturbed = false ∧ (running .iirlpf small).disturbed = false := by
  decide

theorem witness_IirlpfCornerCases :
    (small.disturbed = false ∧ ∃ t, exec .iirlpf small = .next t) ∧
    isNaN ({ small with qf := 0x7F800001 }).qf = true ∧ isFinite ({ small with fc := 0xFF800000 }).fc = false ∧
    (small.fc = 0x00000000 ∧ isZero small.qf = true ∧ isZero ({ small with qf := 0x80000000 }).qf = true) ∧
    (isNaN ({ small with qf := 0xBF800000 }).qf = false ∧ isZero ({ small with qf := 0xBF800000 }).qf = false) :=
  ⟨⟨by decide, _, rfl⟩, by decide, by decide, by decide, by decide⟩

/-- `FC = 0.25` under `REF_CR`: `df` is `0x3E22F983` (spec/95 section 3.4). -/
theorem witness_IirlpfCornerCases_zero_q :
    (0x3E22F983 : F32) = fdiv k0 (TAN ref k0 (fmul k0 0x40490FDB 0x3E800000)) 0x40C90FDB ∧
    isNaN 0x3E22F983 = false ∧ isZero 0x3E22F983 = false ∧ fsign 0x3E22F983 = false ∧
    isFinite (fmul k0 0x40000000 (fmul k0 0x421DE9E6 (fmul k0 0x3E22F983 0x3E22F983))) = true := by
  decide +kernel

/-- The last real part, the first imaginary part, the last window word without a value. -/
def noLastRe : State := { put .xr [1, 2, 3] small with len := 4 }

def noFirstIm : State := { put .xr [1, 2, 3, 4] small with len := 4 }

def noLastWin : State := { put .win [1, 2, 3] small with num := 3, wlen := 4 }

theorem witness_UnwrittenOperandIsAFault :
    (noLastRe.transformError = none ∧ 3 < noLastRe.len.toNat ∧ noLastRe.wordAt .xr 3 = none ∧
      ∀ q < 3, noLastRe.wordAt .xr q ≠ none) ∧
    (noFirstIm.transformError = none ∧ 0 < noFirstIm.len.toNat ∧ noFirstIm.holds .xr noFirstIm.len.toNat ∧
      noFirstIm.wordAt .xi 0 = none ∧ ∀ q < 0, noFirstIm.wordAt .xi q ≠ none) ∧
    (noLastWin.firError = none ∧ 3 ≤ noLastWin.num.toNat ∧ noLastWin.wordAt .win 3 = none ∧
      ∀ q < 3, noLastWin.wordAt .win q ≠ none) := by decide +kernel

theorem witness_DisturbedResultsAreOpen :
    ((disturbed .ifft four).disturbed = true ∧ (disturbed .ifft four).transformError = none ∧
      (disturbed .ifft four).holds .xr 4 ∧ (disturbed .ifft four).holds .xi 4) ∧
    (disturbed .hann four).hannError = none ∧
    ((disturbed .firlpf taps4).firError = none ∧ (disturbed .firlpf taps4).holds .win 4) := by decide +kernel

theorem witness_TransformFrame :
    ∀ i ∈ [Instr.fft, .ifft], (∃ t, exec i four = .next t) ∧
      ∀ p < four.len.toNat, 0x40 / 4 ≠ MemName.xr.wordAddr p ∧ 0x40 / 4 ≠ MemName.xi.wordAddr p := by
  have h : ∀ i ∈ [Instr.fft, .ifft], (nextOf (exec i four)).isSome = true ∧
      ∀ p < four.len.toNat, 0x40 / 4 ≠ MemName.xr.wordAddr p ∧ 0x40 / 4 ≠ MemName.xi.wordAddr p := by
    decide +kernel
  exact fun i hi => ⟨exists_next (h i hi).1, (h i hi).2⟩

theorem witness_HannFrame : ∃ t, exec .hann { small with len := 4 } = .next t := by
  apply exists_next
  decide +kernel

theorem witness_FirlpfFrame : ∃ t, exec .firlpf taps4 = .next t := by
  apply exists_next
  decide +kernel

theorem witness_IirlpfFrame : ∃ t, exec .iirlpf small = .next t := ⟨_, rfl⟩

theorem witness_StepKeepsInvariant :
    (running .ifft four).Inv ∧ (disturbed .hann small).Inv ∧ ∃ t, step (running .ifft four) = .next t := by
  refine ⟨?_, ?_, exists_next ?_⟩ <;> decide +kernel

theorem witness_StatusReadsOneOfThirteenWords : (disturbed .clr small).Inv ∧
    (disturbed .clr small).status.word = 0x00000009 := by decide +kernel

theorem witness_ParametersNeverChange : ∃ t, step small = .next t := ⟨_, rfl⟩

theorem witness_CorrectHostIsNeverStopped :
    small.hostCorrect ∧ (does (.read 0x0000001) (running .fft small)).hostCorrect ∧
    (does (.write 0x1000003 1) small).hostCorrect ∧ (does .reset (running .fft small)).hostCorrect ∧
    (does (.read 0x0000002) small).hostCorrect ∧ (does .pause (running .fft four)).hostCorrect ∧
    (does (.write 0x0000000 1) (running .clr small)).hostCorrect := by
  refine ⟨trivial, .inr (.inl rfl), .inr ⟨by decide, by decide⟩, .inr trivial,
    .inr (.inr ⟨by decide, by decide, ?_⟩), .inr ?_, .inl rfl⟩
  · intro m i h
    have : (does (.read 0x0000002) small).target 0x0000002 = .reg .len := by decide
    rw [this] at h
    cases h
  · intro _
    show four.holds .xr 4
    decide +kernel

theorem witness_AcceptedCommandCompletes :
    (running .fft four).seq = .run (.command .fft) false ∧ (running .fft four).ready .fft ∧
    (running .fft four).script = [] ∧ (does .pause (running .clr small)).ready .clr ∧
    (∃ rest, (does .pause (running .clr small)).script = .pause :: rest) ∧
    (running .clr small).status.busy = true ∧
    (does (.read 0x0000001) (running .clr small)).script.head? ≠ some .reset := by
  refine ⟨rfl, fun _ => ?_, rfl, trivial, ⟨[], rfl⟩, rfl, by decide⟩
  show (running .fft four).holds .xr 4
  decide +kernel

/-- The last stage of four points, its last group, and the first stage, its last pair. -/
theorem witness_ButterflyArithmetic :
    ((1 ≤ 2 ∧ 2 ≤ (Plan.mk Config.trig 0 .forward 2).limit ∧ 1 < 2 ^ (2 - 1) ∧ 1 = 2 ^ (2 - 2) ∧ 0 < 1 ∧
      2 = 2 * 1 * 1 + 0) ∧ (1 ≤ 1 ∧ 0 < 2 ^ (1 - 1) ∧ 2 = 2 ^ (2 - 1) ∧ 1 < 2 ∧ 1 = 2 * 2 * 0 + 1)) ∧
    (List.replicate 4 Cpx.zero).length = 2 ^ (Plan.mk Config.trig 0 .forward 2).limit ∧
    (List.replicate 4 Cpx.zero)[2]? = some .zero ∧ (List.replicate 4 Cpx.zero)[2 + 1]? = some .zero ∧
    (List.replicate 4 Cpx.zero)[1]? = some .zero ∧ (List.replicate 4 Cpx.zero)[1 + 2]? = some .zero := by
  decide

end Sys2Proof.Tests
end

section
/-! PROOFS. The units of R92: each unit on a zero, on another finite argument and on a NaN or infinity; the
range of `COS` and `SIN` in the pattern and as a real value; the model's reading of R92 (log entry 3). -/

namespace Sys2Proof.Proofs.Trig

open Sys2Proof Sys2Proof.Machine

/-! ### The units, case by case -/

theorem isFinite_of_isZero {x : F32} (hz : isZero x = true) : isFinite x = true := by
  rw [isFinite_iff, ((isZero_iff x).1 hz).1]
  decide

theorem cos_of_isZero (T : Trig) (k : Site) {x : F32} (hz : isZero x = true) : COS T k x = ONE := by
  simp [COS, isFinite_of_isZero hz, hz]

theorem sin_of_isZero (T : Trig) (k : Site) {x : F32} (hz : isZero x = true) : SIN T k x = x := by
  simp [SIN, isFinite_of_isZero hz, hz]

theorem tan_of_isZero (T : Trig) (k : Site) {x : F32} (hz : isZero x = true) : TAN T k x = x := by
  simp [TAN, isFinite_of_isZero hz, hz]

theorem cos_of_finite (T : Trig) (k : Site) {x : F32} (hf : isFinite x = true) (hz : isZero x = false) :
    COS T k x = withinOne (T.cosRaw x) := by
  simp [COS, hf, hz]

theorem sin_of_finite (T : Trig) (k : Site) {x : F32} (hf : isFinite x = true) (hz : isZero x = false) :
    SIN T k x = withinOne (T.sinRaw x) := by
  simp [SIN, hf, hz]

theorem tan_of_finite (T : Trig) (k : Site) {x : F32} (hf : isFinite x = true) (hz : isZero x = false) :
    TAN T k x = notNaN (T.tanRaw x) := by
  simp [TAN, hf, hz]

/-! ### Magnitude at most one, in the pattern and as a real value -/

/-- The low 31 bits of a pattern are its exponent and fraction. -/
theorem toNat_mod_eq (a : F32) : a.toNat % 2 ^ 31 = fexp a * 2 ^ 23 + ffrac a := by
  have he := fexp_lt a
  have hf := ffrac_lt a
  rw [toNat_fields a]
  split <;> omega

theorem abs_realValue (a : F32) : |realValue a| = (magnitude a : ℚ) / 2 ^ 149 := by
  have hs : |(scaledValue a : ℚ)| = magnitude a := by
    rw [scaledValue]
    split <;> simp
  rw [realValue, abs_div, hs, abs_of_pos (by positivity : (0 : ℚ) < 2 ^ 149)]

theorem abs_realValue_le_one_iff (a : F32) : |realValue a| ≤ 1 ↔ magnitude a ≤ 2 ^ 149 := by
  rw [abs_realValue, div_le_one (by positivity)]
  exact_mod_cast Iff.rfl

/-- The pattern of 1.0 has exponent 127 and fraction 0, so the exponent against 127 decides, and at 127 the
fraction does. -/
theorem magnitude_le_iff (a : F32) : magnitude a ≤ 2 ^ 149 ↔ a.toNat % 2 ^ 31 ≤ 0x3F800000 := by
  have hf := ffrac_lt a
  rw [toNat_mod_eq, magnitude]
  by_cases h0 : fexp a = 0
  · rw [if_pos h0]
    omega
  rw [if_neg h0]
  rcases lt_trichotomy (fexp a) 127 with hlt | heq | hgt
  · have hm : (2 ^ 23 + ffrac a) * 2 ^ (fexp a - 1) ≤ 2 ^ 24 * 2 ^ 125 :=
      Nat.mul_le_mul (by omega) (Nat.pow_le_pow_right (by decide) (by omega))
    omega
  · rw [heq]
    omega
  · have hm : 2 ^ 23 * 2 ^ 127 ≤ (2 ^ 23 + ffrac a) * 2 ^ (fexp a - 1) :=
      Nat.mul_le_mul (by omega) (Nat.pow_le_pow_right (by decide) (by omega))
    omega

/-- `withinOne` keeps a value that `TRIG_RANGE` allows. -/
theorem withinOne_eq_self {v : F32} (h : |realValue v| ≤ 1) : withinOne v = v :=
  if_pos ((magnitude_le_iff v).1 ((abs_realValue_le_one_iff v).1 h))

/-- `notNaN` keeps a value that `TRIG_RANGE` allows. -/
theorem notNaN_eq_self {v : F32} (h : isNaN v = false) : notNaN v = v := by
  simp [notNaN, h]

/-! ### The admissible units -/

/-- Settles O12: at a zero `TRIG_ZERO` fixes both sides; at any other finite argument the unit is the raw
function's value, which `TRIG_RANGE` keeps from being replaced. -/
theorem everyAdmissibleUnitIsCovered : Obligations.EveryAdmissibleUnitIsCovered := by
  intro c sn tn hrange hzero k x hx
  cases hz : isZero x with
  | true =>
    obtain ⟨hc, hs, ht⟩ := hzero x hz
    rw [cos_of_isZero _ k hz, sin_of_isZero _ k hz, tan_of_isZero _ k hz, hc, hs, ht]
    exact ⟨rfl, rfl, rfl⟩
  | false =>
    obtain ⟨-, hc, -, hs, ht⟩ := hrange x hx
    rw [cos_of_finite _ k hx hz, sin_of_finite _ k hx hz, tan_of_finite _ k hx hz]
    exact ⟨withinOne_eq_self hc, withinOne_eq_self hs, notNaN_eq_self ht⟩

end Sys2Proof.Proofs.Trig
end

section
/-! PROOFS. The invariant of the machine (R12, R28, R41, R181, R189): its two parts, what one step can do to
`STATUS`, the sequencer, the parameters and memory, and that each such change keeps the invariant. -/

namespace Sys2Proof.Proofs.Invariant

open Sys2Proof Sys2Proof.Machine

/-! ### The two parts of the invariant -/

/-- The part of the invariant about `STATUS` and the sequencer (R12, R28, R214). -/
def ControlOk (st : Status) (q : Seq) : Prop :=
  st.legal ∧ (st.busy = true ↔ q ≠ .idle) ∧ ∀ d, q = .run d true → st.hz = true

/-- The part of the invariant about memory (R41). -/
def MemoryOk (p : Params) (m : Memory) : Prop := m.wf ∧ ∀ c ∈ m, memMapped p (c.1 / 4) = true

theorem disturbed_eq_true_iff (s : State) : s.disturbed = true ↔ ∃ d, s.seq = .run d true := by
  cases h : s.seq with
  | idle => simp [State.disturbed_idle h]
  | run d b => simp [State.disturbed_run h]

theorem inv_iff (s : State) : s.Inv ↔ ControlOk s.status s.seq ∧ MemoryOk s.params s.mem := by
  simp only [State.Inv, ControlOk, MemoryOk, disturbed_eq_true_iff, forall_exists_index, and_assoc]

/-! ### `STATUS` stays legal -/

theorem legal_zero : Status.zero.legal := by simp [Status.legal, Status.zero]

theorem legal_accepted (st : Status) : st.accepted.legal := by simp [Status.legal]

theorem legal_completed {st : Status} (h : st.legal) : st.completed.legal := by
  obtain ⟨-, -, hcode, hcodes, -⟩ := h
  exact ⟨by simp, by simp, hcode, hcodes, by simp⟩

theorem errorCode_cases (e : ErrorKind) : e.code = 1 ∨ e.code = 2 ∨ e.code = 3 ∨ e.code = 4 := by
  cases e <;> decide

theorem legal_raised (st : Status) (e : ErrorKind) : (st.raised e).legal :=
  ⟨by simp, by simp, by simp, fun _ => errorCode_cases e, by simp⟩

/-- Only a busy access sets `HZ` (R214), and then `BUSY` accounts for it. -/
theorem legal_hazarded {st : Status} (h : st.legal) (hb : st.busy = true) : st.hazarded.legal := by
  obtain ⟨hbd, herr, hcode, hcodes, -⟩ := h
  exact ⟨hbd, herr, hcode, hcodes, fun _ => .inl hb⟩

/-! ### What a step can do to `STATUS` and the sequencer -/

/-- The changes of `STATUS` and the sequencer: none, acceptance (R173), completion (R174), an error (R184),
`CLR` or a reset (R170, R210), and the broken busy rule (R214). -/
inductive ControlStep (st : Status) (q : Seq) : Status → Seq → Prop
  | keep : ControlStep st q st q
  | accept (w : Word) : ControlStep st q st.accepted (.run (decode w) false)
  | complete : ControlStep st q st.completed .idle
  | raise (e : ErrorKind) : ControlStep st q (st.raised e) .idle
  | clear : ControlStep st q .zero .idle
  | hazard (busy : st.busy = true) : ControlStep st q st.hazarded q.disturb

theorem disturb_eq_idle_iff (q : Seq) : q.disturb = .idle ↔ q = .idle := by
  cases q <;> simp

theorem controlOk_idle {st : Status} (hl : st.legal) (hb : st.busy = false) : ControlOk st .idle :=
  ⟨hl, by simp [hb], by simp⟩

theorem controlOk_of_controlStep {st st' : Status} {q q' : Seq} (h : ControlStep st q st' q')
    (hok : ControlOk st q) : ControlOk st' q' := by
  have ⟨hl, hrun, _⟩ := hok
  cases h with
  | keep => exact hok
  | accept w => exact ⟨legal_accepted st, by simp, by simp⟩
  | complete => exact controlOk_idle (legal_completed hl) rfl
  | raise e => exact controlOk_idle (legal_raised st e) rfl
  | clear => exact controlOk_idle legal_zero rfl
  | hazard hb =>
    refine ⟨legal_hazarded hl hb, ?_, fun _ _ => rfl⟩
    rw [Status.hazarded_busy, hrun, ne_eq, ne_eq, disturb_eq_idle_iff]

/-! ### Memory holds values at mapped words only -/

theorem memMapped_wordAddr {p : Params} {m : MemName} {A : Nat} (h0 : m.wordAddr 0 ≤ A)
    (h1 : A < m.wordAddr 0 + m.depth p) : memMapped p A = true := by
  rw [memMapped, List.any_eq_true]
  exact ⟨m, by cases m <;> simp, by simp [h0, h1]⟩

theorem memoryOk_nil (p : Params) : MemoryOk p [] :=
  ⟨Memory.wf_nil, fun _ hc => absurd hc List.not_mem_nil⟩

/-- Writing a sequence that fits the depth of its memory keeps the memory part of the invariant. -/
theorem memoryOk_writeWords {p : Params} {mem : Memory} (m : MemName) {ws : List Word}
    (h : MemoryOk p mem) (hlen : ws.length ≤ m.depth p) :
    MemoryOk p (mem.writeWords (m.wordAddr 0) ws) := by
  refine ⟨Memory.wf_writeWords _ _ h.1, fun c hc => ?_⟩
  rcases Memory.mem_writeWords hc with ⟨h0, h1⟩ | hold
  · exact memMapped_wordAddr h0 (by omega)
  · exact h.2 c hold

theorem memoryOk_writeWord {p : Params} {mem : Memory} (m : MemName) {i : Nat} (v : Word)
    (h : MemoryOk p mem) (hi : i < m.depth p) : MemoryOk p (mem.writeWord (m.wordAddr i) v) := by
  refine ⟨Memory.wf_writeWord _ _ h.1, fun c hc => ?_⟩
  rcases Memory.mem_writeWord hc with hnew | hold
  · rw [hnew]
    exact memMapped_wordAddr (m := m) (by simp [MemName.wordAddr]) (by simp [MemName.wordAddr, hi])
  · exact h.2 c hold

theorem memoryOk_storeSeq {s : State} (m : MemName) {ws : List Word} (h : MemoryOk s.params s.mem)
    (hlen : ws.length ≤ m.depth s.params) : MemoryOk s.params (s.storeSeq m ws).mem :=
  memoryOk_writeWords m h (by simpa using hlen)

theorem memoryOk_storeCpx {s : State} {xs : List Cpx} (h : MemoryOk s.params s.mem)
    (hlen : xs.length ≤ s.params.nmax) : MemoryOk s.params (s.storeCpx xs).mem :=
  memoryOk_storeSeq (s := s.storeSeq .xr (xs.map Cpx.re)) .xi
    (memoryOk_storeSeq .xr h (by simpa [MemName.depth] using hlen)) (by simpa [MemName.depth] using hlen)

/-! ### What a step can do -/

/-- What every step does, seen from the invariant: `STATUS` and the sequencer change in one of the ways of
`ControlStep`, the parameters stay (R32), and memory is written inside the depths only (R41). -/
structure Transition (s t : State) : Prop where
  control : ControlStep s.status s.seq t.status t.seq
  params : t.params = s.params
  memory : MemoryOk s.params s.mem → MemoryOk s.params t.mem

theorem transition_refl (s : State) : Transition s s := ⟨.keep, rfl, id⟩

theorem transition_raiseError (s : State) (e : ErrorKind) : Transition s (s.raiseError e) :=
  ⟨.raise e, rfl, id⟩

theorem transition_acknowledge (s : State) : Transition s s.acknowledge := ⟨.clear, rfl, id⟩

theorem transition_hazard {s : State} (hb : s.status.busy = true) : Transition s s.hazard :=
  ⟨.hazard hb, rfl, id⟩

/-- A command that completes has stored its results and left `STATUS` and the parameters to completion. -/
theorem transition_complete {s u : State} (hst : u.status = s.status) (hp : u.params = s.params)
    (hm : MemoryOk s.params s.mem → MemoryOk s.params u.mem) : Transition s u.complete :=
  ⟨by simpa [hst] using ControlStep.complete, hp, hm⟩

theorem transition_execFft {s t : State} (h : execFft s = .next t) : Transition s t := by
  obtain ⟨e, -, hx⟩ | ⟨A, -, -, hx⟩ | ⟨re, herr, -, -, hlen, hx⟩ := execFft_cases s <;>
    simp only [hx, Host.Outcome.next.injEq, reduceCtorEq] at h
  · exact h ▸ transition_raiseError s e
  · have hfit := (s.transformError_eq_none_iff.1 herr).2
    exact h ▸ transition_complete rfl rfl fun hm => memoryOk_storeCpx hm (hlen.trans_le hfit)

theorem transition_execIfft {s t : State} (h : execIfft s = .next t) : Transition s t := by
  obtain ⟨e, -, hx⟩ | ⟨A, -, -, hx⟩ | ⟨re, im, herr, -, -, -, -, hlen, hx⟩ := execIfft_cases s <;>
    simp only [hx, Host.Outcome.next.injEq, reduceCtorEq] at h
  · exact h ▸ transition_raiseError s e
  · have hfit := (s.transformError_eq_none_iff.1 herr).2
    exact h ▸ transition_complete rfl rfl fun hm => memoryOk_storeCpx hm (hlen.trans_le hfit)

theorem hannError_eq_none_iff (s : State) : s.hannError = none ↔ s.seqLen ≤ s.params.wmax := by
  obtain ⟨hlen, herr⟩ | ⟨hlen, herr⟩ := s.hannError_cases <;> simp [herr, hlen]

theorem firError_eq_none_iff (s : State) :
    s.firError = none ↔ s.wlen.toNat = s.taps ∧ s.taps ≤ s.params.wmax := by
  obtain ⟨hw, herr⟩ | ⟨hw, hlen, herr⟩ | ⟨hw, hlen, herr⟩ := s.firError_cases
  · simp [herr, hw]
  · simp [herr, hlen]
  · simp [herr, hw, hlen]

theorem transition_execHann {s t : State} (h : execHann s = .next t) : Transition s t := by
  obtain ⟨-, hx⟩ | ⟨herr, hx⟩ := execHann_cases s <;>
    simp only [hx, Host.Outcome.next.injEq] at h
  · exact h ▸ transition_raiseError s .capacity
  · have hfit := (hannError_eq_none_iff s).1 herr
    exact h ▸ transition_complete rfl rfl fun hm =>
      memoryOk_storeSeq .win hm (by simpa [MemName.depth] using hfit)

theorem transition_execFirlpf {s t : State} (h : execFirlpf s = .next t) : Transition s t := by
  obtain ⟨e, -, hx⟩ | ⟨A, -, -, hx⟩ | ⟨win, herr, -, hlen, hx⟩ := execFirlpf_cases s <;>
    simp only [hx, Host.Outcome.next.injEq, reduceCtorEq] at h
  · exact h ▸ transition_raiseError s e
  · have hfit := ((firError_eq_none_iff s).1 herr).2
    exact h ▸ transition_complete rfl rfl fun hm =>
      memoryOk_storeSeq .coef hm (by simpa [MemName.depth, hlen] using hfit)

theorem transition_execIirlpf {s t : State} (h : execIirlpf s = .next t) : Transition s t := by
  simp only [execIirlpf_eq, Host.Outcome.next.injEq] at h
  exact h ▸ transition_complete rfl rfl id

theorem transition_exec {s t : State} {i : Instr} (h : exec i s = .next t) : Transition s t := by
  cases i with
  | clr =>
    obtain rfl : s.acknowledge = t := by injection h
    exact transition_acknowledge s
  | fft => exact transition_execFft h
  | ifft => exact transition_execIfft h
  | hann => exact transition_execHann h
  | firlpf => exact transition_execFirlpf h
  | iirlpf => exact transition_execIirlpf h

theorem transition_seqTurn {s t : State} (h : s.seqTurn = .next t) : Transition s t := by
  cases hq : s.seq with
  | idle =>
    simp only [State.seqTurn_idle hq, Host.Outcome.next.injEq] at h
    exact h ▸ transition_refl s
  | run d b =>
    cases d with
    | command i => exact transition_exec (State.seqTurn_command hq ▸ h)
    | illegal w =>
      simp only [State.seqTurn_illegal hq, Host.Outcome.next.injEq] at h
      exact h ▸ transition_raiseError s .illegalCmd

theorem transition_hostRead {s t : State} {a : Addr} (h : s.hostRead a = .next t) : Transition s t := by
  obtain ⟨-, hx⟩ | ⟨-, hb, hx⟩ |
    ⟨-, -, ⟨r, -, hx⟩ | ⟨m, i, v, -, -, hx⟩ | ⟨m, i, -, -, hx⟩ | ⟨-, hx⟩⟩ := s.hostRead_cases a <;>
    simp only [hx, Host.Outcome.next.injEq, reduceCtorEq] at h <;> subst h
  case inr.inl => exact ⟨.hazard hb, rfl, id⟩
  all_goals exact ⟨.keep, rfl, id⟩

theorem transition_writeReg (s : State) (r : Reg) (v : Word) : Transition s (s.writeReg r v) := by
  cases r
  case cmd => exact ⟨.accept v, rfl, id⟩
  all_goals exact ⟨.keep, rfl, id⟩

theorem transition_writeMem (s : State) (m : MemName) {i : Nat} (v : Word) (hi : i < m.depth s.params) :
    Transition s (s.writeMem m i v) := by
  cases m
  case coef => exact transition_refl s
  all_goals exact ⟨.keep, rfl, fun hm => memoryOk_writeWord _ v hm hi⟩

theorem transition_hostWrite (s : State) (a : Addr) (v : Word) : Transition s (s.hostWrite a v) := by
  obtain ⟨hb, hx⟩ | ⟨-, ⟨r, -, hx⟩ | ⟨m, i, ht, hx⟩ | ⟨-, hx⟩⟩ := s.hostWrite_cases a v <;> rw [hx]
  · exact transition_hazard hb
  · exact transition_writeReg s r v
  · exact transition_writeMem s m v (State.target_word_lt ht)
  · exact transition_refl s

theorem transition_resetEvent (s : State) : Transition s s.resetEvent :=
  ⟨.clear, rfl, fun _ => memoryOk_nil s.params⟩

/-- Taking an action off the script is nothing the invariant speaks of. -/
theorem transition_of_script {s t : State} {rest : List HostOp}
    (h : Transition { s with script := rest } t) : Transition s t :=
  ⟨h.control, h.params, h.memory⟩

theorem transition_step {s t : State} (h : step s = .next t) : Transition s t := by
  obtain ⟨hx, -⟩ | ⟨a, rest, -, -, hx⟩ | ⟨a, v, rest, -, -, hx⟩ | ⟨rest, -, hx⟩ := step_cases s <;>
    rw [hx] at h
  · exact transition_of_script (transition_seqTurn h)
  · exact transition_of_script (transition_hostRead h)
  · obtain rfl := Host.Outcome.next.inj h
    exact transition_of_script (transition_hostWrite _ a v)
  · obtain rfl := Host.Outcome.next.inj h
    exact transition_of_script (transition_resetEvent _)

/-! ### The obligations -/

/-- Settles O55: the control part by `ControlStep`, the memory part because every write is inside its depth. -/
theorem stepKeepsInvariant : Obligations.StepKeepsInvariant := by
  intro s t hinv hstep
  obtain ⟨hcontrol, hmemory⟩ := (inv_iff s).1 hinv
  obtain ⟨control, params, memory⟩ := transition_step hstep
  exact (inv_iff t).2 ⟨controlOk_of_controlStep control hcontrol, params ▸ memory hmemory⟩

/-- Settles O57: no transition changes the parameters, which is all that `ID` and `CAP` depend on. -/
theorem parametersNeverChange : Obligations.ParametersNeverChange := by
  intro s t hstep
  have hp := (transition_step hstep).params
  exact ⟨hp, rfl, congrArg capWord hp⟩

/-- Settles O54: the two parts of the invariant at reset. -/
theorem invariantHoldsAtReset : Obligations.InvariantHoldsAtReset :=
  (inv_iff State.reset).2 ⟨controlOk_idle legal_zero rfl, memoryOk_nil _⟩

/-- Settles O56: without `ERR` the code is zero and `BUSY`, `DONE`, `HZ` give five words; with it `DONE` is 1,
`BUSY` is 0, and the four codes with either value of `HZ` give eight. -/
theorem statusReadsOneOfThirteenWords : Obligations.StatusReadsOneOfThirteenWords := by
  intro s hinv
  have hlegal : s.status.legal := ((inv_iff s).1 hinv).1.1
  generalize s.status = st at hlegal ⊢
  obtain ⟨busy, done, err, hz, code⟩ := st
  obtain ⟨hbd, herr, hcode, hcodes, hhz⟩ := hlegal
  cases err with
  | false =>
    obtain rfl : code = 0 := hcode rfl
    cases busy with
    | true =>
      obtain rfl : done = false := by simpa using hbd
      cases hz <;> decide
    | false =>
      cases done with
      | true => cases hz <;> decide
      | false =>
        obtain rfl : hz = false := by simpa using hhz
        decide
  | true =>
    obtain rfl : done = true := herr rfl
    obtain rfl : busy = false := by simpa using hbd
    obtain rfl | rfl | rfl | rfl := hcodes rfl <;> cases hz <;> decide

end Sys2Proof.Proofs.Invariant
end

section
/-! PROOFS. Registers and the host port: what `STATUS` and the constant registers read as (R12, R20, R21), what
a host address names (R10, R41, R49), the two host transactions while `BUSY = 0` (R45, R46, R50), and the fault of
a command that needs a word holding no value (R27, R216; the reading of U3 of log entry 2). -/

namespace Sys2Proof.Proofs.HostPort

open Sys2Proof Sys2Proof.Machine

/-! ### The words of `STATUS`, `ID` and `CAP` -/

/-- Settles O20: a single bit, or a field that is one part of the concatenation, or the part above `ERRCODE`. -/
theorem statusWordLayout : Obligations.StatusWordLayout := by
  intro st
  refine ⟨?busy, ?done, ?err, ?hz, ?low, ?code, ?high⟩
  case low | code | high =>
    simp (disch := decide) only [Status.word, BitVec.extractLsb'_append_eq_of_le,
      BitVec.extractLsb'_append_eq_of_add_le]
    simp
  all_goals
    simp only [Status.word, BitVec.getLsbD_append, BitVec.getLsbD_ofBool]
    simp

theorem capWord_logNMax (p : Params) : ((capWord p).extractLsb' 0 5).toNat = p.logNMax.val := by
  have hl := p.logNMax.isLt
  rw [capWord, BitVec.extractLsb'_append_eq_of_add_le (by decide), BitVec.extractLsb'_eq_self,
    BitVec.toNat_ofNat, Nat.mod_eq_of_lt (by omega)]

theorem capWord_reserved (p : Params) : (capWord p).extractLsb' 5 3 = 0 := by
  rw [capWord, BitVec.extractLsb'_append_eq_of_le (by decide),
    BitVec.extractLsb'_append_eq_of_add_le (by decide), BitVec.extractLsb'_eq_self]

theorem capWord_wmax (p : Params) : ((capWord p).extractLsb' 8 24).toNat = p.wmax := by
  have hw := wmax_le p
  rw [capWord, BitVec.extractLsb'_append_eq_of_le (by decide),
    BitVec.extractLsb'_append_eq_of_le (by decide), BitVec.extractLsb'_eq_self, BitVec.toNat_ofNat,
    Nat.mod_eq_of_lt (by omega)]

theorem capWord_suggested : capWord .suggested = 0x0010000C := by decide

/-- Settles O21: `ID` is the constant of R20, `CAP` is taken field by field. -/
theorem identificationAndCapacity : Obligations.IdentificationAndCapacity := by
  intro s
  refine ⟨rfl, capWord_logNMax s.params, capWord_reserved s.params, capWord_wmax s.params, fun h => ?_⟩
  exact (congrArg capWord h).trans capWord_suggested

/-- Settles O31: the fields of `State.reset`, with an empty memory. -/
theorem resetState : Obligations.ResetState :=
  ⟨by decide, rfl, capWord_suggested, rfl, fun _ _ => rfl⟩

/-! ### What an address names -/

theorem regionField_append (r : BitVec 4) (i : BitVec 24) : regionField (r ++ i) = r := by
  rw [regionField, BitVec.extractLsb'_append_eq_of_le (by decide), BitVec.extractLsb'_eq_self]

theorem indexField_append (r : BitVec 4) (i : BitVec 24) : indexField (r ++ i) = i := by
  rw [indexField, BitVec.extractLsb'_append_eq_of_add_le (by decide), BitVec.extractLsb'_eq_self]

theorem regOfOffset_of_ge {n : Nat} (h : 16 ≤ n) : regOfOffset n = none := by
  unfold regOfOffset
  split
  case h_17 => rfl
  all_goals omega

/-- Region 0 holds the sixteen registers in the order of R10 and nothing else (R22). -/
theorem target_region_zero (s : State) (i : BitVec 24) :
    s.target ((0 : BitVec 4) ++ i) =
      if i.toNat ≤ 0xF then
        .reg ([Reg.cmd, .status, .len, .num, .fc, .qf, .wlen, .clen, .a0, .a1, .a2, .b0, .b1, .b2, .id,
          .cap].getD i.toNat .cmd)
      else .unmapped := by
  rw [State.target, targetOf, regionField_append, indexField_append]
  generalize i.toNat = n
  by_cases h : n ≤ 0xF
  · interval_cases n <;> rfl
  · simp [h, regOfOffset_of_ge (show 16 ≤ n by omega)]

/-- The region of a memory holds its words up to its depth (R41). -/
theorem target_region_memory (s : State) (m : MemName) (i : BitVec 24) :
    s.target (BitVec.ofNat 4 m.region ++ i) =
      if i.toNat < m.depth s.params then .word m i.toNat else .unmapped := by
  have ht : targetOf (BitVec.ofNat 4 m.region ++ i) = .word m i.toNat := by
    rw [targetOf, regionField_append, indexField_append]
    cases m <;> rfl
  simp [State.target, ht, Target.wf]

/-- Regions `0x5` to `0xF` name nothing (R49). -/
theorem target_region_unmapped (s : State) {r : BitVec 4} (i : BitVec 24) (h : 5 ≤ r.toNat) :
    s.target (r ++ i) = .unmapped := by
  have ht : targetOf (r ++ i) = .unmapped := by
    rw [targetOf, regionField_append]
    split
    case h_6 => rfl
    all_goals omega
  simp [State.target, ht]

/-- Settles O4: the registers' region, the four memories', and the rest. -/
theorem addressMap : Obligations.AddressMap := by
  intro s region index
  by_cases h0 : region = 0
  · subst h0
    exact target_region_zero s index
  by_cases h1 : region = 1
  · subst h1
    exact target_region_memory s .xr index
  by_cases h2 : region = 2
  · subst h2
    exact target_region_memory s .xi index
  by_cases h3 : region = 3
  · subst h3
    exact target_region_memory s .win index
  by_cases h4 : region = 4
  · subst h4
    exact target_region_memory s .coef index
  rw [if_neg h0, if_neg h1, if_neg h2, if_neg h3, if_neg h4]
  exact target_region_unmapped s index (by bv_omega)

/-! ### One host read -/

theorem target_regAddr (s : State) (r : Reg) : s.target r.addr = .reg r := by
  simp [State.target, Target.wf]

theorem hostRead_status (s : State) :
    s.hostRead Reg.status.addr = .next (s.recordRead Reg.status.addr s.status.word) := by
  simp [State.hostRead]

theorem hostRead_reg {s : State} {a : Addr} {r : Reg} (hb : s.status.busy = false)
    (ht : s.target a = .reg r) : s.hostRead a = .next (s.recordRead a (s.readReg r)) := by
  by_cases ha : a = Reg.status.addr
  · subst ha
    obtain rfl : Reg.status = r := by simpa [target_regAddr] using ht
    exact hostRead_status s
  · simp [State.hostRead, ha, hb, ht]

/-- An address that names a memory word is not that of `STATUS`. -/
theorem ne_statusAddr_of_target_word {s : State} {a : Addr} {m : MemName} {i : Nat}
    (ht : s.target a = .word m i) : a ≠ Reg.status.addr := by
  rintro rfl
  simp [target_regAddr] at ht

theorem hostRead_word {s : State} {a : Addr} {m : MemName} {i : Nat} {v : Word}
    (hb : s.status.busy = false) (ht : s.target a = .word m i) (hv : s.wordAt m i = some v) :
    s.hostRead a = .next (s.recordRead a v) := by
  simp [State.hostRead, ne_statusAddr_of_target_word ht, hb, ht, hv]

theorem hostRead_word_none {s : State} {a : Addr} {m : MemName} {i : Nat}
    (hb : s.status.busy = false) (ht : s.target a = .word m i) (hv : s.wordAt m i = none) :
    s.hostRead a = .fault (.noValue (m.wordAddr i)) := by
  simp [State.hostRead, ne_statusAddr_of_target_word ht, hb, ht, hv]

theorem endsAtOnce_eq_false {s : State} (hclr : ∀ b, s.seq ≠ .run (.command .clr) b)
    (hill : ∀ w b, s.seq ≠ .run (.illegal w) b) : s.endsAtOnce = false := by
  rw [Bool.eq_false_iff]
  intro h
  obtain ⟨-, ⟨b, hs⟩ | ⟨w, b, hs⟩⟩ := s.endsAtOnce_iff.1 h
  · exact hclr b hs
  · exact hill w b hs

theorem step_read_reg {s : State} {a : Addr} {rest : List HostOp} {r : Reg}
    (hs : s.script = .read a :: rest) (hb : s.status.busy = false) (ht : s.target a = .reg r) :
    step s = .next { s with script := rest, record := (a, s.readReg r) :: s.record } := by
  rw [step_read hs (State.endsAtOnce_of_not_busy hb)]
  exact hostRead_reg hb ht

theorem step_read_word {s : State} {a : Addr} {rest : List HostOp} {m : MemName} {i : Nat} {v : Word}
    (hs : s.script = .read a :: rest) (hb : s.status.busy = false) (ht : s.target a = .word m i)
    (hv : s.wordAt m i = some v) :
    step s = .next { s with script := rest, record := (a, v) :: s.record } := by
  rw [step_read hs (State.endsAtOnce_of_not_busy hb)]
  exact hostRead_word hb ht hv

theorem step_read_word_none {s : State} {a : Addr} {rest : List HostOp} {m : MemName} {i : Nat}
    (hs : s.script = .read a :: rest) (hb : s.status.busy = false) (ht : s.target a = .word m i)
    (hv : s.wordAt m i = none) : step s = .fault (.noValue (m.wordAddr i)) := by
  rw [step_read hs (State.endsAtOnce_of_not_busy hb)]
  exact hostRead_word_none hb ht hv

/-- Settles O15: a step whose next action is a read is the host read, once nothing that ends at once is
pending, which `BUSY = 0` excludes. -/
theorem hostReadReturnsTheWord : Obligations.HostReadReturnsTheWord := by
  intro s a rest hs
  refine ⟨fun ha hclr hill => ?_, fun hb r ht => step_read_reg hs hb ht,
    fun hb m i ht => ⟨fun v hv => step_read_word hs hb ht hv, fun hv => step_read_word_none hs hb ht hv⟩⟩
  obtain rfl : a = Reg.status.addr := ha
  rw [step_read hs (endsAtOnce_eq_false hclr hill)]
  exact hostRead_status _

/-! ### One host write -/

theorem step_write_reg {s : State} {a : Addr} {v : Word} {rest : List HostOp} {r : Reg}
    (hs : s.script = .write a v :: rest) (hb : s.status.busy = false) (ht : s.target a = .reg r) :
    step s = .next (State.writeReg { s with script := rest } r v) := by
  have ht' : State.target { s with script := rest } a = .reg r := ht
  rw [step_write hs (State.endsAtOnce_of_not_busy hb)]
  simp [State.hostWrite, hb, ht']

theorem step_write_mem {s : State} {a : Addr} {v : Word} {rest : List HostOp} {m : MemName} {i : Nat}
    (hs : s.script = .write a v :: rest) (hb : s.status.busy = false) (ht : s.target a = .word m i) :
    step s = .next (State.writeMem { s with script := rest } m i v) := by
  have ht' : State.target { s with script := rest } a = .word m i := ht
  rw [step_write hs (State.endsAtOnce_of_not_busy hb)]
  simp [State.hostWrite, hb, ht']

/-- A host write to a memory other than `COEF` (R25, R46). -/
theorem writeMem_eq {m : MemName} (hm : m ∈ [MemName.xr, .xi, .win]) (s : State) (i : Nat) (v : Word) :
    s.writeMem m i v = { s with mem := s.mem.writeWord (m.wordAddr i) v } := by
  cases m with
  | coef => simp at hm
  | _ => rfl

/-- A write to a register the host may only read changes nothing (R22). -/
theorem writeReg_readOnly {r : Reg}
    (hr : r ∈ [Reg.status, .clen, .a0, .a1, .a2, .b0, .b1, .b2, .id, .cap]) (s : State) (v : Word) :
    s.writeReg r v = s := by
  cases r with
  | cmd | len | num | fc | qf | wlen => simp at hr
  | _ => rfl

/-- Settles O16: what `writeReg` and `writeMem` do for the register or word the address names. -/
theorem hostWriteReplacesTheWord : Obligations.HostWriteReplacesTheWord := by
  intro s a v rest hs hb
  refine ⟨step_write_reg hs hb, step_write_reg hs hb, step_write_reg hs hb, step_write_reg hs hb,
    step_write_reg hs hb, fun r hr ht => ?readOnly, fun i ht => step_write_mem hs hb ht,
    fun m hm i ht => ?word⟩
  case readOnly => rw [step_write_reg hs hb ht, writeReg_readOnly hr]
  case word =>
    rw [step_write_mem hs hb ht, writeMem_eq hm]
    refine ⟨_, rfl, rfl, Memory.readWord_writeWord_same _ _ _, fun b hne => ?_⟩
    exact (Memory.readByte_writeWord _ _ _ _).trans (if_neg hne)

/-! ### A host read after a host write -/

/-- A host write to one of the five operand registers changes no other state the host can see. -/
theorem step_write_operand {s : State} {a : Addr} {v : Word} {rest : List HostOp} {r : Reg}
    (hr : r ∈ [Reg.len, .num, .fc, .qf, .wlen]) (hs : s.script = .write a v :: rest)
    (hb : s.status.busy = false) (ht : s.target a = .reg r) :
    ∃ u, step s = .next u ∧ u.readReg r = v ∧ u.status = s.status ∧ u.params = s.params ∧ u.mem = s.mem ∧
      u.script = rest ∧ u.record = s.record := by
  refine ⟨_, step_write_reg hs hb ht, ?_⟩
  cases r with
  | len | num | fc | qf | wlen => exact ⟨rfl, rfl, rfl, rfl, rfl, rfl⟩
  | _ => simp at hr

theorem target_congr {s t : State} (h : t.params = s.params) (a : Addr) : t.target a = s.target a := by
  simp [State.target, h]

/-- A word of memory after a write to another word of the four memories. -/
theorem readWord_writeWord_of_ne {m m' : MemName} {i j : Nat} (mem : Memory) (v : Word) (hi : i < 2 ^ 24)
    (hj : j < 2 ^ 24) (h : Target.word m i ≠ .word m' j) :
    (mem.writeWord (m.wordAddr i) v).readWord (m'.wordAddr j) = mem.readWord (m'.wordAddr j) := by
  refine Memory.readWord_writeWord_other _ _ _ _ fun heq => h ?_
  obtain ⟨rfl, rfl⟩ := MemName.wordAddr_inj hj hi heq
  rfl

/-- Settles O17: the read of O15 in the state the write of O16 leaves. -/
theorem readReturnsTheLatestWrite : Obligations.ReadReturnsTheLatestWrite := by
  intro s a v rest hs hb htarget
  rcases htarget with hreg | ⟨m, hm, i, ht⟩
  · obtain ⟨r, hr, ht⟩ : ∃ r ∈ [Reg.len, .num, .fc, .qf, .wlen], s.target a = .reg r := by
      simpa using hreg
    obtain ⟨u, hwrite, hread, hstatus, hparams, hmem, hscript, hrecord⟩ := step_write_operand hr hs hb ht
    have hbu : u.status.busy = false := hstatus ▸ hb
    have htu : u.target a = .reg r := (target_congr hparams a).trans ht
    refine ⟨u, _, hwrite, step_read_reg hscript hbu htu, ?_, rfl, hstatus, fun m j _ _ => ?_⟩
    · rw [hread, hrecord]
    · exact congrArg (fun mem : Memory => mem.readWord (m.wordAddr j)) hmem
  · have hi : i < 2 ^ 24 := (State.target_word_lt ht).trans_le (depth_le _ _)
    have hwrite := step_write_mem hs hb ht
    rw [writeMem_eq hm] at hwrite
    have hv := Memory.readWord_writeWord_same s.mem (m.wordAddr i) v
    refine ⟨_, _, hwrite, step_read_word rfl ?_ ?_ hv, rfl, rfl, rfl, fun m' j hj hne => ?_⟩
    · exact hb
    · exact ht
    · exact readWord_writeWord_of_ne s.mem v hi hj (ht ▸ hne)

/-! ### A command that needs a word holding no value -/

theorem loadSeq_eq_error {s : State} {m : MemName} {n p : Nat} (hp : p < n) (hnone : s.wordAt m p = none)
    (hbelow : ∀ q < p, s.wordAt m q ≠ none) : s.loadSeq m n = .error (m.wordAddr p) :=
  (s.loadSeq_eq_error_iff m n _).2 ⟨p, hp, rfl, hnone, hbelow⟩

theorem execFft_of_load_error {s : State} {A : Nat} (herr : s.transformError = none)
    (hload : s.loadSeq .xr s.seqLen = .error A) : execFft s = .fault (.noValue A) := by
  simp [execFft, herr, hload]

theorem execIfft_of_xr_error {s : State} {A : Nat} (herr : s.transformError = none)
    (hload : s.loadSeq .xr s.seqLen = .error A) : execIfft s = .fault (.noValue A) := by
  simp [execIfft, herr, hload]

theorem execIfft_of_xi_error {s : State} {re : List Word} {A : Nat} (herr : s.transformError = none)
    (hre : s.loadSeq .xr s.seqLen = .ok re) (hload : s.loadSeq .xi s.seqLen = .error A) :
    execIfft s = .fault (.noValue A) := by
  simp [execIfft, herr, hre, hload]

theorem execFirlpf_of_load_error {s : State} {A : Nat} (herr : s.firError = none)
    (hload : s.loadSeq .win s.taps = .error A) : execFirlpf s = .fault (.noValue A) := by
  simp [execFirlpf, herr, hload]

/-- Settles O48: the load fails at the first word without a value, and the command with it. -/
theorem unwrittenOperandIsAFault : Obligations.UnwrittenOperandIsAFault := by
  intro s p
  refine ⟨fun herr hp hnone hbelow => ?xr, fun herr hp hxr hnone hbelow => ?xi,
    fun herr hp hnone hbelow => ?win⟩
  case xr =>
    have hload : s.loadSeq .xr s.seqLen = .error (MemName.xr.wordAddr p) :=
      loadSeq_eq_error hp hnone hbelow
    exact ⟨execFft_of_load_error herr hload, execIfft_of_xr_error herr hload⟩
  case xi =>
    obtain ⟨re, hre⟩ := (s.loadSeq_ok_iff_holds .xr s.seqLen).2 hxr
    exact execIfft_of_xi_error herr hre (loadSeq_eq_error hp hnone hbelow)
  case win =>
    exact execFirlpf_of_load_error herr (loadSeq_eq_error (Nat.lt_succ_of_le hp) hnone hbelow)

end Sys2Proof.Proofs.HostPort
end

section
/-! PROOFS. The host port at an unmapped address while `BUSY = 0` (R49; log entry 7): one host read and one host
write of an address that names nothing, and the steps that make them. -/

namespace Sys2Proof.Proofs.Unmapped

open Sys2Proof Sys2Proof.Machine Sys2Proof.Proofs.HostPort

/-- An unmapped address is not that of `STATUS`, which is a register at every depth. -/
theorem ne_statusAddr_of_target_unmapped {s : State} {a : Addr} (ht : s.target a = .unmapped) :
    a ≠ Reg.status.addr := by
  rintro rfl
  simp [target_regAddr] at ht

theorem hostRead_unmapped {s : State} {a : Addr} (hb : s.status.busy = false)
    (ht : s.target a = .unmapped) : s.hostRead a = .next (s.recordOpen a) := by
  simp [State.hostRead, ne_statusAddr_of_target_unmapped ht, hb, ht]

theorem hostWrite_unmapped {s : State} {a : Addr} (v : Word) (hb : s.status.busy = false)
    (ht : s.target a = .unmapped) : s.hostWrite a v = s := by
  simp [State.hostWrite, hb, ht]

theorem step_read_unmapped {s : State} {a : Addr} {rest : List HostOp} (hs : s.script = .read a :: rest)
    (hb : s.status.busy = false) (ht : s.target a = .unmapped) :
    step s = .next (State.recordOpen { s with script := rest } a) := by
  rw [step_read hs (State.endsAtOnce_of_not_busy hb)]
  exact hostRead_unmapped hb ht

theorem step_write_unmapped {s : State} {a : Addr} {v : Word} {rest : List HostOp}
    (hs : s.script = .write a v :: rest) (hb : s.status.busy = false) (ht : s.target a = .unmapped) :
    step s = .next { s with script := rest } := by
  rw [step_write hs (State.endsAtOnce_of_not_busy hb)]
  exact congrArg _ (hostWrite_unmapped v hb ht)

/-- Settles O18: with `BUSY = 0` nothing is pending that ends at once, so the step is the host access itself;
the word a read records is the free word of `recordOpen`. -/
theorem unmappedAccessChangesNothing : Obligations.UnmappedAccessChangesNothing := by
  intro s a rest ht hb
  exact ⟨fun _ hs => step_write_unmapped hs hb ht, fun hs => ⟨_, step_read_unmapped hs hb ht⟩⟩

end Sys2Proof.Proofs.Unmapped
end

section
/-! PROOFS. Command words (R60 to R62, R65): the encoder and the decoder are inverse to each other on the six
command words, and every other word is illegal for the reason the decoder gives. -/

namespace Sys2Proof.Proofs.Encoding

open Sys2Proof

theorem decode_encode (i : Instr) : decode (encode i) = .command i := by
  cases i <;> decide

/-- The encoder is the only source of words that decode to a command: the six values of `decode_eq`. -/
theorem eq_encode_of_decode {w : Word} {i : Instr} (h : decode w = .command i) : w = encode i := by
  rw [decode_eq] at h
  split at h
  next =>
    split at h
    case h_7 => simp at h
    all_goals
      obtain rfl := Decoded.command.inj h
      exact BitVec.eq_of_toNat_eq ‹w.toNat = _›
  next => simp at h

theorem decode_eq_command_iff (w : Word) (i : Instr) : decode w = .command i ↔ w = encode i :=
  ⟨eq_encode_of_decode, fun h => h ▸ decode_encode i⟩

theorem encode_injective {i j : Instr} (h : encode i = encode j) : i = j :=
  Decoded.command.inj ((decode_encode i).symm.trans ((congrArg decode h).trans (decode_encode j)))

theorem ne_encode_of_illegal {w : Word} {why : Illegal} (h : decode w = .illegal why) (i : Instr) :
    w ≠ encode i := by
  rintro rfl
  simp [decode_encode] at h

/-- The table of R62 calls an opcode illegal for one reason, and from `0x06` on. -/
theorem commandOf_eq_illegal {op : BitVec 8} {why : Illegal} (h : commandOf op = .illegal why) :
    why = .reservedOpcode ∧ 6 ≤ op.toNat := by
  unfold commandOf at h
  split at h
  case h_7 => exact ⟨(Decoded.illegal.inj h).symm, by grind⟩
  all_goals simp at h

/-- Why a word is illegal (R61, R65). -/
theorem decode_eq_illegal {w : Word} {why : Illegal} (h : decode w = .illegal why) :
    (rsvField w ≠ 0 ∧ why = .reservedField) ∨
    (rsvField w = 0 ∧ 6 ≤ (opField w).toNat ∧ why = .reservedOpcode) := by
  unfold decode at h
  split at h
  next hrsv =>
    obtain ⟨hwhy, hop⟩ := commandOf_eq_illegal h
    exact .inr ⟨hrsv, hop, hwhy⟩
  next hrsv => exact .inl ⟨hrsv, (Decoded.illegal.inj h).symm⟩

/-- Settles O3: the six encodings, decoded. -/
theorem decodeOfEncode : Obligations.DecodeOfEncode := fun i _ => decode_encode i

/-- Settles O1: the six command words are the encodings of the six commands. -/
theorem decoderAcceptsExactlySixWords : Obligations.DecoderAcceptsExactlySixWords := fun w =>
  ⟨decode_eq_command_iff w .clr, decode_eq_command_iff w .fft, decode_eq_command_iff w .ifft,
    decode_eq_command_iff w .hann, decode_eq_command_iff w .firlpf, decode_eq_command_iff w .iirlpf⟩

/-- Settles O2: by what the word decodes to. -/
theorem everyWordIsOneCommandOrIllegal : Obligations.EveryWordIsOneCommandOrIllegal := by
  intro w
  cases hw : decode w with
  | command i =>
    have henc := eq_encode_of_decode hw
    exact .inl ⟨i, henc, rfl, fun j hj => encode_injective (hj.symm.trans henc)⟩
  | illegal why =>
    right
    obtain ⟨hrsv, rfl⟩ | ⟨hrsv, hop, rfl⟩ := decode_eq_illegal hw
    · exact .inl ⟨hrsv, rfl, ne_encode_of_illegal hw⟩
    · exact .inr ⟨hrsv, hop, rfl, ne_encode_of_illegal hw⟩

end Sys2Proof.Proofs.Encoding
end

section
/-! PROOFS. The frames of the commands (R63, R110, R143, R154, R163): what a command that gives a next state has
left as it was, by the two ways it can end, an error or the store of its results. -/

namespace Sys2Proof.Proofs.Frames

open Sys2Proof Sys2Proof.Machine

/-- A byte outside the first `n` words of a memory, in the form the store lemmas ask for. -/
theorem outside_of_ne_wordAddr {m : MemName} {n b : Nat} (h : ∀ i < n, b / 4 ≠ m.wordAddr i) :
    ¬ (m.wordAddr 0 ≤ b / 4 ∧ b / 4 < m.wordAddr 0 + n) := by
  rintro ⟨hlo, hhi⟩
  refine h (b / 4 - m.wordAddr 0) (by omega) ?_
  have hadd := MemName.wordAddr_add m 0 (b / 4 - m.wordAddr 0)
  rw [Nat.zero_add] at hadd
  omega

/-- A byte outside the words a result sequence of known length is stored to. -/
theorem readByte_storeSeq_of_ne (s : State) {m : MemName} {ws : List Word} {n b : Nat} (hlen : ws.length = n)
    (h : ∀ i < n, b / 4 ≠ m.wordAddr i) : (s.storeSeq m ws).mem.readByte b = s.mem.readByte b :=
  s.readByte_storeSeq_other m ws b (hlen ▸ outside_of_ne_wordAddr h)

/-- A byte outside the words a complex sequence of known length is stored to. -/
theorem readByte_storeCpx_of_ne (s : State) {xs : List Cpx} {n b : Nat} (hlen : xs.length = n)
    (h : ∀ p < n, b / 4 ≠ MemName.xr.wordAddr p ∧ b / 4 ≠ MemName.xi.wordAddr p) :
    (s.storeCpx xs).mem.readByte b = s.mem.readByte b :=
  s.readByte_storeCpx_other xs b (hlen ▸ outside_of_ne_wordAddr fun p hp => (h p hp).1)
    (hlen ▸ outside_of_ne_wordAddr fun p hp => (h p hp).2)

/-- A transform that gives a next state has raised an error, or has stored as many pairs as `LEN` says. -/
theorem transform_next {i : Instr} (hi : i ∈ [Instr.fft, .ifft]) {s t : State} (h : exec i s = .next t) :
    (∃ e, t = s.raiseError e) ∨ ∃ xs, xs.length = s.seqLen ∧ t = (s.storeCpx xs).complete := by
  cases i with
  | fft =>
    change execFft s = _ at h
    obtain ⟨e, -, hx⟩ | ⟨A, -, -, hx⟩ | ⟨re, -, -, -, hlen, hx⟩ := execFft_cases s
    · exact .inl ⟨e, Host.Outcome.next.inj (h.symm.trans hx)⟩
    · exact absurd (h.symm.trans hx) (by simp)
    · exact .inr ⟨_, hlen, Host.Outcome.next.inj (h.symm.trans hx)⟩
  | ifft =>
    change execIfft s = _ at h
    obtain ⟨e, -, hx⟩ | ⟨A, -, -, hx⟩ | ⟨re, im, -, -, -, -, -, hlen, hx⟩ := execIfft_cases s
    · exact .inl ⟨e, Host.Outcome.next.inj (h.symm.trans hx)⟩
    · exact absurd (h.symm.trans hx) (by simp)
    · exact .inr ⟨_, hlen, Host.Outcome.next.inj (h.symm.trans hx)⟩
  | _ => simp at hi

/-- Settles O50: neither an error nor the store of the pairs touches anything else. -/
theorem transformFrame : Obligations.TransformFrame := by
  intro i hi s t h
  obtain ⟨e, rfl⟩ | ⟨xs, hlen, rfl⟩ := transform_next hi h
  · exact ⟨rfl, fun _ _ => rfl⟩
  · exact ⟨rfl, fun _ hb => readByte_storeCpx_of_ne s hlen hb⟩

/-- Settles O51: by the two ways `HANN` can end, with as many weights as `LEN` says. -/
theorem hannFrame : Obligations.HannFrame := by
  intro s t h
  change execHann s = _ at h
  obtain ⟨-, hx⟩ | ⟨-, hx⟩ := execHann_cases s
  all_goals obtain rfl := Host.Outcome.next.inj (hx.symm.trans h)
  · exact ⟨rfl, fun _ _ => rfl⟩
  · exact ⟨rfl, fun _ hb => readByte_storeSeq_of_ne s (length_hannSeq _ _ _) hb⟩

/-- Settles O52: by the three ways `FIRLPF` can end, with `NUM + 1` coefficients. -/
theorem firlpfFrame : Obligations.FirlpfFrame := by
  intro s t h
  change execFirlpf s = _ at h
  obtain ⟨e, -, hx⟩ | ⟨A, -, -, hx⟩ | ⟨win, -, -, hlen, hx⟩ := execFirlpf_cases s
  · obtain rfl := Host.Outcome.next.inj (hx.symm.trans h)
    exact ⟨rfl, fun _ _ => rfl⟩
  · exact absurd (h.symm.trans hx) (by simp)
  · obtain rfl := Host.Outcome.next.inj (hx.symm.trans h)
    have hseq := (length_firSeq Config.trig s.draws s.fc s.num.toNat win).trans hlen
    exact ⟨rfl, fun _ hb => readByte_storeSeq_of_ne s hseq fun i hi => hb i (Nat.le_of_lt_succ hi)⟩

/-- Settles O53: the six results go to registers, memory is not written. -/
theorem iirlpfFrame : Obligations.IirlpfFrame := by
  intro s t h
  obtain rfl := Host.Outcome.next.inj ((execIirlpf_eq s).symm.trans h)
  exact ⟨rfl, fun _ => rfl⟩

end Sys2Proof.Proofs.Frames
end

section
/-! PROOFS. Whose turn a step is (R50, R61, R170, R195, R211; log entries 5 and 15): the sequencer runs what it has
accepted, an access while it runs breaks the busy rule (R189, R214), an illegal word ends at once (R61, R65), and a
host that keeps the rules is neither stopped nor marked with `HZ` (R212). -/

namespace Sys2Proof.Proofs.Steps

open Sys2Proof Sys2Proof.Machine Sys2Proof.Proofs.HostPort Sys2Proof.Proofs.Encoding

/-! ### The busy rule -/

theorem hostWrite_busy {s : State} (hb : s.status.busy = true) (a : Addr) (v : Word) :
    s.hostWrite a v = s.hazard := by
  simp [State.hostWrite, hb]

theorem hostRead_busy {s : State} {a : Addr} (hb : s.status.busy = true) (ha : a ≠ Reg.status.addr) :
    s.hostRead a = .next (s.hazard.recordOpen a) := by
  simp [State.hostRead, hb, ha]

/-- Settles O19: nothing that ends at once is pending, so the step is the host access itself. -/
theorem busyRule : Obligations.BusyRule := by
  intro s a rest hb hclr hill
  have hnow : s.endsAtOnce = false := endsAtOnce_eq_false hclr hill
  refine ⟨fun hs => ?status, fun v hs => ?write, fun hs ha => ?read⟩
  case status => exact (step_read hs hnow).trans (hostRead_status _)
  case write =>
    exact (step_write hs hnow).trans
      (congrArg _ (hostWrite_busy (s := { s with script := rest }) hb a v))
  case read => exact ⟨_, (step_read hs hnow).trans (hostRead_busy hb ha)⟩

/-! ### Acceptance, and the turn after it -/

/-- A host write to `CMD` while `BUSY = 0` is acceptance (R173). -/
theorem step_write_cmd {s : State} {w : Word} {rest : List HostOp} (hs : s.script = .write 0x0000000 w :: rest)
    (hb : s.status.busy = false) : step s = .next (State.accept { s with script := rest } w) :=
  step_write_reg hs hb (target_regAddr s .cmd)

/-- What ends at once has the next turn, unless a reset comes (R61, R170, R211). -/
theorem step_of_endsAtOnce {s : State} (hnow : s.endsAtOnce = true) (hr : s.script.head? ≠ some .reset) :
    step s = State.seqTurn
      { s with script := if s.script.head? = some .pause then s.script.tail else s.script } := by
  obtain ⟨hx, -⟩ | ⟨a, rest, -, hn, -⟩ | ⟨a, v, rest, -, hn, -⟩ | ⟨rest, hs, -⟩ := step_cases s
  · exact hx
  · exact absurd hnow (by simp [hn])
  · exact absurd hnow (by simp [hn])
  · exact absurd (by simp [hs]) hr

theorem tableWord_toNat (w : Word) : tableWord 32 w.toNat = w := by
  simp [tableWord, Nat.mod_eq_of_lt w.isLt]

/-- One step from `withFetchWord` runs the command just accepted (log entry 5). -/
theorem step_withFetchWord (s : State) (i : Instr) :
    step (s.withFetchWord 32 (encode i).toNat) = exec i (s.accept (encode i)) := by
  rw [State.withFetchWord, tableWord_toNat, step_pause rfl]
  exact State.seqTurn_command (by rw [State.accept_seq, decode_encode])

/-- Settles O23: each clause is one turn of the sequencer, with what it then runs. -/
theorem stepRunsTheAcceptedCommand : Obligations.StepRunsTheAcceptedCommand := by
  intro s i _
  refine ⟨fun b rest hq hs => ?pause, fun b hq hs => ?nil, fun b op rest hq hb hs hp hr => ?clr,
    fun hq hs => ?idleNil, fun rest hq hs => ?idlePause, fun w rest hw hs hb => ?accepted,
    step_withFetchWord s i⟩
  case pause => exact (step_pause hs).trans (State.seqTurn_command hq)
  case nil => exact (step_nil hs).trans (State.seqTurn_command hq)
  case clr =>
    have hnow : s.endsAtOnce = true := s.endsAtOnce_iff.2 ⟨hb, .inl ⟨b, hq⟩⟩
    exact (step_endsAtOnce hs ⟨hp, hr⟩ hnow).trans (State.seqTurn_command hq)
  case idleNil => exact (step_nil hs).trans (State.seqTurn_idle hq)
  case idlePause => exact (step_pause hs).trans (State.seqTurn_idle hq)
  case accepted =>
    refine ⟨_, step_write_cmd hs hb, (step_pause rfl).trans (State.seqTurn_command (b := false) ?_)⟩
    exact congrArg (Seq.run · false) hw

/-- Settles O24: the accepted word ends at once, so the next step is the sequencer's error entry. -/
theorem illegalWordEndsWithIllegalCmd : Obligations.IllegalWordEndsWithIllegalCmd := by
  intro s w why rest hs hb hw hr
  have hq : (State.accept { s with script := rest } w).seq = .run (.illegal why) false := by
    rw [State.accept_seq, hw]
  have hnow : (State.accept { s with script := rest } w).endsAtOnce = true :=
    (State.endsAtOnce_iff _).2 ⟨rfl, .inr ⟨why, false, hq⟩⟩
  refine ⟨_, step_write_cmd hs hb, rfl, rfl, ?_⟩
  rw [step_of_endsAtOnce hnow hr]
  exact State.seqTurn_illegal hq

/-! ### A host that keeps the rules -/

/-- The outcome is a next state, in which `HZ` is set only if it was set in `s`. -/
def GoesOn (s : State) (o : Host.Outcome State Fault Refusal) : Prop :=
  ∃ t, o = .next t ∧ (t.status.hz = true → s.status.hz = true)

theorem goesOn_of_hz_eq {s t : State} {o : Host.Outcome State Fault Refusal} (ho : o = .next t)
    (h : t.status.hz = s.status.hz) : GoesOn s o :=
  ⟨t, ho, fun ht => h ▸ ht⟩

theorem goesOn_of_hz_false {s t : State} {o : Host.Outcome State Fault Refusal} (ho : o = .next t)
    (h : t.status.hz = false) : GoesOn s o :=
  ⟨t, ho, fun ht => absurd ht (by simp [h])⟩

/-- Where the words of a sequence hold values, its load does not fail (R212, R216). -/
theorem not_load_error {s : State} {m : MemName} {n A : Nat} (h : s.holds m n) : s.loadSeq m n ≠ .error A := by
  obtain ⟨ws, hws⟩ := (s.loadSeq_ok_iff_holds m n).2 h
  simp [hws]

theorem goesOn_execFft {s : State} (h : s.ready .fft) : GoesOn s (execFft s) := by
  obtain ⟨e, -, hx⟩ | ⟨A, herr, hload, -⟩ | ⟨re, -, -, -, -, hx⟩ := execFft_cases s
  · exact goesOn_of_hz_eq hx rfl
  · exact absurd hload (not_load_error (h herr))
  · exact goesOn_of_hz_eq hx rfl

theorem goesOn_execIfft {s : State} (h : s.ready .ifft) : GoesOn s (execIfft s) := by
  obtain ⟨e, -, hx⟩ | ⟨A, herr, hload | ⟨-, hload⟩, -⟩ | ⟨re, im, -, -, -, -, -, -, hx⟩ := execIfft_cases s
  · exact goesOn_of_hz_eq hx rfl
  · exact absurd hload (not_load_error (h herr).1)
  · exact absurd hload (not_load_error (h herr).2)
  · exact goesOn_of_hz_eq hx rfl

theorem goesOn_execHann (s : State) : GoesOn s (execHann s) := by
  obtain ⟨-, hx⟩ | ⟨-, hx⟩ := execHann_cases s
  · exact goesOn_of_hz_eq hx rfl
  · exact goesOn_of_hz_eq hx rfl

theorem goesOn_execFirlpf {s : State} (h : s.ready .firlpf) : GoesOn s (execFirlpf s) := by
  obtain ⟨e, -, hx⟩ | ⟨A, herr, hload, -⟩ | ⟨win, -, -, -, hx⟩ := execFirlpf_cases s
  · exact goesOn_of_hz_eq hx rfl
  · exact absurd hload (not_load_error (h herr))
  · exact goesOn_of_hz_eq hx rfl

/-- A command with its operands in place gives a next state and does not set `HZ` (R174, R184, R212). -/
theorem goesOn_exec {s : State} {i : Instr} (h : s.ready i) : GoesOn s (exec i s) := by
  cases i with
  | clr => exact goesOn_of_hz_false (execClr_eq s) rfl
  | fft => exact goesOn_execFft h
  | ifft => exact goesOn_execIfft h
  | hann => exact goesOn_execHann s
  | firlpf => exact goesOn_execFirlpf h
  | iirlpf => exact goesOn_of_hz_eq (execIirlpf_eq s) rfl

theorem goesOn_seqTurn {s : State} (h : s.seqReady) : GoesOn s s.seqTurn := by
  cases hq : s.seq with
  | idle => exact goesOn_of_hz_eq (State.seqTurn_idle hq) rfl
  | run d b =>
    cases d with
    | illegal w => exact goesOn_of_hz_eq (State.seqTurn_illegal hq) rfl
    | command i =>
      rw [State.seqTurn_command hq]
      exact goesOn_exec (by simpa [State.seqReady, hq] using h)

/-- What ends at once needs no operand. -/
theorem seqReady_of_endsAtOnce {s : State} (h : s.endsAtOnce = true) : s.seqReady := by
  obtain ⟨-, ⟨b, hq⟩ | ⟨w, b, hq⟩⟩ := s.endsAtOnce_iff.1 h
  all_goals simp [State.seqReady, State.ready, hq]

theorem goesOn_hostRead {s : State} {a : Addr} (h : s.defined (.read a)) : GoesOn s (s.hostRead a) := by
  obtain ⟨-, hx⟩ | ⟨ha, hb, -⟩ |
    ⟨-, -, ⟨r, -, hx⟩ | ⟨m, i, v, -, -, hx⟩ | ⟨m, i, ht, hnone, -⟩ | ⟨-, hx⟩⟩ := s.hostRead_cases a
  case inr.inl =>
    obtain rfl | ⟨hnb, -, -⟩ := h
    · exact absurd rfl ha
    · exact absurd hb (by simp [hnb])
  case inr.inr.inr.inr.inl =>
    obtain rfl | ⟨-, -, hword⟩ := h
    · exact absurd rfl (ne_statusAddr_of_target_word ht)
    · exact absurd (hword m i ht) (by simp [hnone])
  all_goals exact goesOn_of_hz_eq hx rfl

theorem hz_writeReg (s : State) (r : Reg) (v : Word) : (s.writeReg r v).status.hz = s.status.hz := by
  cases r <;> rfl

theorem hz_writeMem (s : State) (m : MemName) (i : Nat) (v : Word) :
    (s.writeMem m i v).status.hz = s.status.hz := by
  cases m <;> rfl

theorem hz_hostWrite {s : State} (hb : s.status.busy = false) (a : Addr) (v : Word) :
    (s.hostWrite a v).status.hz = s.status.hz := by
  obtain ⟨hbusy, -⟩ | ⟨-, ⟨r, -, hx⟩ | ⟨m, i, -, hx⟩ | ⟨-, hx⟩⟩ := s.hostWrite_cases a v
  · exact absurd hbusy (by simp [hb])
  · rw [hx, hz_writeReg]
  · rw [hx, hz_writeMem]
  · rw [hx]

/-- Settles O58: the sequencer's turn finds its operands, an access is one the spec defines, and a reset clears
`HZ`. -/
theorem correctHostIsNeverStopped : Obligations.CorrectHostIsNeverStopped := by
  intro s hcorrect
  change GoesOn s (step s)
  rcases hs : s.script with _ | ⟨op, rest⟩ <;> simp only [State.hostCorrect, hs] at hcorrect
  · exact step_nil hs ▸ goesOn_seqTurn hcorrect
  cases hnow : s.endsAtOnce with
  | true =>
    by_cases hr : op = .reset
    · subst hr
      exact goesOn_of_hz_false (step_reset hs) rfl
    · rw [step_of_endsAtOnce hnow (by simpa [hs] using hr)]
      exact goesOn_seqTurn (seqReady_of_endsAtOnce hnow)
  | false =>
    have hdef : s.defined op := hcorrect.resolve_left (by simp [hnow])
    cases op with
    | read a => exact step_read hs hnow ▸ goesOn_hostRead (s := { s with script := rest }) hdef
    | write a v =>
      exact goesOn_of_hz_eq (step_write hs hnow) (hz_hostWrite (s := { s with script := rest }) hdef.1 a v)
    | pause => exact step_pause hs ▸ goesOn_seqTurn (s := { s with script := rest }) hdef
    | reset => exact goesOn_of_hz_false (step_reset hs) rfl

end Sys2Proof.Proofs.Steps
end

section
/-! PROOFS. The loops of R118 and R120 against the maps of the model: a fold of updates at disjoint positions gives
each position what its own update gives it; hence a stage is the fold of its butterflies (R117), the bit-reversal
pass the fold of its exchanges (R118), and the transform the loop nest (R116, R120). -/

namespace Sys2Proof.Proofs.Loops

open Sys2Proof Sys2Proof.Machine

/-! ### Folds of updates at disjoint positions -/

/-- Each update writes only positions it touches, and what it writes depends only on the positions it touches. -/
structure IsLocal {α β : Type} (touches : β → Nat → Prop) (f : (Nat → α) → β → Nat → α) : Prop where
  frame : ∀ (X : Nat → α) (b : β) (p : Nat), ¬ touches b p → f X b p = X p
  congr : ∀ (X Y : Nat → α) (b : β), (∀ q, touches b q → X q = Y q) → ∀ p, touches b p → f X b p = f Y b p

/-- Two updates touch no common position. -/
def Apart {β : Type} (touches : β → Nat → Prop) (b c : β) : Prop := ∀ p, touches b p → ¬ touches c p

section
variable {α β : Type} {touches : β → Nat → Prop} {f : (Nat → α) → β → Nat → α}

theorem foldl_of_untouched (hf : IsLocal touches f) {bs : List β} {p : Nat} (h : ∀ b ∈ bs, ¬ touches b p)
    (X : Nat → α) : bs.foldl f X p = X p := by
  induction bs generalizing X with
  | nil => rfl
  | cons b bs ih =>
    rw [List.foldl_cons, ih (fun c hc => h c (List.mem_cons_of_mem b hc)), hf.frame X b p (h b List.mem_cons_self)]

/-- A position is left as its one update leaves it, wherever in the fold that update comes (R117). -/
theorem foldl_of_touched (hf : IsLocal touches f) {bs : List β} (hap : bs.Pairwise (Apart touches)) {b : β}
    (hb : b ∈ bs) {p : Nat} (hp : touches b p) (X : Nat → α) : bs.foldl f X p = f X b p := by
  induction bs generalizing X with
  | nil => exact absurd hb List.not_mem_nil
  | cons c bs ih =>
    obtain ⟨hc, hbs⟩ := List.pairwise_cons.1 hap
    rw [List.foldl_cons]
    rcases List.mem_cons.1 hb with rfl | hb'
    · exact foldl_of_untouched hf (fun d hd => hc d hd p hp) _
    · rw [ih hbs hb']
      exact hf.congr _ _ b (fun q hq => hf.frame X c q fun hcq => hc b hb' q hcq hq) p hp

end

/-! ### One stage -/

theorem half_pos (P : Plan) (s : Nat) : 0 < P.half s := Nat.two_pow_pos _

/-- The two positions of a butterfly (R112). -/
def BflyTouches (P : Plan) (s : Nat) (ij : Nat × Nat) (p : Nat) : Prop :=
  p = 2 * P.half s * ij.1 + ij.2 ∨ p = 2 * P.half s * ij.1 + ij.2 + P.half s

theorem bflyInPlace_isLocal (P : Plan) (s : Nat) : IsLocal (BflyTouches P s) (P.bflyInPlace s) where
  frame X ij p h := by
    obtain ⟨hfst, hsnd⟩ := not_or.1 h
    simp only [Plan.bflyInPlace, if_neg hfst, if_neg hsnd]
  congr X Y ij h p hp := by
    rcases hp with hp | hp <;> simp [Plan.bflyInPlace, hp, h _ (.inl rfl), h _ (.inr rfl)]

/-- The quotient and the remainder of a position by the size of its group (R112). -/
theorem div_mod_group (P : Plan) (s i : Nat) {y : Nat} (hy : y < 2 * P.half s) :
    (2 * P.half s * i + y) / (2 * P.half s) = i ∧ (2 * P.half s * i + y) % (2 * P.half s) = y := by
  rw [Nat.mul_add_div (by omega), Nat.div_eq_of_lt hy, Nat.mul_add_mod, Nat.mod_eq_of_lt hy]
  exact ⟨rfl, rfl⟩

/-- A position belongs to one butterfly: that of its group, at its place in the group's half (R112). -/
theorem eq_of_bflyTouches {P : Plan} {s : Nat} {ij : Nat × Nat} {p : Nat} (hj : ij.2 < P.half s)
    (h : BflyTouches P s ij p) : ij = (p / (2 * P.half s), p % P.half s) := by
  obtain ⟨i, j⟩ := ij
  replace hj : j < P.half s := hj
  have hmod : p % P.half s = j := by
    rcases h with rfl | rfl <;> simp [Nat.mul_right_comm 2, Nat.mod_eq_of_lt hj]
  have hdiv : p / (2 * P.half s) = i := by
    rcases h with rfl | rfl
    · exact (div_mod_group P s i (by omega)).1
    · rw [Nat.add_assoc]
      exact (div_mod_group P s i (by omega)).1
  rw [hmod, hdiv]

theorem exists_bflyTouches (P : Plan) (s p : Nat) : ∃ ij, ij.2 < P.half s ∧ BflyTouches P s ij p := by
  have hh := half_pos P s
  have hp := Nat.div_add_mod p (2 * P.half s)
  have hmod := Nat.mod_lt p (show 0 < 2 * P.half s by omega)
  by_cases hlow : p % (2 * P.half s) < P.half s
  · exact ⟨(p / (2 * P.half s), p % (2 * P.half s)), hlow, .inl hp.symm⟩
  · refine ⟨(p / (2 * P.half s), p % (2 * P.half s) - P.half s), ?_, .inr ?_⟩ <;> simp only <;> omega

theorem butterflies_nodup (P : Plan) (s : Nat) : (P.butterflies s).Nodup :=
  List.Nodup.product List.nodup_range List.nodup_range

theorem butterflies_apart (P : Plan) (s : Nat) : (P.butterflies s).Pairwise (Apart (BflyTouches P s)) := by
  refine (butterflies_nodup P s).imp_of_mem fun {b c} hb hc hne p hbp hcp => hne ?_
  rw [eq_of_bflyTouches ((P.mem_butterflies s b).1 hb).2 hbp, eq_of_bflyTouches ((P.mem_butterflies s c).1 hc).2 hcp]

theorem mem_butterflies_of_bflyTouches {P : Plan} {s : Nat} (h1 : 1 ≤ s) (h2 : s ≤ P.limit) {ij : Nat × Nat}
    {p : Nat} (hp : p < P.n) (hj : ij.2 < P.half s) (h : BflyTouches P s ij p) : ij ∈ P.butterflies s := by
  refine (P.mem_butterflies s ij).2 ⟨?_, hj⟩
  have hle : 2 * P.half s * ij.1 ≤ p := by
    rcases h with rfl | rfl <;> omega
  rw [P.n_eq_groups h1 h2] at hp
  exact Nat.lt_of_mul_lt_mul_left (hle.trans_lt hp)

/-- A butterfly in place leaves at its two positions what the stage leaves there (R112, R113). -/
theorem bflyInPlace_eq_stageAt {P : Plan} {s : Nat} {ij : Nat × Nat} {p : Nat} (hj : ij.2 < P.half s)
    (h : BflyTouches P s ij p) (xs : List Cpx) :
    P.bflyInPlace s (elements xs) ij p = P.stageAt s xs p := by
  obtain ⟨i, j⟩ := ij
  replace hj : j < P.half s := hj
  rcases h with rfl | rfl
  · obtain ⟨hdiv, hmod⟩ := div_mod_group P s i (show j < 2 * P.half s by omega)
    simp [Plan.bflyInPlace, Plan.stageAt, Plan.butterfly, elements, hdiv, hmod, hj]
  · obtain ⟨hdiv, hmod⟩ := div_mod_group P s i (show j + P.half s < 2 * P.half s by omega)
    rw [← Nat.add_assoc] at hdiv hmod
    simp [Plan.bflyInPlace, Plan.stageAt, Plan.butterfly, elements, hdiv, hmod, show P.half s ≠ 0 by omega]

theorem elements_tabulate {n p : Nat} (hp : p < n) (f : Nat → Cpx) : elements (tabulate n f) p = f p := by
  rw [elements, getD_tabulate, if_pos hp]

/-- A stage is the fold of its butterflies in any order (R117). -/
theorem stage_agrees_foldl (P : Plan) {s : Nat} (h1 : 1 ≤ s) (h2 : s ≤ P.limit) {order : List (Nat × Nat)}
    (hperm : order.Perm (P.butterflies s)) (xs : List Cpx) :
    AgreeBelow P.n (elements (P.stage s xs)) (order.foldl (P.bflyInPlace s) (elements xs)) := by
  intro p hp
  obtain ⟨ij, hj, htouch⟩ := exists_bflyTouches P s p
  have hmem : ij ∈ order := hperm.mem_iff.2 (mem_butterflies_of_bflyTouches h1 h2 hp hj htouch)
  have hapart : order.Pairwise (Apart (BflyTouches P s)) :=
    (hperm.pairwise_iff fun h p hc hb => h p hb hc).2 (butterflies_apart P s)
  rw [Plan.stage, elements_tabulate hp, foldl_of_touched (bflyInPlace_isLocal P s) hapart hmem htouch,
    bflyInPlace_eq_stageAt hj htouch]

/-! ### All stages -/

/-- Stages `1` to `t` are the outer loop of R120 up to `t`. -/
theorem stages_agree_foldl (P : Plan) (xs : List Cpx) {t : Nat} (ht : t ≤ P.limit) :
    AgreeBelow P.n (elements (P.stages xs t))
      ((List.range t).foldl (fun Y r => (P.butterflies (r + 1)).foldl (P.bflyInPlace (r + 1)) Y)
        (elements xs)) := by
  induction t with
  | zero => exact fun p _ => rfl
  | succ t ih =>
    intro p hp
    rw [List.range_succ, List.foldl_append, Plan.stages,
      stage_agrees_foldl P (Nat.le_add_left 1 t) ht (.refl _) _ p hp]
    exact AgreeBelow.foldl
      (fun ij hij X Y => AgreeBelow.bflyInPlace P (Nat.le_add_left 1 t) ht hij) (ih (by omega)) p hp

/-! ### The bit-reversal pass -/

theorem bitrev_succ (i L : Nat) : bitrev i (L + 1) = i % 2 * 2 ^ L + bitrev (i / 2) L := rfl

/-- The top bit of an index becomes the lowest of its reversal (R98). -/
theorem bitrev_top_bit {b : Nat} (hb : b < 2) (L : Nat) {j : Nat} (hj : j < 2 ^ L) :
    bitrev (b * 2 ^ L + j) (L + 1) = 2 * bitrev j L + b := by
  induction L generalizing j with
  | zero =>
    obtain rfl : j = 0 := by simpa using hj
    simp [bitrev, Nat.mod_eq_of_lt hb]
  | succ L ih =>
    have hpow : b * 2 ^ (L + 1) = 2 * (b * 2 ^ L) := by ring
    have hmod : (b * 2 ^ (L + 1) + j) % 2 = j % 2 := by omega
    have hdiv : (b * 2 ^ (L + 1) + j) / 2 = b * 2 ^ L + j / 2 := by omega
    rw [bitrev_succ, hmod, hdiv, ih (by rw [Nat.pow_succ] at hj; omega), bitrev_succ]
    ring

/-- `bitrev` is its own inverse (R98). -/
theorem bitrev_bitrev {i L : Nat} (hi : i < 2 ^ L) : bitrev (bitrev i L) L = i := by
  induction L generalizing i with
  | zero =>
    obtain rfl : i = 0 := by simpa using hi
    rfl
  | succ L ih =>
    rw [bitrev_succ i L, bitrev_top_bit (Nat.mod_lt i (by decide)) L (bitrev_lt _ L),
      ih (by rw [Nat.pow_succ] at hi; omega)]
    omega

/-- The two positions an exchange swaps, if it swaps any (R118). -/
def ExchangeTouches (P : Plan) (i p : Nat) : Prop := i < bitrev i P.limit ∧ (p = i ∨ p = bitrev i P.limit)

theorem exchange_isLocal (P : Plan) : IsLocal (ExchangeTouches P) P.exchange where
  frame X i p h := by
    by_cases hi : i < bitrev i P.limit
    · obtain ⟨hp, hp'⟩ := not_or.1 fun hp => h ⟨hi, hp⟩
      simp [Plan.exchange, hi, hp, hp']
    · simp [Plan.exchange, hi]
  congr X Y i h p hp := by
    obtain ⟨hi, hp⟩ := hp
    have hXi := h i ⟨hi, .inl rfl⟩
    have hXr := h _ ⟨hi, .inr rfl⟩
    rcases hp with rfl | rfl <;> simp [Plan.exchange, hi, hXi, hXr]

/-- The index below its reversal, of the pair a position belongs to. -/
theorem eq_min_of_exchangeTouches {P : Plan} {i p : Nat} (hi : i < P.n) (h : ExchangeTouches P i p) :
    i = min p (bitrev p P.limit) := by
  obtain ⟨hlt, rfl | rfl⟩ := h
  · omega
  · rw [bitrev_bitrev hi]
    omega

theorem range_apart_exchange (P : Plan) : (List.range P.n).Pairwise (Apart (ExchangeTouches P)) := by
  refine List.nodup_range.imp_of_mem fun {i j} hi hj hne p hip hjp => hne ?_
  rw [eq_min_of_exchangeTouches (List.mem_range.1 hi) hip, eq_min_of_exchangeTouches (List.mem_range.1 hj) hjp]

/-- The exchanges, in any order, leave at each position what stood at its reversal (R118). -/
theorem foldl_exchange (P : Plan) {order : List Nat} (hperm : order.Perm (List.range P.n)) (X : Nat → Cpx)
    {p : Nat} (hp : p < P.n) : order.foldl P.exchange X p = X (bitrev p P.limit) := by
  have hmem : ∀ {i}, i ∈ order ↔ i < P.n := hperm.mem_iff.trans List.mem_range
  have hapart : order.Pairwise (Apart (ExchangeTouches P)) :=
    (hperm.pairwise_iff fun h p hc hb => h p hb hc).2 (range_apart_exchange P)
  have hinv : bitrev (bitrev p P.limit) P.limit = p := bitrev_bitrev hp
  rcases Nat.lt_trichotomy p (bitrev p P.limit) with hlt | heq | hgt
  · rw [foldl_of_touched (exchange_isLocal P) hapart (hmem.2 hp) ⟨hlt, .inl rfl⟩]
    simp [Plan.exchange, hlt]
  · rw [← heq]
    refine foldl_of_untouched (exchange_isLocal P) (fun i hi htouch => ?_) X
    have hmin := eq_min_of_exchangeTouches (hmem.1 hi) htouch
    obtain rfl : i = p := by omega
    exact absurd htouch.1 (by omega)
  · have htouch : ExchangeTouches P (bitrev p P.limit) p := by
      rw [ExchangeTouches, hinv]
      exact ⟨hgt, .inr rfl⟩
    rw [foldl_of_touched (exchange_isLocal P) hapart (hmem.2 (bitrev_lt p _)) htouch]
    simp [Plan.exchange, hinv, hgt, hgt.ne']

theorem reversal_agrees_foldl (P : Plan) (xs : List Cpx) :
    AgreeBelow P.n (elements (P.reversal xs)) ((List.range P.n).foldl P.exchange (elements xs)) := by
  intro p hp
  rw [Plan.reversal, elements_tabulate hp, foldl_exchange P (.refl _) _ hp, elements]

/-! ### The transform -/

/-- The transform is the loop nest of R120 on the elements of its input. -/
theorem transform_agrees_loops (P : Plan) (xs : List Cpx) :
    AgreeBelow P.n (elements (P.transform xs)) (P.loops (elements xs)) := by
  intro p hp
  rw [Plan.transform, reversal_agrees_foldl P _ p hp]
  exact AgreeBelow.foldl (fun i hi X Y => AgreeBelow.exchange P (List.mem_range.1 hi))
    (stages_agree_foldl P xs le_rfl) p hp

/-- The words of a transform whose input is known by its elements. -/
theorem getElem?_transform (P : Plan) {xs : List Cpx} {X : Nat → Cpx} (hX : AgreeBelow P.n (elements xs) X)
    {p : Nat} (hp : p < P.n) : (P.transform xs)[p]? = some (P.loops X p) := by
  have hlen : p < (P.transform xs).length := by simpa [Plan.transform] using hp
  have helem : elements (P.transform xs) p = (P.transform xs)[p] := by
    rw [elements, List.getD_eq_getElem _ _ hlen]
  rw [List.getElem?_eq_getElem hlen, ← helem, transform_agrees_loops P xs p hp,
    AgreeBelow.loops P hX p hp]

end Sys2Proof.Proofs.Loops
end

section
/-! PROOFS. `FFT` and `IFFT` complete (R110, R119 to R121): the words they load, the pairs they store as the loop
nest leaves them, and the state after the store. -/

namespace Sys2Proof.Proofs.Transforms

open Sys2Proof Sys2Proof.Machine Sys2Proof.Proofs.Frames Sys2Proof.Proofs.Loops

/-- `limit = log2(LEN)` is the exponent of a length that is a power of two (R97, R112). -/
theorem plan_n_of_ispow2 {n : Nat} (h : ispow2 n = true) (T : Trig) (e : Nat) (dir : Direction) :
    (Plan.mk T e dir (Nat.log2 n)).n = n :=
  ((ispow2_iff_log2 n).1 h).2

/-- A stored pair of an undisturbed command, read back. -/
theorem wordAt_storeCpx_undisturbed {s : State} (hd : s.disturbed = false) {xs : List Cpx} {p : Nat} {x : Cpx}
    (hlen : xs.length ≤ 2 ^ 24) (hx : xs[p]? = some x) :
    (s.storeCpx xs).wordAt .xr p = some x.re ∧ (s.storeCpx xs).wordAt .xi p = some x.im := by
  obtain ⟨hp, hval⟩ := List.getElem?_eq_some_iff.1 hx
  constructor <;> rw [s.wordAt_storeCpx xs _ p hlen (by omega)] <;> simp [hp, hval, hd]

theorem map_tabulate {α β : Type} (g : α → β) (n : Nat) (f : Nat → α) :
    (tabulate n f).map g = tabulate n fun i => g (f i) := by
  simp [tabulate]

/-- The pairs of `FFT`, from the words of `XR` (R110, R120). -/
theorem getElem?_fftSeq {T : Trig} {e n p : Nat} (x : Nat → F32) (hn : ispow2 n = true) (hp : p < n) :
    (fftSeq T e (tabulate n x))[p]? =
      some (Plan.loops ⟨T, e, .forward, Nat.log2 n⟩ (fun q => ⟨x q, 0⟩) p) := by
  have hN := plan_n_of_ispow2 hn T e .forward
  rw [fftSeq, length_tabulate, map_tabulate]
  refine getElem?_transform _ (fun q hq => ?_) (hN.symm ▸ hp)
  rw [hN] at hq
  exact elements_tabulate hq _

/-- The pairs of `IFFT`, from the words of `XR` and `XI` (R110, R119, R121). -/
theorem getElem?_ifftSeq {T : Trig} {e n p : Nat} (x : Nat → Cpx) (hn : ispow2 n = true) (hp : p < n) :
    ∃ k k', (ifftSeq T e (tabulate n x))[p]? =
      some ⟨fdiv k (Plan.loops ⟨T, e, .inverse, Nat.log2 n⟩ x p).re (u2f n),
        fdiv k' (Plan.loops ⟨T, e, .inverse, Nat.log2 n⟩ x p).im (u2f n)⟩ := by
  have hN := plan_n_of_ispow2 hn T e .inverse
  have htransform : (Plan.transform ⟨T, e, .inverse, Nat.log2 n⟩ (tabulate n x))[p]? =
      some (Plan.loops ⟨T, e, .inverse, Nat.log2 n⟩ x p) :=
    getElem?_transform _ (fun q hq => elements_tabulate (hN ▸ hq) x) (hN.symm ▸ hp)
  refine ⟨⟨e, Nat.log2 n + 1, p, 0⟩, ⟨e, Nat.log2 n + 1, p, 1⟩, ?_⟩
  rw [ifftSeq, length_tabulate, Plan.scale, List.getElem?_mapIdx, htransform, hN]
  rfl

theorem zipWith_tabulate (n : Nat) (x : Nat → Cpx) :
    List.zipWith Cpx.mk (tabulate n fun q => (x q).re) (tabulate n fun q => (x q).im) = tabulate n x := by
  simp [tabulate, List.zipWith_map]

/-- A transform's completion writes memory and `STATUS` and moves the model's own counter on (R110, R174). -/
theorem complete_storeCpx_eq (s : State) (xs : List Cpx) :
    (s.storeCpx xs).complete = { s with
      mem := (s.storeCpx xs).mem, seq := .idle, draws := s.draws + 1,
      status := { s.status with busy := false, done := true } } := rfl

theorem execFft_eq {s : State} {x : Nat → F32} (herr : s.transformError = none)
    (hx : ∀ p < s.seqLen, s.wordAt .xr p = some (x p)) :
    execFft s = .next (s.storeCpx (fftSeq Config.trig s.draws (tabulate s.seqLen x))).complete := by
  simp [execFft, herr, State.loadSeq_of_words hx]

theorem execIfft_eq {s : State} {x : Nat → Cpx} (herr : s.transformError = none)
    (hx : ∀ p < s.seqLen, s.wordAt .xr p = some (x p).re ∧ s.wordAt .xi p = some (x p).im) :
    execIfft s = .next (s.storeCpx (ifftSeq Config.trig s.draws (tabulate s.seqLen x))).complete := by
  simp [execIfft, herr, State.loadSeq_of_words fun p hp => (hx p hp).1,
    State.loadSeq_of_words fun p hp => (hx p hp).2, zipWith_tabulate]

/-- Settles O33: the pairs stored are the loop nest's, and the store touches nothing else. -/
theorem fftCompletes : Obligations.FftCompletes := by
  intro s x hpow hmax hx hd
  have herr : s.transformError = none := s.transformError_eq_none_iff.2 ⟨hpow, hmax⟩
  have hlen : (fftSeq Config.trig s.draws (tabulate s.seqLen x)).length = s.seqLen := by
    rw [length_fftSeq] <;> rw [length_tabulate]
    exact hpow
  refine ⟨_, execFft_eq herr hx, complete_storeCpx_eq s _, fun p hp => ?words,
    fun b hb => readByte_storeCpx_of_ne s hlen hb⟩
  exact wordAt_storeCpx_undisturbed hd (hlen.trans_le (hmax.trans (nmax_le _))) (getElem?_fftSeq x hpow hp)

/-- Settles O34: the same, every component divided by `LEN` at a site of its own. -/
theorem ifftCompletes : Obligations.IfftCompletes := by
  intro s x hpow hmax hx hd
  have herr : s.transformError = none := s.transformError_eq_none_iff.2 ⟨hpow, hmax⟩
  have hlen : (ifftSeq Config.trig s.draws (tabulate s.seqLen x)).length = s.seqLen := by
    rw [length_ifftSeq] <;> rw [length_tabulate]
    exact hpow
  refine ⟨_, execIfft_eq herr hx, complete_storeCpx_eq s _, fun p hp => ?words,
    fun b hb => readByte_storeCpx_of_ne s hlen hb⟩
  obtain ⟨k, k', hpair⟩ := getElem?_ifftSeq x hpow hp
  exact ⟨k, k', wordAt_storeCpx_undisturbed hd (hlen.trans_le (hmax.trans (nmax_le _))) hpair⟩

end Sys2Proof.Proofs.Transforms
end

section
/-! PROOFS. Correct rounding (R81, R83, R91): the shift and the significand `roundLow` is made of, the value of the
pattern they pack to, where they overflow, and that no finite pattern is nearer; then the four primitives and `u2f`. -/

namespace Sys2Proof.Proofs.Rounding

open Sys2Proof Sys2Proof.Machine Sys2Proof.Proofs.Trig

/-! ### Shift and significand -/

/-- The binary places dropped when `p / d`, in units of `2^-149`, is rounded. -/
def shift (p d : Nat) : Nat := roundShift (p * 2 ^ 149 / d)

/-- `p / d`, in units of `2^-149`, rounded to a multiple of `2 ^ shift p d` and divided by it. -/
def significand (p d : Nat) : Nat := roundEven (p * 2 ^ 149) (d * 2 ^ shift p d)

theorem roundLow_eq (p d : Nat) : roundLow p d = min (shift p d * 2 ^ 23 + significand p d) infLow := rfl

theorem lt_two_pow_roundShift (t : Nat) : t < 2 ^ 24 * 2 ^ roundShift t := by
  rw [roundShift]
  split
  · omega
  · next h =>
    have hlog : 24 ≤ Nat.log2 t := (Nat.le_log2 (by omega)).2 (by omega)
    rw [← Nat.pow_add, show 24 + (Nat.log2 t - 23) = Nat.log2 t + 1 by omega]
    exact Nat.lt_log2_self

theorem two_pow_roundShift_le {t : Nat} (h : roundShift t ≠ 0) : 2 ^ 23 * 2 ^ roundShift t ≤ t := by
  rw [roundShift] at h ⊢
  split at h
  · exact absurd rfl h
  · next ht =>
    have hlog : 24 ≤ Nat.log2 t := (Nat.le_log2 (by omega)).2 (by omega)
    rw [if_neg ht, ← Nat.pow_add, show 23 + (Nat.log2 t - 23) = Nat.log2 t by omega]
    exact Nat.log2_self_le (by omega)

section
variable {p d : Nat} (hd : 0 < d)
include hd

theorem lt_two_pow_shift : p * 2 ^ 149 < 2 ^ 24 * (d * 2 ^ shift p d) := by
  have h := (Nat.div_lt_iff_lt_mul hd).1 (lt_two_pow_roundShift (p * 2 ^ 149 / d))
  exact h.trans_eq (by rw [shift]; ring)

/-- Only a magnitude of `2^24` units or more drops places, so the shifted one keeps 24 of them. -/
theorem two_pow_shift_le (hs : shift p d ≠ 0) : 2 ^ 23 * (d * 2 ^ shift p d) ≤ p * 2 ^ 149 := by
  have h := (Nat.le_div_iff_mul_le hd).1 (two_pow_roundShift_le hs)
  exact le_trans (le_of_eq (by rw [shift]; ring)) h

theorem significand_le : significand p d ≤ 2 ^ 24 := by
  have hD : 0 < d * 2 ^ shift p d := by positivity
  have hlt := lt_two_pow_shift (p := p) hd
  obtain ⟨-, hhi, -⟩ := roundEven_spec (n := p * 2 ^ 149) hD
  rw [← significand] at hhi
  by_contra hgt
  have := Nat.mul_le_mul_right (d * 2 ^ shift p d) (by omega : 2 * 2 ^ 24 + 2 ≤ 2 * significand p d)
  rw [Nat.add_mul, Nat.mul_assoc] at this
  omega

theorem le_significand (hs : shift p d ≠ 0) : 2 ^ 23 ≤ significand p d := by
  have hD : 0 < d * 2 ^ shift p d := by positivity
  have hle := two_pow_shift_le hd hs
  obtain ⟨hlo, -, -⟩ := roundEven_spec (n := p * 2 ^ 149) hD
  rw [← significand] at hlo
  by_contra hlt
  have := Nat.mul_le_mul_right (d * 2 ^ shift p d) (by omega : 2 * significand p d + 1 ≤ 2 * 2 ^ 23 - 1)
  rw [Nat.sub_mul, Nat.mul_assoc] at this
  omega

/-- The rounded magnitude stays below `2^128` exactly where the exact one is below `2^128 - 2^103` (R81): at shift
253 the significand must not reach `2^24`, and the tie at `2^24 - 1/2` goes up, to the even one. -/
theorem packed_lt_infLow_iff :
    shift p d * 2 ^ 23 + significand p d < infLow ↔ p < (2 ^ 128 - 2 ^ 103) * d := by
  obtain ⟨U, hU⟩ : ∃ U, U = d * 2 ^ 252 := ⟨_, rfl⟩
  have hpos : 0 < U := hU ▸ Nat.mul_pos hd (Nat.two_pow_pos 252)
  have hscale : p < (2 ^ 128 - 2 ^ 103) * d ↔ p * 2 ^ 149 < (2 ^ 25 - 1) * U := by
    rw [← Nat.mul_lt_mul_right (Nat.two_pow_pos 149), hU]
    exact iff_of_eq (congrArg _ (by ring))
  have hinf : infLow = 255 * 2 ^ 23 := rfl
  have hq := significand_le (p := p) hd
  rw [hscale, hinf]
  rcases lt_trichotomy (shift p d) 253 with hlt | heq | hgt
  · have hlow : shift p d * 2 ^ 23 + significand p d < 255 * 2 ^ 23 := by omega
    have hD : d * 2 ^ shift p d ≤ U :=
      hU ▸ Nat.mul_le_mul_left d (Nat.pow_le_pow_right (by decide) (by omega))
    have hn : p * 2 ^ 149 < 2 ^ 24 * U := (lt_two_pow_shift hd).trans_le (Nat.mul_le_mul_left _ hD)
    exact iff_of_true hlow (hn.trans (Nat.mul_lt_mul_of_pos_right (by decide) hpos))
  · have hD : d * 2 ^ shift p d = 2 * U := by
      rw [heq, hU]
      ring
    have hlo := le_significand (p := p) hd (by omega)
    obtain ⟨hup, hdown, heven⟩ :=
      roundEven_spec (n := p * 2 ^ 149) (Nat.mul_pos hd (Nat.two_pow_pos (shift p d)))
    rw [← significand, hD] at hup hdown heven
    rw [heq]
    rcases hq.lt_or_eq with hlt | h24
    · refine iff_of_true (by omega) ?_
      have hmul : (2 * significand p d + 1) * (2 * U) ≤ (2 ^ 25 - 1) * (2 * U) :=
        Nat.mul_le_mul_right _ (by omega)
      by_contra hge
      have hq' : (2 * significand p d + 1) * (2 * U) = (2 ^ 25 - 1) * (2 * U) := by omega
      have hodd := Nat.eq_of_mul_eq_mul_right (by omega) hq'
      have := heven (.inl (by omega))
      omega
    · rw [h24] at hdown ⊢
      exact iff_of_false (by omega) (by omega)
  · have hlo := le_significand (p := p) hd (by omega)
    have hn := two_pow_shift_le (p := p) hd (by omega)
    have hD : 4 * U ≤ d * 2 ^ shift p d := by
      have := Nat.mul_le_mul_left d (Nat.pow_le_pow_right (n := 2) (by decide) (by omega : 254 ≤ shift p d))
      omega
    exact iff_of_false (by omega) (by omega)

end

/-! ### The value of a packed pattern -/

/-- A significand of `2^24` carries into the exponent, so the value is still significand times place. -/
theorem magnitude_pack (neg : Bool) {s q : Nat} (hq : q ≤ 2 ^ 24) (hs : s ≠ 0 → 2 ^ 23 ≤ q)
    (hlow : s * 2 ^ 23 + q < infLow) : magnitude (pack neg (s * 2 ^ 23 + q)) = q * 2 ^ s := by
  have hlow' : s * 2 ^ 23 + q < 2 ^ 31 := hlow.trans (by decide)
  rw [magnitude, fexp_pack _ hlow', ffrac_pack _ hlow']
  rcases lt_or_ge q (2 ^ 23) with hsub | hnorm
  · obtain rfl : s = 0 := by
      by_contra h
      have := hs h
      omega
    rw [if_pos (by omega)]
    omega
  · rcases hq.lt_or_eq with hlt | rfl
    · rw [show (s * 2 ^ 23 + q) / 2 ^ 23 = s + 1 by omega,
        show (s * 2 ^ 23 + q) % 2 ^ 23 = q - 2 ^ 23 by omega, if_neg (by omega), Nat.add_sub_cancel,
        Nat.add_sub_cancel' hnorm]
    · rw [show (s * 2 ^ 23 + 2 ^ 24) / 2 ^ 23 = s + 2 by omega,
        show (s * 2 ^ 23 + 2 ^ 24) % 2 ^ 23 = 0 by omega, if_neg (by omega),
        show s + 2 - 1 = s + 1 by omega]
      ring

theorem scaledValue_eq (a : F32) :
    scaledValue a = (if fsign a then -1 else 1) * (magnitude a : ℤ) := by
  rw [scaledValue]
  split <;> simp

theorem realValue_eq (a : F32) :
    realValue a = (if fsign a then -1 else 1) * ((magnitude a : ℚ) / 2 ^ 149) := by
  rw [realValue, scaledValue_eq]
  push_cast
  split <;> ring

theorem realValue_of_isZero {a : F32} (hz : isZero a = true) : realValue a = 0 := by
  simp [realValue_eq, (magnitude_eq_zero_iff a).2 hz]

@[simp] theorem realValue_fneg (a : F32) : realValue (fneg a) = -realValue a := by
  rw [realValue, realValue, scaledValue_fneg]
  push_cast
  ring

theorem fneg_pack (neg : Bool) {low : Nat} (h : low < 2 ^ 31) : fneg (pack neg low) = pack (!neg) low := by
  apply eq_of_fields
  · rw [fsign_fneg, fsign_pack _ h, fsign_pack _ h]
  · rw [fexp_fneg, fexp_pack _ h, fexp_pack _ h]
  · rw [ffrac_fneg, ffrac_pack _ h, ffrac_pack _ h]

theorem roundLow_lt (p d : Nat) : roundLow p d < 2 ^ 31 := (min_le_right _ _).trans_lt (by decide)

theorem fneg_fl32 (neg : Bool) (p d : Nat) : fneg (fl32 neg p d) = fl32 (!neg) p d :=
  fneg_pack neg (roundLow_lt p d)

@[simp] theorem fsign_fl32 (neg : Bool) (p d : Nat) : fsign (fl32 neg p d) = neg := fsign_pack neg (roundLow_lt p d)

theorem fneg_finf (neg : Bool) : fneg (finf neg) = finf (!neg) := fneg_pack neg (by decide)

/-! ### No value is nearer -/

theorem abs_sub_roundEven_le {n D : Nat} (hD : 0 < D) :
    |(n : ℚ) / D - roundEven n D| ≤ 1 / 2 ∧
      (|(n : ℚ) / D - roundEven n D| = 1 / 2 → roundEven n D % 2 = 0) := by
  obtain ⟨hup, hdown, heven⟩ := roundEven_spec (n := n) hD
  have hD' : (0 : ℚ) < D := by exact_mod_cast hD
  have hn : (n : ℚ) = n / D * D := by field_simp
  generalize roundEven n D = q at *
  generalize hx : (n : ℚ) / D = x at *
  have hup' : (2 * n : ℚ) ≤ (2 * q + 1) * D := by exact_mod_cast hup
  have hdown' : (2 * q * D : ℚ) ≤ 2 * n + D := by exact_mod_cast hdown
  rw [hn] at hup' hdown'
  have hxup : x ≤ q + 1 / 2 := le_of_mul_le_mul_right (by linarith) hD'
  have hxdown : q - 1 / 2 ≤ x := le_of_mul_le_mul_right (by linarith) hD'
  refine ⟨abs_sub_le_iff.2 ⟨by linarith, by linarith⟩, fun htie => heven ?_⟩
  rcases (abs_eq (by norm_num)).1 htie with h | h
  · left
    have : (2 * n : ℚ) = (2 * q + 1) * D := by rw [hn, eq_add_of_sub_eq h]; ring
    exact_mod_cast this
  · right
    have : (2 * q * D : ℚ) = 2 * n + D := by rw [hn, eq_add_of_sub_eq h]; ring
    exact_mod_cast this

/-- `v` is no nearer to `y` than `r` is, and is as near, being another value, only where `q` is even. -/
def NoNearer (y r v : ℚ) (q : Nat) : Prop := |y - r| ≤ |y - v| ∧ (|y - r| = |y - v| → v ≠ r → q % 2 = 0)

theorem NoNearer.mul_right {y r v c : ℚ} {q : Nat} (h : NoNearer y r v q) (hc : 0 < c) :
    NoNearer (y * c) (r * c) (v * c) q := by
  obtain ⟨hle, htie⟩ := h
  have hdist (w : ℚ) : |y * c - w * c| = |y - w| * c := by rw [← sub_mul, abs_mul, abs_of_pos hc]
  rw [NoNearer, hdist, hdist]
  exact ⟨mul_le_mul_of_nonneg_right hle hc.le,
    fun heq hne => htie (mul_right_cancel₀ hc.ne' heq) fun hv => hne (by rw [hv])⟩

theorem NoNearer.neg {y r v : ℚ} {q : Nat} (h : NoNearer y r v q) : NoNearer (-y) (-r) (-v) q := by
  obtain ⟨hle, htie⟩ := h
  have hdist (w : ℚ) : |-y - -w| = |y - w| := by rw [neg_sub_neg, abs_sub_comm]
  rw [NoNearer, hdist, hdist]
  exact ⟨hle, fun heq hne => htie heq fun hv => hne (by rw [hv])⟩

/-- Another integer is a whole unit away from the rounded quotient, so at least half a unit from the exact one. -/
theorem roundEven_nearest {n D : Nat} (hD : 0 < D) (m : ℤ) :
    NoNearer ((n : ℚ) / D) (roundEven n D) m (roundEven n D) := by
  obtain ⟨hhalf, heven⟩ := abs_sub_roundEven_le (n := n) hD
  by_cases hm : m = roundEven n D
  · subst hm
    simp [NoNearer]
  have hunit : (1 : ℚ) ≤ |(roundEven n D : ℚ) - m| := by
    have : (1 : ℤ) ≤ |(roundEven n D : ℤ) - m| := Int.one_le_abs (by omega)
    exact_mod_cast this
  have htri := abs_sub_le (roundEven n D : ℚ) ((n : ℚ) / D) m
  rw [abs_sub_comm (roundEven n D : ℚ) (n / D)] at htri
  exact ⟨by linarith, fun heq _ => heven (by linarith)⟩

theorem scaledValue_le_magnitude (a : F32) : scaledValue a ≤ magnitude a := by
  rw [scaledValue]
  split <;> omega

/-- A value whose last place stands below place `s` is below `2^23` units of place `s`. -/
theorem scaledValue_multiple_or_lt (v : F32) (s : Nat) :
    (∃ m : ℤ, scaledValue v = m * 2 ^ s) ∨ (s ≠ 0 ∧ scaledValue v < 2 ^ 23 * 2 ^ s) := by
  have hle := scaledValue_le_magnitude v
  have hf := ffrac_lt v
  rcases Nat.eq_zero_or_pos s with rfl | hs
  · exact .inl ⟨scaledValue v, by simp⟩
  rcases Nat.eq_zero_or_pos (fexp v) with he | he
  · right
    have hpow : 2 ^ 23 * 1 ≤ 2 ^ 23 * 2 ^ s := Nat.mul_le_mul_left _ Nat.one_le_two_pow
    rw [magnitude, if_pos he] at hle
    exact ⟨hs.ne', hle.trans_lt (by exact_mod_cast hf.trans_le hpow)⟩
  have hmag : magnitude v = (2 ^ 23 + ffrac v) * 2 ^ (fexp v - 1) := if_neg he.ne'
  rcases Nat.lt_or_ge (fexp v - 1) s with hlt | hge
  · right
    have hpow : magnitude v < 2 ^ 23 * 2 ^ s := calc
      magnitude v < 2 ^ 24 * 2 ^ (fexp v - 1) := hmag ▸ Nat.mul_lt_mul_of_pos_right (by omega) (Nat.two_pow_pos _)
      _ ≤ 2 ^ 24 * 2 ^ (s - 1) := Nat.mul_le_mul_left _ (Nat.pow_le_pow_right (by decide) (by omega))
      _ = 2 ^ 23 * 2 ^ s := by rw [← Nat.pow_add, ← Nat.pow_add]; congr 1; omega
    exact ⟨hs.ne', hle.trans_lt (by exact_mod_cast hpow)⟩
  · left
    refine ⟨(if fsign v then -1 else 1) * ((2 ^ 23 + ffrac v : ℕ) * 2 ^ (fexp v - 1 - s)), ?_⟩
    rw [scaledValue_eq, hmag, mul_assoc, mul_assoc, ← pow_add, Nat.sub_add_cancel hge]
    push_cast
    rfl

/-- No finite value is nearer to `p / d`, in units of `2^-149`, than its rounding: a multiple of the last place is
not, by `roundEven_nearest`, and a smaller value stands beyond the multiple `2^23`. -/
theorem significand_nearest {p d : Nat} (hd : 0 < d) (v : F32) :
    NoNearer ((p : ℚ) * 2 ^ 149 / d) (significand p d * 2 ^ shift p d) (scaledValue v) (significand p d) := by
  have hplace : (0 : ℚ) < 2 ^ shift p d := by positivity
  have hquot : ((p * 2 ^ 149 : ℕ) : ℚ) / (d * 2 ^ shift p d : ℕ) * 2 ^ shift p d = (p : ℚ) * 2 ^ 149 / d := by
    rw [Nat.cast_mul, Nat.cast_mul, Nat.cast_pow, Nat.cast_pow, Nat.cast_ofNat]
    field_simp
  have hnear (m : ℤ) := (roundEven_nearest (n := p * 2 ^ 149)
    (Nat.mul_pos hd (Nat.two_pow_pos (shift p d))) m).mul_right hplace
  rw [hquot, ← significand] at hnear
  rcases scaledValue_multiple_or_lt v (shift p d) with ⟨m, hm⟩ | ⟨hs, hlt⟩
  · have hv : (scaledValue v : ℚ) = m * 2 ^ shift p d := by exact_mod_cast hm
    rw [hv]
    exact hnear m
  · have hle := (hnear (2 ^ 23)).1
    have hv : (scaledValue v : ℚ) < 2 ^ 23 * 2 ^ shift p d := by exact_mod_cast hlt
    have hge : (2 ^ 23 * 2 ^ shift p d : ℚ) ≤ p * 2 ^ 149 / d := by
      rw [le_div_iff₀ (by exact_mod_cast hd)]
      have : (2 ^ 23 * (d * 2 ^ shift p d) : ℚ) ≤ p * 2 ^ 149 := by exact_mod_cast two_pow_shift_le hd hs
      linarith
    rw [Int.cast_pow, Int.cast_ofNat, abs_of_nonneg (sub_nonneg.2 hge)] at hle
    have hpos : (0 : ℚ) < p * 2 ^ 149 / d - scaledValue v := by linarith
    have hfar := hle.trans_lt ((sub_lt_sub_left hv _).trans_eq (abs_of_pos hpos).symm)
    exact ⟨hfar.le, fun heq => absurd heq hfar.ne⟩

/-! ### `fl32` is the nearest pattern (R81) -/

theorem fl32_eq_pack {p d : Nat} (hd : 0 < d) (neg : Bool) (h : p < (2 ^ 128 - 2 ^ 103) * d) :
    fl32 neg p d = pack neg (shift p d * 2 ^ 23 + significand p d) := by
  rw [fl32, roundLow_eq, min_eq_left ((packed_lt_infLow_iff hd).2 h).le]

theorem fl32_eq_finf {p d : Nat} (hd : 0 < d) (neg : Bool) (h : ¬ p < (2 ^ 128 - 2 ^ 103) * d) :
    fl32 neg p d = finf neg := by
  rw [fl32, roundLow_eq, min_eq_right (not_lt.1 fun hlt => h ((packed_lt_infLow_iff hd).1 hlt)), finf]

/-- What `fl32` gives below the overflow bound: a finite pattern, its value, its fraction's parity. -/
theorem fl32_fields {p d : Nat} (hd : 0 < d) (h : p < (2 ^ 128 - 2 ^ 103) * d) :
    isFinite (fl32 false p d) = true ∧
      realValue (fl32 false p d) = significand p d * 2 ^ shift p d / 2 ^ 149 ∧
      ffrac (fl32 false p d) % 2 = significand p d % 2 := by
  have hlow := (packed_lt_infLow_iff hd).2 h
  have hlow' : shift p d * 2 ^ 23 + significand p d < 2 ^ 31 := hlow.trans (by decide)
  have hinf : infLow = 255 * 2 ^ 23 := rfl
  rw [fl32_eq_pack hd false h]
  refine ⟨?_, ?_, ?_⟩
  · rw [isFinite_iff, fexp_pack _ hlow']
    omega
  · rw [realValue_eq, fsign_pack _ hlow', magnitude_pack false (significand_le hd) (le_significand hd) hlow]
    push_cast
    simp
  · rw [ffrac_pack _ hlow']
    omega

theorem isNearest_fl32_false {p d : Nat} (hd : 0 < d) : IsNearest ((p : ℚ) / d) (fl32 false p d) := by
  have hd' : (0 : ℚ) < d := by exact_mod_cast hd
  have hx : (0 : ℚ) ≤ (p : ℚ) / d := by positivity
  have hbound : |(p : ℚ) / d| < 2 ^ 128 - 2 ^ 103 ↔ p < (2 ^ 128 - 2 ^ 103) * d := by
    have hcast : ((2 ^ 128 - 2 ^ 103 : ℕ) : ℚ) = 2 ^ 128 - 2 ^ 103 := by norm_num
    rw [abs_of_nonneg hx, div_lt_iff₀ hd', ← hcast, ← Nat.cast_mul, Nat.cast_lt]
  rw [IsNearest]
  by_cases h : p < (2 ^ 128 - 2 ^ 103) * d
  · rw [if_pos (hbound.2 h)]
    obtain ⟨hfin, hval, hpar⟩ := fl32_fields hd h
    refine ⟨hfin, fun v _ => ?_⟩
    have hnear := (significand_nearest (p := p) hd v).mul_right (by positivity : (0 : ℚ) < (2 ^ 149)⁻¹)
    rw [mul_div_right_comm, mul_inv_cancel_right₀ (by positivity), ← div_eq_mul_inv, ← div_eq_mul_inv,
      ← hval] at hnear
    exact ⟨hnear.1, fun heq hne => hpar.trans (hnear.2 heq hne)⟩
  · rw [if_neg fun hlt => h (hbound.1 hlt), fl32_eq_finf hd false h]
    simp [not_lt.2 hx]

/-- Rounding is symmetric about zero. -/
theorem isNearest_fneg {x : ℚ} {r : F32} (h : IsNearest x r) : IsNearest (-x) (fneg r) := by
  rw [IsNearest] at h ⊢
  rw [abs_neg]
  split at h
  · next hlt =>
    obtain ⟨hfin, hnear⟩ := h
    rw [if_pos hlt]
    refine ⟨by rwa [isFinite_fneg], fun v hv => ?_⟩
    have h := NoNearer.neg (hnear (fneg v) (by rwa [isFinite_fneg]))
    rwa [realValue_fneg, neg_neg, ← realValue_fneg, ← ffrac_fneg] at h
  · next hge =>
    have hx : x ≠ 0 := fun h0 => hge (by rw [h0]; norm_num)
    rw [if_neg hge, h, fneg_finf]
    congr 1
    rcases hx.lt_or_gt with hneg | hpos
    · simp [hneg, hneg.le]
    · simp [hpos, hpos.le]

/-- `fl32` with a sign is the correctly rounded value of the signed fraction (R81). -/
theorem isNearest_fl32 (neg : Bool) {p d : Nat} (hd : 0 < d) :
    IsNearest ((if neg then -1 else 1) * ((p : ℚ) / d)) (fl32 neg p d) := by
  cases neg with
  | false => simpa using isNearest_fl32_false hd
  | true => simpa [fneg_fl32] using isNearest_fneg (isNearest_fl32_false (p := p) hd)

/-! ### The primitives (R81, R83) -/

theorem magnitude_pos_of_not_isZero {a : F32} (hz : isZero a = false) : 0 < magnitude a := by
  refine Nat.pos_of_ne_zero fun h => ?_
  rw [(magnitude_eq_zero_iff a).1 h] at hz
  exact absurd hz (by decide)

theorem sign_mul_sign (a b : Bool) :
    (if a then (-1 : ℚ) else 1) * (if b then -1 else 1) = if a != b then -1 else 1 := by
  cases a <;> cases b <;> simp

theorem isNearest_fadd (k : Site) {a b : F32} (ha : isFinite a = true) (hb : isFinite b = true) :
    IsNearest (realValue a + realValue b) (fadd k a b) := by
  have hx : realValue a + realValue b = ((scaledValue a + scaledValue b : ℤ) : ℚ) / 2 ^ 149 := by
    rw [realValue, realValue]
    push_cast
    ring
  rw [hx, fadd_of_finite k ha hb]
  generalize scaledValue a + scaledValue b = z
  split
  · next hz =>
    have h := isNearest_fl32 (p := 0) (fsign a && fsign b) Nat.one_pos
    rw [fl32_zero] at h
    simpa [hz] using h
  · have h := isNearest_fl32 (p := z.natAbs) (decide (z < 0)) (Nat.two_pow_pos 149)
    have hz : (if decide (z < 0) then (-1 : ℚ) else 1) * (z.natAbs / (2 ^ 149 : ℕ)) = z / 2 ^ 149 := by
      rw [Nat.cast_natAbs, Nat.cast_pow, Nat.cast_ofNat]
      rcases lt_or_ge z 0 with hneg | hpos
      · simp [hneg, abs_of_neg]
        ring
      · simp [not_lt.2 hpos, abs_of_nonneg hpos]
    rwa [hz] at h

theorem isNearest_fsub (k : Site) {a b : F32} (ha : isFinite a = true) (hb : isFinite b = true) :
    IsNearest (realValue a - realValue b) (fsub k a b) := by
  rw [sub_eq_add_neg, ← realValue_fneg, fsub]
  exact isNearest_fadd k ha (by rwa [isFinite_fneg])

theorem isNearest_fmul (k : Site) {a b : F32} (ha : isFinite a = true) (hb : isFinite b = true) :
    IsNearest (realValue a * realValue b) (fmul k a b) := by
  have h := isNearest_fl32 (p := magnitude a * magnitude b) (fsign a != fsign b)
    (Nat.mul_pos (Nat.two_pow_pos 149) (Nat.two_pow_pos 149))
  rw [fmul_of_finite k ha hb, realValue_eq, realValue_eq, mul_mul_mul_comm, sign_mul_sign, div_mul_div_comm]
  rwa [Nat.cast_mul, Nat.cast_mul, Nat.cast_pow, Nat.cast_ofNat] at h

theorem isNearest_fdiv (k : Site) {a b : F32} (ha : isFinite a = true) (hb : isFinite b = true)
    (hz : isZero b = false) : IsNearest (realValue a / realValue b) (fdiv k a b) := by
  have h := isNearest_fl32 (p := magnitude a) (fsign a != fsign b) (magnitude_pos_of_not_isZero hz)
  have hsign (s : Bool) : (if s then (-1 : ℚ) else 1)⁻¹ = if s then -1 else 1 := by cases s <;> norm_num
  rw [fdiv_of_finite k ha hb hz, realValue_eq, realValue_eq, mul_div_mul_comm, div_eq_mul_inv (ite _ _ _), hsign,
    sign_mul_sign, div_div_div_cancel_right₀ (by positivity)]
  exact h

/-! ### What correct rounding says of finite and of positive values -/

theorem abs_realValue_lt {a : F32} (ha : isFinite a = true) : |realValue a| < 2 ^ 128 - 2 ^ 103 := by
  have hmag : magnitude a < (2 ^ 128 - 2 ^ 103) * 2 ^ 149 := by
    by_contra h
    have hinf := fl32_eq_finf (Nat.two_pow_pos 149) (fsign a) h
    rw [fl32_self ha] at hinf
    rw [hinf, isFinite_iff] at ha
    exact ha ((isInf_iff _).1 (isInf_finf _)).1
  have hcast : ((2 ^ 128 - 2 ^ 103 : ℕ) : ℚ) = 2 ^ 128 - 2 ^ 103 := by norm_num
  have hunit : ((2 ^ 149 : ℕ) : ℚ) = 2 ^ 149 := by norm_num
  rw [abs_realValue, div_lt_iff₀ (by positivity), ← hcast, ← hunit, ← Nat.cast_mul, Nat.cast_lt]
  exact hmag

/-- A value at least as great as some positive finite one does not round to a zero. -/
theorem not_isZero_of_isNearest {x : ℚ} {r v : F32} (h : IsNearest x r) (hv : isFinite v = true)
    (hpos : 0 < realValue v) (hle : realValue v ≤ x) : isZero r = false := by
  rw [← Bool.not_eq_true]
  intro hz
  rw [IsNearest] at h
  split at h
  · have hnear := (h.2 v hv).1
    rw [realValue_of_isZero hz, sub_zero, abs_of_nonneg (by linarith), abs_of_nonneg (by linarith)] at hnear
    linarith
  · rw [isZero_iff, h, ((isInf_iff _).1 (isInf_finf _)).1] at hz
    exact absurd hz.1 (by decide)

/-- Settles O5: each primitive on finite operands is `fl32` of the exact fraction. -/
theorem primitivesRoundCorrectly : Obligations.PrimitivesRoundCorrectly := fun k _ _ =>
  ⟨fun ha hb => ⟨isNearest_fadd k ha hb, isNearest_fsub k ha hb, isNearest_fmul k ha hb, isNearest_fdiv k ha hb⟩,
    fun _ _ => rfl⟩

/-! ### Integers (R91) -/

/-- A fraction that is a multiple of its rounding's last place is its own rounding. -/
theorem realValue_fl32_of_dvd {p d : Nat} (hd : 0 < d) (h : p < (2 ^ 128 - 2 ^ 103) * d)
    (hdvd : d * 2 ^ shift p d ∣ p * 2 ^ 149) : realValue (fl32 false p d) = p / d := by
  obtain ⟨q, hq⟩ := hdvd
  have hsig : significand p d = q := by
    rw [significand, hq, Nat.mul_comm, roundEven_mul_right (Nat.mul_pos hd (Nat.two_pow_pos _))]
  have hcast : (p * 2 ^ 149 : ℚ) = d * 2 ^ shift p d * q := by exact_mod_cast hq
  have hd' : (d : ℚ) ≠ 0 := by exact_mod_cast hd.ne'
  rw [(fl32_fields hd h).2.1, hsig, div_eq_div_iff (by positivity) hd']
  linarith

/-- An integer up to `2^24` is a multiple of the last place of its rounding: that place is at most `2^1`, and is
`2^1` for `2^24` alone. -/
theorem two_pow_shift_dvd {u : Nat} (hu : u ≤ 2 ^ 24) : 1 * 2 ^ shift u 1 ∣ u * 2 ^ 149 := by
  rw [Nat.one_mul]
  rcases Nat.lt_or_ge 149 (shift u 1) with hlt | hge
  · have hle : 2 ^ 23 * 2 ^ shift u 1 ≤ u * 2 ^ 149 := by
      simpa using two_pow_shift_le (p := u) Nat.one_pos (by omega)
    have hmax : 2 ^ (23 + shift u 1) ≤ 2 ^ (24 + 149) := by
      rw [Nat.pow_add, Nat.pow_add]
      exact hle.trans (Nat.mul_le_mul_right _ hu)
    have hs : shift u 1 = 150 := by
      have := (Nat.pow_le_pow_iff_right (by decide)).1 hmax
      omega
    obtain rfl : u = 2 ^ 24 := by
      rw [hs] at hle
      omega
    rw [hs, ← Nat.pow_add]
    exact Nat.pow_dvd_pow 2 (by decide)
  · exact (Nat.pow_dvd_pow 2 hge).mul_left u

theorem isNearest_u2f (u : Nat) : IsNearest (u : ℚ) (u2f u) := by
  simpa [u2f] using isNearest_fl32_false (p := u) Nat.one_pos

theorem realValue_u2f {u : Nat} (hu : u ≤ 2 ^ 24) : realValue (u2f u) = u := by
  simpa [u2f] using realValue_fl32_of_dvd Nat.one_pos (by omega) (two_pow_shift_dvd hu)

theorem isFinite_u2f {u : Nat} (hu : u ≤ 2 ^ 24) : isFinite (u2f u) = true :=
  (fl32_fields Nat.one_pos (by omega)).1

/-- Settles O10: up to `2^24` the rounding is exact. -/
theorem integerConversion : Obligations.IntegerConversion :=
  ⟨isNearest_u2f, fun _ hu => ⟨isFinite_u2f hu, realValue_u2f hu⟩, fl32_zero false 1⟩

end Sys2Proof.Proofs.Rounding
end

section
/-! PROOFS. The primitives where no rounding is needed (R84, R85, R88, R89): infinities, zeros and NaNs as operands,
one equation for each case, and the signs of zero results. -/

namespace Sys2Proof.Proofs.Specials

open Sys2Proof Sys2Proof.Machine Sys2Proof.Proofs.Trig Sys2Proof.Proofs.Rounding

/-! ### The classes of patterns -/

theorem isNaN_of_isInf {a : F32} (h : isInf a = true) : isNaN a = false := by
  simp [isNaN, ((isInf_iff a).1 h).2]

theorem isZero_of_isInf {a : F32} (h : isInf a = true) : isZero a = false := by
  simp [isZero, ((isInf_iff a).1 h).1]

theorem isNaN_of_isZero {a : F32} (h : isZero a = true) : isNaN a = false :=
  isNaN_false_of_finite (isFinite_of_isZero h)

theorem isInf_of_isZero {a : F32} (h : isZero a = true) : isInf a = false :=
  isInf_false_of_finite (isFinite_of_isZero h)

/-- A pattern that is no NaN is an infinity or finite. -/
theorem isInf_or_isFinite {a : F32} (h : isNaN a = false) : isInf a = true ∨ isFinite a = true := by
  rw [isInf_iff, isFinite_iff]
  by_cases he : fexp a = 255
  · simpa [isNaN, he] using h
  · exact .inr he

/-- An infinite pattern is one of the two infinities. -/
theorem eq_finf_of_isInf {a : F32} (h : isInf a = true) : a = finf (fsign a) := by
  obtain ⟨he, hf⟩ := (isInf_iff a).1 h
  have hpack := pack_fields a
  rw [he, hf] at hpack
  exact hpack.symm

theorem fsign_eq_of_ne_finf {a : F32} {neg : Bool} (hinf : isInf a = true) (hne : a ≠ finf (!neg)) :
    fsign a = neg := by
  by_contra hs
  refine hne ((eq_finf_of_isInf hinf).trans (congrArg finf ?_))
  cases neg <;> simpa using hs

@[simp] theorem isQuietNaN_nanResult (k : Site) : isQuietNaN (nanResult k) = true := by
  rw [isQuietNaN, fexp_nanResult, getLsbD_nanResult k 22 (by decide) (by decide)]
  rfl

/-! ### Sums with an infinity (R84, R85) -/

theorem fadd_inf_left (k : Site) {a b : F32} (ha : isInf a = true) (hb : isNaN b = false)
    (hs : isInf b = true → fsign b = fsign a) : fadd k a b = a := by
  cases hinf : isInf b with
  | false => simp [fadd, isNaN_of_isInf ha, hb, ha, hinf]
  | true => simp [fadd, isNaN_of_isInf ha, hb, ha, hinf, hs hinf]

theorem fadd_inf_right (k : Site) {a b : F32} (hb : isInf b = true) (ha : isNaN a = false)
    (hs : isInf a = true → fsign a = fsign b) : fadd k a b = b := by
  cases hinf : isInf a with
  | false => simp [fadd, isNaN_of_isInf hb, ha, hb, hinf]
  | true =>
    rw [fadd_inf_left k hinf (isNaN_of_isInf hb) fun _ => (hs hinf).symm, eq_finf_of_isInf hinf, hs hinf,
      ← eq_finf_of_isInf hb]

theorem fadd_opposite_infs (k : Site) {a b : F32} (ha : isInf a = true) (hb : isInf b = true)
    (hs : fsign a ≠ fsign b) : fadd k a b = nanResult k := by
  simp [fadd, isNaN_of_isInf ha, isNaN_of_isInf hb, ha, hb, hs]

/-! ### Products with an infinity (R84, R85) -/

theorem fmul_inf_left (k : Site) {a b : F32} (ha : isInf a = true) (hb : isNaN b = false) (hz : isZero b = false) :
    fmul k a b = finf (fsign a ^^ fsign b) := by
  simp [fmul, isNaN_of_isInf ha, isZero_of_isInf ha, hb, hz, ha]

theorem fmul_inf_right (k : Site) {a b : F32} (hb : isInf b = true) (ha : isNaN a = false) (hz : isZero a = false) :
    fmul k a b = finf (fsign a ^^ fsign b) := by
  simp [fmul, isNaN_of_isInf hb, isZero_of_isInf hb, ha, hz, hb]

theorem fmul_zero_inf (k : Site) {a b : F32} (ha : isZero a = true) (hb : isInf b = true) :
    fmul k a b = nanResult k := by
  simp [fmul, ha, hb]

theorem fmul_inf_zero (k : Site) {a b : F32} (ha : isInf a = true) (hb : isZero b = true) :
    fmul k a b = nanResult k := by
  simp [fmul, ha, hb]

/-! ### Quotients with an infinity or a zero divisor (R84, R85) -/

theorem fdiv_by_zero (k : Site) {a b : F32} (ha : isNaN a = false) (hz : isZero a = false) (hb : isZero b = true) :
    fdiv k a b = finf (fsign a ^^ fsign b) := by
  cases hinf : isInf a <;> simp [fdiv, ha, hz, hb, isNaN_of_isZero hb, isInf_of_isZero hb, hinf]

theorem fdiv_zero_zero (k : Site) {a b : F32} (ha : isZero a = true) (hb : isZero b = true) :
    fdiv k a b = nanResult k := by
  simp [fdiv, ha, hb, isInf_of_isZero]

theorem fdiv_by_inf (k : Site) {a b : F32} (ha : isFinite a = true) (hb : isInf b = true) :
    fdiv k a b = fzero (fsign a ^^ fsign b) := by
  simp [fdiv, isNaN_false_of_finite ha, isInf_false_of_finite ha, isNaN_of_isInf hb, hb]

theorem fdiv_inf_inf (k : Site) {a b : F32} (ha : isInf a = true) (hb : isInf b = true) :
    fdiv k a b = nanResult k := by
  simp [fdiv, ha, hb]

theorem fdiv_zero (k : Site) {a b : F32} (ha : isZero a = true) (hb : isNaN b = false) (hz : isZero b = false) :
    fdiv k a b = fzero (fsign a ^^ fsign b) := by
  rcases isInf_or_isFinite hb with hinf | hfin
  · exact fdiv_by_inf k (isFinite_of_isZero ha) hinf
  · simp [fdiv_of_finite k (isFinite_of_isZero ha) hfin hz, (magnitude_eq_zero_iff a).2 ha]

/-- Settles O7: one equation for each clause; an infinity that is not the opposite one has the sign of the other
summand. -/
theorem infinitiesAndDivisionByZero : Obligations.InfinitiesAndDivisionByZero := by
  intro k a b
  refine ⟨fdiv_by_zero k, fdiv_by_inf k, fun neg hb hne => ?_, fun neg ha hne => ?_, fmul_inf_left k,
    fun ha hz hb => fmul_inf_right k hb ha hz⟩
  · exact fadd_inf_left k (isInf_finf neg) hb fun hinf => by rw [fsign_finf, fsign_eq_of_ne_finf hinf hne]
  · exact fadd_inf_right k (isInf_finf neg) ha fun hinf => by rw [fsign_finf, fsign_eq_of_ne_finf hinf hne]

/-- Settles O8: each of these results is `nanResult`, quiet whatever is drawn for its other bits. -/
theorem invalidOperationsGiveQuietNaN : Obligations.InvalidOperationsGiveQuietNaN := by
  intro k a b
  refine ⟨fun h => ?_, fun ha hb hs => ?_, fun ha hb hs => ?_, fun ha hb => ?_, fun ha hb => ?_, fun ha hb => ?_,
    fun ha hb => ?_⟩
  · simp [fadd_of_isNaN k h, fsub_of_isNaN k h, fmul_of_isNaN k h, fdiv_of_isNaN k h]
  · simp [fadd_opposite_infs k ha hb hs]
  · rw [fsub, fadd_opposite_infs k ha (by simpa using hb) (by simp [hs])]
    exact isQuietNaN_nanResult k
  · simp [fmul_zero_inf k ha hb]
  · simp [fmul_inf_zero k ha hb]
  · simp [fdiv_zero_zero k ha hb]
  · simp [fdiv_inf_inf k ha hb]

/-! ### Negation (R89) -/

/-- Settles O6: the pattern `fneg` xors with has bit 31 and no other. -/
theorem negationInvertsOnlyBit31 : Obligations.NegationInvertsOnlyBit31 := by
  intro a
  have hmask : (0x80000000 : F32) = BitVec.twoPow 32 31 := by decide
  refine ⟨fsign_fneg a, fun i hi => ?_⟩
  have hbit : (0x80000000 : F32).getLsbD i = false := by
    rw [hmask, BitVec.getLsbD_twoPow]
    simp [hi.ne']
  rw [fneg, BitVec.getLsbD_xor, hbit, Bool.xor_false]

/-! ### Zeros (R88) -/

theorem isZero_iff_eq (x : F32) : isZero x = true ↔ x = 0x00000000 ∨ x = 0x80000000 := by
  constructor
  · intro h
    have hx := eq_fzero_of_isZero h
    cases hs : fsign x with
    | false => exact .inl (hx.trans (by rw [hs]; decide))
    | true => exact .inr (hx.trans (by rw [hs]; decide))
  · rintro (rfl | rfl) <;> decide

/-- A sum that is exactly zero: both summands being negative, both are `-0`. -/
theorem fadd_eq_zero (k : Site) {a b : F32} (ha : isFinite a = true) (hb : isFinite b = true)
    (h0 : scaledValue a + scaledValue b = 0) :
    fadd k a b = if a = 0x80000000 ∧ b = 0x80000000 then 0x80000000 else 0x00000000 := by
  rw [fadd_of_finite k ha hb, if_pos h0]
  cases hs : fsign a && fsign b with
  | false =>
    rw [if_neg]
    · rfl
    · rintro ⟨rfl, rfl⟩
      exact absurd hs (by decide)
  | true =>
    obtain ⟨hsa, hsb⟩ := Bool.and_eq_true_iff.1 hs
    rw [scaledValue, scaledValue, if_pos hsa, if_pos hsb] at h0
    have hza := eq_fzero_of_isZero ((magnitude_eq_zero_iff a).1 (by omega))
    have hzb := eq_fzero_of_isZero ((magnitude_eq_zero_iff b).1 (by omega))
    rw [hsa] at hza
    rw [hsb] at hzb
    rw [if_pos ⟨hza, hzb⟩]
    rfl

theorem fneg_fneg (a : F32) : fneg (fneg a) = a := by
  apply eq_of_fields <;> simp

theorem fneg_eq_negZero_iff (b : F32) : fneg b = 0x80000000 ↔ b = 0x00000000 := by
  constructor
  · intro h
    rw [← fneg_fneg b, h]
    decide
  · rintro rfl
    decide

theorem fmul_zero (k : Site) {a b : F32} (ha : isFinite a = true) (hb : isFinite b = true)
    (hz : isZero a = true ∨ isZero b = true) : fmul k a b = fzero (fsign a ^^ fsign b) := by
  rw [fmul_of_finite k ha hb]
  rcases hz with hz | hz <;> simp [(magnitude_eq_zero_iff _).2 hz]

theorem fadd_zero (k : Site) {a b : F32} (ha : isNaN a = false) (hz : isZero a = false) (hb : isZero b = true) :
    fadd k a b = a := by
  rcases isInf_or_isFinite ha with hinf | hfin
  · exact fadd_inf_left k hinf (isNaN_of_isZero hb) (by simp [isInf_of_isZero hb])
  · exact fadd_zero_right k hfin hz hb

/-! ### What a product, a quotient or a sum can be -/

/-- The low bits are at most those of an infinity, so exponent 255 comes with fraction 0. -/
theorem isNaN_fl32 (neg : Bool) (p d : Nat) : isNaN (fl32 neg p d) = false := by
  have hle : roundLow p d ≤ 255 * 2 ^ 23 := min_le_right _ _
  rw [← Bool.not_eq_true, isNaN_iff, fl32, fexp_pack _ (roundLow_lt p d), ffrac_pack _ (roundLow_lt p d)]
  omega

/-- A product is an open NaN at every site, or one value, of the exclusive-or sign, at every site. -/
theorem fmul_cases (a b : F32) :
    (∀ k, fmul k a b = nanResult k) ∨
      ∃ r, isNaN r = false ∧ fsign r = (fsign a ^^ fsign b) ∧ ∀ k, fmul k a b = r := by
  unfold fmul
  split
  · exact .inl fun _ => rfl
  split
  · split
    · exact .inl fun _ => rfl
    · exact .inr ⟨_, isNaN_of_isInf (isInf_finf _), fsign_finf _, fun _ => rfl⟩
  · exact .inr ⟨_, isNaN_fl32 _ _ _, fsign_fl32 _ _ _, fun _ => rfl⟩

/-- The same of a quotient. -/
theorem fdiv_cases (a b : F32) :
    (∀ k, fdiv k a b = nanResult k) ∨
      ∃ r, isNaN r = false ∧ fsign r = (fsign a ^^ fsign b) ∧ ∀ k, fdiv k a b = r := by
  unfold fdiv
  split
  · exact .inl fun _ => rfl
  split
  · split
    · exact .inl fun _ => rfl
    · exact .inr ⟨_, isNaN_of_isInf (isInf_finf _), fsign_finf _, fun _ => rfl⟩
  split
  · exact .inr ⟨_, isNaN_of_isZero (isZero_fzero _), fsign_fzero _, fun _ => rfl⟩
  split
  · split
    · exact .inl fun _ => rfl
    · exact .inr ⟨_, isNaN_of_isInf (isInf_finf _), fsign_finf _, fun _ => rfl⟩
  · exact .inr ⟨_, isNaN_fl32 _ _ _, fsign_fl32 _ _ _, fun _ => rfl⟩

theorem fsign_fmul {k : Site} {a b : F32} (h : isNaN (fmul k a b) = false) :
    fsign (fmul k a b) = (fsign a ^^ fsign b) := by
  obtain hnan | ⟨r, -, hs, hr⟩ := fmul_cases a b
  · simp [hnan] at h
  · rw [hr, hs]

theorem fsign_fdiv {k : Site} {a b : F32} (h : isNaN (fdiv k a b) = false) :
    fsign (fdiv k a b) = (fsign a ^^ fsign b) := by
  obtain hnan | ⟨r, -, hs, hr⟩ := fdiv_cases a b
  · simp [hnan] at h
  · rw [hr, hs]

/-- A product that is no NaN draws nothing. -/
theorem fmul_congr_site {k : Site} (k' : Site) {a b : F32} (h : isNaN (fmul k a b) = false) :
    fmul k' a b = fmul k a b := by
  obtain hnan | ⟨r, -, -, hr⟩ := fmul_cases a b
  · simp [hnan] at h
  · rw [hr, hr]

/-- A quotient that is no NaN draws nothing. -/
theorem fdiv_congr_site {k : Site} (k' : Site) {a b : F32} (h : isNaN (fdiv k a b) = false) :
    fdiv k' a b = fdiv k a b := by
  obtain hnan | ⟨r, -, -, hr⟩ := fdiv_cases a b
  · simp [hnan] at h
  · rw [hr, hr]

/-- Settles O9: a zero result is no NaN, so it has the sign of its case; the rest are the cases of a zero operand. -/
theorem signedZeros : Obligations.SignedZeros := by
  refine ⟨fun k a b => ⟨fadd_eq_zero k, fun ha hb h0 => ?_, fun hz => ?_, fun hz => ?_, fun ha hb hz => ?_,
    fun ha hza hzb => ⟨fadd_zero k ha hza hzb, fadd_zero k ha hza (by rwa [isZero_fneg])⟩⟩, isZero_iff_eq⟩
  · rw [fsub, fadd_eq_zero k ha (by rwa [isFinite_fneg]) (by rwa [scaledValue_fneg, ← sub_eq_add_neg])]
    simp only [fneg_eq_negZero_iff]
  · rw [← fsign_fmul (isNaN_of_isZero hz)]
    exact eq_fzero_of_isZero hz
  · rw [← fsign_fdiv (isNaN_of_isZero hz)]
    exact eq_fzero_of_isZero hz
  · rw [fmul_zero k ha hb hz]
    exact isZero_fzero _

/-! ### Finite operands, the divisor and the factor 1.0 -/

/-- A NaN or infinite operand makes a NaN or an infinity of a product. -/
theorem isFinite_of_fmul {k : Site} {a b : F32} (h : isFinite (fmul k a b) = true) : isFinite b = true := by
  have hnan := isNaN_false_of_finite h
  have hinf := isInf_false_of_finite h
  cases hb : isNaN b with
  | true => simp [fmul_of_isNaN k (.inr hb)] at hnan
  | false =>
    refine (isInf_or_isFinite hb).resolve_left fun hbi => ?_
    cases ha : isNaN a with
    | true => simp [fmul_of_isNaN k (.inl ha)] at hnan
    | false =>
      cases hz : isZero a with
      | true => simp [fmul_zero_inf k hz hbi] at hnan
      | false => simp [fmul_inf_right k hbi ha hz] at hinf

theorem fmul_one (k : Site) {a : F32} (ha : isNaN a = false) : fmul k a ONE = a := by
  rcases isInf_or_isFinite ha with hinf | hfin
  · rw [fmul_inf_left k hinf (by decide) (by decide), show fsign ONE = false by decide, Bool.xor_false,
      ← eq_finf_of_isInf hinf]
  · exact fmul_one_right k hfin

theorem fsub_self (k : Site) {a : F32} (ha : isFinite a = true) : isZero (fsub k a a) = true := by
  rw [fsub, fadd_of_finite k ha (by rwa [isFinite_fneg]), scaledValue_fneg, if_pos (by omega)]
  exact isZero_fzero _

theorem fdiv_one (k : Site) {a : F32} (ha : isFinite a = true) : fdiv k a ONE = a := by
  rw [fdiv_of_finite k ha (by decide) (by decide), show magnitude ONE = 2 ^ 149 by decide,
    show fsign ONE = false by decide, Bool.bne_false, fl32_self ha]

theorem fadd_comm_of_finite (k : Site) {a b : F32} (ha : isFinite a = true) (hb : isFinite b = true) :
    fadd k a b = fadd k b a := by
  rw [fadd_of_finite k ha hb, fadd_of_finite k hb ha, Int.add_comm, Bool.and_comm]

end Sys2Proof.Proofs.Specials
end

section
/-! PROOFS. The integer operations (R97, R98): the test for a power of two, and the reversal of an index bit by bit. -/

namespace Sys2Proof.Proofs.Integers

open Sys2Proof Sys2Proof.Machine Sys2Proof.Proofs.Loops

/-- Settles O13: a number is a power of two exactly when it is the one of its own `log2`. -/
theorem powerOfTwoTest : Obligations.PowerOfTwoTest := by
  refine ⟨fun n => ⟨fun h => ⟨Nat.log2 n, ((ispow2_iff_log2 n).1 h).2.symm⟩, ?_⟩, fun k => Nat.log2_two_pow⟩
  rintro ⟨k, rfl⟩
  exact (ispow2_iff_log2 _).2 ⟨(Nat.two_pow_pos k).ne', by rw [Nat.log2_two_pow]⟩

/-- Bit `b` of an index of `L` bits has weight `2^(L-1-b)` in its reversal. -/
theorem bitrev_eq_sum (i L : Nat) :
    bitrev i L = ((List.range L).map fun b => (i.testBit b).toNat * 2 ^ (L - 1 - b)).sum := by
  induction L generalizing i with
  | zero => rfl
  | succ L ih =>
    have hlow : (i.testBit 0).toNat = i % 2 := by
      rw [Nat.testBit_zero]
      rcases Nat.mod_two_eq_zero_or_one i with h | h <;> simp [h]
    have hrest (b : Nat) : (i.testBit (b + 1)).toNat * 2 ^ (L - (b + 1)) =
        ((i / 2).testBit b).toNat * 2 ^ (L - 1 - b) := by
      rw [Nat.testBit_succ, Nat.sub_add_eq, Nat.sub_right_comm]
    rw [bitrev_succ, ih, List.range_succ_eq_map, List.map_cons, List.sum_cons, List.map_map, hlow]
    simp only [Function.comp_def, Nat.succ_eq_add_one, Nat.add_sub_cancel, Nat.sub_zero, hrest]

/-- A bit above those of `i` is added to the reversal with its own weight: the table construction of R98. -/
theorem bitrev_add_two_pow {L u i : Nat} (hu : u < L) (hi : i < 2 ^ u) :
    bitrev (2 ^ u + i) L = bitrev i L + 2 ^ (L - (u + 1)) := by
  induction L generalizing u i with
  | zero => omega
  | succ L ih =>
    rw [bitrev_succ, bitrev_succ i]
    cases u with
    | zero =>
      obtain rfl : i = 0 := by omega
      simp [Nat.add_comm]
    | succ u =>
      have hpow : 2 ^ (u + 1) = 2 * 2 ^ u := Nat.pow_succ'
      rw [show (2 ^ (u + 1) + i) % 2 = i % 2 by omega, show (2 ^ (u + 1) + i) / 2 = 2 ^ u + i / 2 by omega,
        ih (by omega) (by omega), Nat.add_sub_add_right, Nat.add_assoc]

/-- Settles O14: by the recursion on the number of bits. -/
theorem bitReversalOfAnIndex : Obligations.BitReversalOfAnIndex := by
  intro L i hi
  refine ⟨bitrev_eq_sum i L, bitrev_lt i L, bitrev_bitrev hi, fun t ht htL hit => ?_⟩
  obtain ⟨u, rfl⟩ := Nat.exists_eq_add_of_le' ht
  exact bitrev_add_two_pow htL hit

end Sys2Proof.Proofs.Integers
end

section
/-! PROOFS. The units of R92 on every argument, and the twiddle factors of R114 and R122 that are made of them. -/

namespace Sys2Proof.Proofs.Units

open Sys2Proof Sys2Proof.Machine Sys2Proof.Proofs.Trig Sys2Proof.Proofs.Rounding Sys2Proof.Proofs.Specials

/-! ### The four properties (R92) -/

/-- A pattern with low bits up to those of 1.0 is finite and of magnitude at most 1. -/
theorem range_of_low_le {a : F32} (h : a.toNat % 2 ^ 31 ≤ 0x3F800000) :
    isFinite a = true ∧ |realValue a| ≤ 1 := by
  refine ⟨(isFinite_iff a).2 fun he => ?_, (abs_realValue_le_one_iff a).2 ((magnitude_le_iff a).2 h)⟩
  rw [toNat_mod_eq, he] at h
  omega

theorem range_of_isZero {x : F32} (hz : isZero x = true) : isFinite x = true ∧ |realValue x| ≤ 1 := by
  obtain ⟨he, hf⟩ := (isZero_iff x).1 hz
  refine range_of_low_le ?_
  rw [toNat_mod_eq, he, hf]
  omega

theorem range_withinOne (v : F32) : isFinite (withinOne v) = true ∧ |realValue (withinOne v)| ≤ 1 := by
  refine range_of_low_le ?_
  rw [withinOne]
  split
  · assumption
  · rw [toNat_pack _ (by decide)]
    split <;> decide

theorem isNaN_notNaN (v : F32) : isNaN (notNaN v) = false := by
  rw [notNaN]
  split
  · exact isNaN_of_isInf (isInf_finf _)
  · next h => simpa using h

theorem trig_of_not_finite (T : Trig) (k : Site) {x : F32} (h : isFinite x = false) :
    COS T k x = nanResult k ∧ SIN T k x = nanResult k ∧ TAN T k x = nanResult k := by
  simp [COS, SIN, TAN, h]

/-- On a finite argument a unit draws nothing (`TRIG_FUN`). -/
theorem trig_of_finite (T : Trig) (k k' : Site) {x : F32} (h : isFinite x = true) :
    COS T k x = COS T k' x ∧ SIN T k x = SIN T k' x ∧ TAN T k x = TAN T k' x := by
  simp [COS, SIN, TAN, h]

/-- On a finite argument `COS` and `SIN` keep to `[-1, 1]` and `TAN` is no NaN (`TRIG_RANGE`). -/
theorem trig_range (T : Trig) (k : Site) {x : F32} (h : isFinite x = true) :
    (isFinite (COS T k x) = true ∧ |realValue (COS T k x)| ≤ 1) ∧
      (isFinite (SIN T k x) = true ∧ |realValue (SIN T k x)| ≤ 1) ∧ isNaN (TAN T k x) = false := by
  cases hz : isZero x with
  | true =>
    rw [cos_of_isZero T k hz, sin_of_isZero T k hz, tan_of_isZero T k hz]
    exact ⟨range_of_low_le (by decide), range_of_isZero hz, isNaN_of_isZero hz⟩
  | false =>
    rw [cos_of_finite T k h hz, sin_of_finite T k h hz, tan_of_finite T k h hz]
    exact ⟨range_withinOne _, range_withinOne _, isNaN_notNaN _⟩

/-- Settles O11: a finite argument is a zero, where the value is given, or another, where the raw value is brought
into range. -/
theorem trigUnitsHaveTheirProperties : Obligations.TrigUnitsHaveTheirProperties := by
  intro T k k'
  have hp : isZero 0x00000000 = true := by decide
  have hn : isZero 0x80000000 = true := by decide
  refine ⟨fun x hx => trig_of_finite T k k' hx, ⟨cos_of_isZero T k hp, cos_of_isZero T k hn, sin_of_isZero T k hp,
    sin_of_isZero T k hn, tan_of_isZero T k hp, tan_of_isZero T k hn⟩, fun x hx => ?_, fun x hx => ?_⟩
  · obtain ⟨⟨hcfin, hcle⟩, ⟨hsfin, hsle⟩, ht⟩ := trig_range T k hx
    exact ⟨hcfin, hcle, hsfin, hsle, ht⟩
  · obtain ⟨hc, hs, ht⟩ := trig_of_not_finite T k hx
    simp [hc, hs, ht]

/-! ### Twiddle factors (R114, R122) -/

theorem u2f_zero : u2f 0 = 0x00000000 := fl32_zero false 1

theorem isZero_u2f {u : Nat} (h0 : 1 ≤ u) (hu : u ≤ 2 ^ 24) : isZero (u2f u) = false := by
  rw [← Bool.not_eq_true]
  intro hz
  have hval := realValue_u2f hu
  rw [realValue_of_isZero hz] at hval
  have : u = 0 := by exact_mod_cast hval.symm
  omega

theorem twiddleAngle_zero (k : Site) {n : Nat} (h1 : 1 ≤ n) (hn : n ≤ 2 ^ 24) :
    twiddleAngle k 0 n = 0x00000000 := by
  have hprod : fmul (k.at 10) TWO_PI (u2f 0) = 0x00000000 := by
    rw [u2f_zero, fmul_zero _ (by decide) (by decide) (.inr (by decide))]
    decide
  rw [twiddleAngle, hprod, fdiv_zero _ (by decide) (isNaN_false_of_finite (isFinite_u2f hn)) (isZero_u2f h1 hn),
    u2f, fsign_fl32]
  decide

/-- Settles O39: for `r = 0` the angle is `+0`, where the units have their given values. -/
theorem twiddleFactors : Obligations.TwiddleFactors := by
  intro T k r n h1 hn _
  have hz : isZero 0x00000000 = true := by decide
  refine ⟨⟨k.at 10, k.at 11, k.at 12, k.at 13, rfl, rfl⟩, ?_, ?_⟩ <;>
    rw [twiddle, twiddleAngle_zero k h1 hn, cos_of_isZero T _ hz, sin_of_isZero T _ hz] <;> rfl

end Sys2Proof.Proofs.Units
end

section
/-! PROOFS. `HANN` and `FIRLPF` complete (R141 to R143, R152 to R154): the words each leaves by the formula of its
weight, and the state after the store; the centre tap of R156. -/

namespace Sys2Proof.Proofs.Windows

open Sys2Proof Sys2Proof.Machine Sys2Proof.Proofs.Frames Sys2Proof.Proofs.Invariant Sys2Proof.Proofs.Trig
  Sys2Proof.Proofs.Rounding Sys2Proof.Proofs.Specials

/-! ### Undisturbed results -/

@[simp] theorem deliverReg_undisturbed {s : State} (hd : s.disturbed = false) (r : Reg) (v : Word) :
    s.deliverReg r v = v := State.deliver_undisturbed hd _ v

/-- A stored word of an undisturbed command, read back. -/
theorem wordAt_storeSeq_undisturbed {s : State} (hd : s.disturbed = false) {m : MemName} {ws : List Word} {i : Nat}
    {v : Word} (hlen : ws.length ≤ 2 ^ 24) (hv : ws[i]? = some v) : (s.storeSeq m ws).wordAt m i = some v := by
  obtain ⟨hi, -⟩ := List.getElem?_eq_some_iff.1 hv
  rw [s.wordAt_storeSeq m m ws i hlen (by omega), if_pos ⟨rfl, hi⟩, hv, Option.map_some,
    State.deliver_undisturbed hd]

/-! ### `HANN` -/

theorem execHann_eq {s : State} (hlen : s.len.toNat ≤ s.params.wmax) (hd : s.disturbed = false) :
    execHann s = .next { s with
      mem := (s.storeSeq .win (hannSeq Config.trig s.draws s.seqLen)).mem, wlen := s.len, seq := .idle,
      draws := s.draws + 1, status := { s.status with busy := false, done := true } } := by
  rw [execHann, (hannError_eq_none_iff s).2 hlen, deliverReg_undisturbed hd]
  rfl

/-- Settles O42: operation `n` of weight `i` has the site `⟨draws, 0, i, n⟩`. -/
theorem hannCompletes : Obligations.HannCompletes := by
  intro s hlen hd
  refine ⟨_, execHann_eq hlen hd, rfl, fun i hi => ⟨fun n => ⟨s.draws, 0, i, n⟩, ?_⟩,
    fun b hb => readByte_storeSeq_of_ne s (length_hannSeq _ _ _) hb⟩
  refine wordAt_storeSeq_undisturbed hd ?_ ((getElem?_tabulate _ _ _).trans (if_pos hi))
  rw [length_hannSeq]
  exact hlen.trans ((wmax_le _).trans (by decide))

/-! ### `FIRLPF` -/

theorem execFirlpf_eq {s : State} {w : Nat → F32} (hw : s.wlen.toNat = s.num.toNat + 1)
    (hmax : s.num.toNat + 1 ≤ s.params.wmax) (hwin : ∀ i ≤ s.num.toNat, s.wordAt .win i = some (w i))
    (hd : s.disturbed = false) :
    execFirlpf s = .next { s with
      mem := (s.storeSeq .coef (firSeq Config.trig s.draws s.fc s.num.toNat (tabulate s.taps w))).mem,
      clen := BitVec.ofNat 32 s.taps, seq := .idle, draws := s.draws + 1,
      status := { s.status with busy := false, done := true } } := by
  rw [execFirlpf, (firError_eq_none_iff s).2 ⟨hw, hmax⟩,
    State.loadSeq_of_words (n := s.taps) (x := w) fun i hi => hwin i (Nat.le_of_lt_succ hi), deliverReg_undisturbed hd]
  rfl

theorem getElem?_firSeq (T : Trig) (e : Nat) (fc : F32) (num : Nat) {n i : Nat} (w : Nat → F32) (hi : i < n) :
    (firSeq T e fc num (tabulate n w))[i]? = some (firCoef T e fc num i (w i)) := by
  rw [firSeq, List.getElem?_mapIdx, getElem?_tabulate, if_pos hi, Option.map_some]

/-- The sites of coefficient `i`, in the order of R153: `g`, the offset, `x`, `tf`, the sine, the quotient, the two
products. -/
def firSite (e i : Nat) : Nat → Site
  | 0 => ⟨e, 1, 0, 0⟩
  | 1 => ⟨e, 0, i, 0⟩
  | 2 => ⟨e, 0, i, 1⟩
  | 3 => ⟨e, 1, 0, 1⟩
  | 4 => ⟨e, 0, i, 10⟩
  | 5 => ⟨e, 0, i, 11⟩
  | 6 => ⟨e, 0, i, 2⟩
  | _ => ⟨e, 0, i, 3⟩

theorem sinc_eq (T : Trig) (k : Site) (x : F32) :
    sinc T k x = if x = 0x00000000 ∨ x = 0x80000000 then 0x3F800000 else fdiv (k.at 11) (SIN T (k.at 10) x) x :=
  if_congr (isZero_iff_eq x) rfl rfl

/-- Settles O44: the coefficients stored are those of R153, and the store touches nothing else. -/
theorem firlpfCompletes : Obligations.FirlpfCompletes := by
  intro s w hw hmax hwin hd
  have hfit : s.num.toNat + 1 ≤ 2 ^ 23 := hmax.trans (wmax_le _)
  have hlen : (firSeq Config.trig s.draws s.fc s.num.toNat (tabulate s.taps w)).length = s.num.toNat + 1 := by
    rw [length_firSeq, length_tabulate, State.taps]
  refine ⟨_, execFirlpf_eq hw hmax hwin hd, rfl, ?clen, fun i hi => ?word,
    fun b hb => readByte_storeSeq_of_ne s hlen fun i hi => hb i (Nat.le_of_lt_succ hi)⟩
  case clen =>
    rw [BitVec.toNat_ofNat, State.taps, Nat.mod_eq_of_lt (by omega)]
  case word =>
    refine ⟨firSite s.draws i, firX s.draws s.fc s.num.toNat i, rfl, ?_⟩
    have hi' : i < s.taps := Nat.lt_succ_of_le hi
    have hstored := wordAt_storeSeq_undisturbed (m := .coef) hd (by omega)
      (getElem?_firSeq Config.trig s.draws s.fc s.num.toNat w hi')
    rw [firCoef, sinc_eq] at hstored
    exact hstored

/-! ### The centre tap (R156) -/

/-- Settles O45: at the middle `x` is a zero, so `sinc` is 1.0. -/
theorem firCentreTap : Obligations.FirCentreTap := by
  intro s w hw hmax hwin hd hg
  have hfit : s.num.toNat + 1 ≤ 2 ^ 23 := hmax.trans (wmax_le _)
  obtain ⟨t, hexec, -, -, hcoef, -⟩ := firlpfCompletes s w hw hmax hwin hd
  obtain ⟨k, x, hx, hword⟩ := hcoef (s.num.toNat / 2) (Nat.div_le_self _ _)
  have hmid := fsub_self (k 1) (isFinite_u2f (u := s.num.toNat / 2) (by omega))
  have hxz : isZero x = true := by
    rw [hx, fmul_zero _ (hg (k 0)) (isFinite_of_isZero hmid) (.inr hmid)]
    exact isZero_fzero _
  have htf : isNaN (fmul (k 3) 0x40000000 s.fc) = false := by
    rw [fmul_of_finite _ (by decide) (isFinite_of_fmul (hg (k 0)))]
    exact isNaN_fl32 _ _ _
  rw [if_pos ((isZero_iff_eq x).1 hxz)] at hword
  exact ⟨t, k 7, k 3, hexec, hword.trans (by rw [show (0x3F800000 : F32) = ONE from rfl, fmul_one (k 6) htf])⟩

end Sys2Proof.Proofs.Windows
end

section
/-! PROOFS. `IIRLPF` completes (R160, R162, R163) and its corner cases (R164): which quantities of R162 are NaNs,
what they are at `FC = +0`, and what they are at `Q = +0` for a positive `df`. -/

namespace Sys2Proof.Proofs.Biquads

open Sys2Proof Sys2Proof.Machine Sys2Proof.Proofs.Trig Sys2Proof.Proofs.Rounding Sys2Proof.Proofs.Specials
  Sys2Proof.Proofs.Units Sys2Proof.Proofs.Windows

/-! ### The command -/

theorem execIirlpf_undisturbed {s : State} (hd : s.disturbed = false) {c : Biquad}
    (hc : iirSeq Config.trig s.draws s.fc s.qf = c) :
    execIirlpf s = .next { s with
      a0 := c.a0, a1 := c.a1, a2 := c.a2, b0 := c.b0, b1 := c.b1, b2 := c.b2, seq := .idle, draws := s.draws + 1,
      status := { s.status with busy := false, done := true } } := by
  rw [execIirlpf_eq, hc, State.storeBiquad]
  simp only [deliverReg_undisturbed hd]
  rfl

/-- The sites of R162 in the order the statement numbers them: the quotient of `df` before its tangent. -/
def iirSite (e : Nat) : Nat → Site
  | 1 => ⟨e, 0, 0, 2⟩
  | 2 => ⟨e, 0, 0, 1⟩
  | n => ⟨e, 0, 0, n⟩

/-- Settles O46: the six registers are the model's formulas, which are those of R162 written out. -/
theorem iirlpfCompletes : Obligations.IirlpfCompletes := by
  intro s hd
  exact ⟨iirSite s.draws, iirDf Config.trig s.draws s.fc, iirTemp Config.trig s.draws s.fc,
    iirG Config.trig s.draws s.fc s.qf, iirDenom Config.trig s.draws s.fc s.qf, rfl, rfl, rfl, rfl,
    execIirlpf_undisturbed hd rfl⟩

/-! ### NaNs (R164) -/

section
variable {T : Trig} {e : Nat} {fc q : F32}

theorem isNaN_iirDenom (h : isNaN (iirG T e fc q) = true) : isNaN (iirDenom T e fc q) = true := by
  rw [iirDenom, fadd_of_isNaN _ (.inl ?_)]
  · exact isNaN_nanResult _
  · rw [fadd_of_isNaN _ (.inr h)]
    exact isNaN_nanResult _

/-- A NaN `g`, and with it `denom`, makes a NaN of everything but `a0`. -/
theorem isQuietNaN_of_isNaN_iirG (h : isNaN (iirG T e fc q) = true) :
    isQuietNaN (iirA1 T e fc q) = true ∧ isQuietNaN (iirA2 T e fc q) = true ∧
      isQuietNaN (iirB0 T e fc q) = true ∧ isQuietNaN (iirB1 T e fc q) = true := by
  have hquot (k : Site) (a : F32) : fdiv k a (iirDenom T e fc q) = nanResult k :=
    fdiv_of_isNaN k (.inr (isNaN_iirDenom h))
  rw [iirA1, iirA2, iirB0, iirB1, hquot, hquot, hquot, hquot, fadd_of_isNaN _ (.inr (isNaN_nanResult _))]
  simp

theorem isNaN_iirDf (h : isFinite fc = false) : isNaN (iirDf T e fc) = true := by
  have hprod : isFinite (fmul ⟨e, 0, 0, 0⟩ PI fc) = false := by
    rw [← Bool.not_eq_true]
    exact fun hfin => absurd (isFinite_of_fmul hfin) (by simp [h])
  rw [iirDf, (trig_of_not_finite T _ hprod).2.2, fdiv_of_isNaN _ (.inl (isNaN_nanResult _))]
  exact isNaN_nanResult _

theorem iirDf_zero (T : Trig) (e : Nat) : iirDf T e 0x00000000 = 0x00000000 := by
  have hprod : fmul ⟨e, 0, 0, 0⟩ PI 0x00000000 = 0x00000000 :=
    fmul_zero _ (by decide) (by decide) (.inr (by decide))
  rw [iirDf, hprod, tan_of_isZero T _ (by decide), fdiv_zero _ (by decide) (by decide) (by decide)]
  rfl

theorem mul_iirDf_zero (T : Trig) (e : Nat) (k : Site) : fmul k TWO_PI (iirDf T e 0x00000000) = 0x00000000 := by
  rw [iirDf_zero]
  exact fmul_zero _ (by decide) (by decide) (.inr (by decide))

/-- The three ways `g` is a NaN: by `Q`, by `FC`, or as a zero divided by a zero. -/
theorem isNaN_iirG (h : isNaN q = true ∨ isFinite fc = false ∨ (fc = 0x00000000 ∧ isZero q = true)) :
    isNaN (iirG T e fc q) = true := by
  rw [iirG]
  obtain hq | hfc | ⟨rfl, hq⟩ := h
  · rw [fdiv_of_isNaN _ (.inr hq)]
    exact isNaN_nanResult _
  · rw [fmul_of_isNaN _ (.inr (isNaN_iirDf hfc)), fdiv_of_isNaN _ (.inl (isNaN_nanResult _))]
    exact isNaN_nanResult _
  · rw [mul_iirDf_zero, fdiv_zero_zero _ (by decide) hq]
    exact isNaN_nanResult _

end

/-! ### `FC = +0` (R164) -/

theorem iirTemp_zero (T : Trig) (e : Nat) : iirTemp T e 0x00000000 = 0x00000000 := by
  rw [iirTemp, iirDf_zero, fmul_zero ⟨e, 0, 0, 3⟩ (by decide) (by decide) (.inr (by decide))]
  exact fmul_zero _ (by decide) (by decide) (.inr (by decide))

section
variable (T : Trig) (e : Nat) {q : F32} (hnan : isNaN q = false) (hzero : isZero q = false)
include hnan hzero

theorem isZero_iirG_zero : isZero (iirG T e 0x00000000 q) = true := by
  rw [iirG, mul_iirDf_zero, fdiv_zero _ (by decide) hnan hzero]
  exact isZero_fzero _

theorem iirDenom_zero : iirDenom T e 0x00000000 q = ONE := by
  rw [iirDenom, iirTemp_zero, fadd_zero _ (by decide) (by decide) (isZero_iirG_zero T e hnan hzero)]
  exact fadd_zero _ (by decide) (by decide) (by decide)

theorem iirSeq_zero : iirSeq T e 0x00000000 q = ⟨0x3F800000, 0xC0000000, 0x3F800000, 0, 0, 0⟩ := by
  have hdouble (k : Site) : fmul k TWO 0x00000000 = 0x00000000 :=
    fmul_zero _ (by decide) (by decide) (.inr (by decide))
  have hnum (k : Site) : fsub k 0x00000000 TWO = 0xC0000000 := by
    rw [fsub, fadd_comm_of_finite k (by decide) (by decide)]
    exact fadd_zero _ (by decide) (by decide) (by decide)
  have hone (k : Site) : fsub k ONE (iirG T e 0x00000000 q) = ONE :=
    fadd_zero _ (by decide) (by decide) (by rw [isZero_fneg, isZero_iirG_zero T e hnan hzero])
  have hzone (k : Site) : fdiv k 0x00000000 ONE = 0x00000000 := fdiv_one k (by decide)
  rw [iirSeq, iirA1, iirA2, iirB0, iirB1, iirDenom_zero T e hnan hzero, iirTemp_zero, hdouble, hdouble, hnum, hone,
    hzone, hzone, hzone, fdiv_one _ (by decide), fadd_zero _ (by decide) (by decide) (by decide)]
  rfl

end

/-! ### `Q = +0` and a positive `df` (R164) -/

/-- `df` is a value when it is a value at any sites: its angle and its tangent then are, and draw nothing. -/
theorem iirDf_eq {T : Trig} (e : Nat) {fc : F32} {k0 k1 k2 : Site}
    (h : isNaN (fdiv k2 (TAN T k1 (fmul k0 PI fc)) TWO_PI) = false) :
    iirDf T e fc = fdiv k2 (TAN T k1 (fmul k0 PI fc)) TWO_PI := by
  have hfin : isFinite (fmul k0 PI fc) = true := by
    by_contra hinf
    rw [(trig_of_not_finite T k1 (Bool.not_eq_true _ ▸ hinf)).2.2,
      fdiv_of_isNaN _ (.inl (isNaN_nanResult _)), isNaN_nanResult] at h
    exact absurd h (by decide)
  rw [iirDf, fmul_congr_site _ (isNaN_false_of_finite hfin), (trig_of_finite T _ k1 hfin).2.2, fdiv_congr_site _ h]

theorem realValue_pos {a : F32} (hz : isZero a = false) (hs : fsign a = false) : 0 < realValue a := by
  have hmag : (0 : ℚ) < magnitude a := by exact_mod_cast magnitude_pos_of_not_isZero hz
  rw [realValue_eq, hs]
  simpa using hmag

theorem realValue_nonneg {a : F32} (hs : fsign a = false) : 0 ≤ realValue a := by
  rw [realValue_eq, hs]
  simp only [Bool.false_eq_true, if_false]
  positivity

theorem realValue_two : realValue TWO = 2 := by
  rw [realValue_eq, show magnitude TWO = 2 ^ 150 by decide, show fsign TWO = false by decide]
  norm_num

theorem four_le_realValue_two_pi : 4 ≤ realValue TWO_PI := by
  have hmag : (2 ^ 151 : ℚ) ≤ magnitude TWO_PI := by
    have : 2 ^ 151 ≤ magnitude TWO_PI := by decide
    exact_mod_cast this
  rw [realValue_eq, show fsign TWO_PI = false by decide]
  simp only [Bool.false_eq_true, if_false, one_mul]
  rw [le_div_iff₀ (by positivity)]
  linarith

/-- `2π·df` is greater than `df`, so it does not round to a zero. -/
theorem isZero_mul_two_pi (k : Site) {d : F32} (hfin : isFinite d = true) (hz : isZero d = false)
    (hs : fsign d = false) : isZero (fmul k TWO_PI d) = false := by
  have hpos := realValue_pos hz hs
  refine not_isZero_of_isNearest (isNearest_fmul k (by decide) hfin) hfin hpos ?_
  exact le_mul_of_one_le_left hpos.le (by linarith [four_le_realValue_two_pi])

/-- Taking 2 from a finite value that is not negative does not overflow. -/
theorem isFinite_sub_two (k : Site) {a : F32} (hfin : isFinite a = true) (hs : fsign a = false) :
    isFinite (fsub k a TWO) = true := by
  have hlt := (abs_lt.1 (abs_realValue_lt hfin)).2
  have hnonneg := realValue_nonneg hs
  have hbound : |realValue a - realValue TWO| < 2 ^ 128 - 2 ^ 103 := by
    rw [realValue_two, abs_lt]
    constructor
    · norm_num
      linarith
    · linarith
  have hnear := isNearest_fsub k hfin (show isFinite TWO = true by decide)
  rw [IsNearest, if_pos hbound] at hnear
  exact hnear.1

/-- `temp` is a square times a positive constant. -/
theorem fsign_iirTemp {T : Trig} {e : Nat} {fc : F32} (htemp : isFinite (iirTemp T e fc) = true) :
    fsign (iirTemp T e fc) = false := by
  have hsq : isFinite (fmul ⟨e, 0, 0, 3⟩ (iirDf T e fc) (iirDf T e fc)) = true := isFinite_of_fmul htemp
  rw [iirTemp, fsign_fmul (isNaN_false_of_finite htemp), fsign_fmul (isNaN_false_of_finite hsq), Bool.xor_self]
  rfl

section
variable {T : Trig} {e : Nat} {fc : F32} (hz : isZero (iirDf T e fc) = false) (hs : fsign (iirDf T e fc) = false)
  (hdf : isFinite (iirDf T e fc) = true)
include hz hs hdf

theorem iirG_zero_q : iirG T e fc 0x00000000 = finf false := by
  have hprod : isNaN (fmul ⟨e, 0, 0, 5⟩ TWO_PI (iirDf T e fc)) = false := by
    rw [fmul_of_finite _ (by decide) hdf]
    exact isNaN_fl32 _ _ _
  rw [iirG, fdiv_by_zero _ hprod (isZero_mul_two_pi _ hdf hz hs) (by decide), fsign_fmul hprod, hs]
  rfl

variable (htemp : isFinite (iirTemp T e fc) = true)
include htemp

theorem iirDenom_zero_q : iirDenom T e fc 0x00000000 = finf false := by
  rw [iirDenom, iirG_zero_q hz hs hdf, fadd_inf_right _ (isInf_finf _) (by decide) (fun h => absurd h (by decide)),
    fadd_inf_left _ (isInf_finf _) (isNaN_false_of_finite htemp) (by simp [isInf_false_of_finite htemp])]

/-- A finite quantity that is not negative, divided by the infinite denominator. -/
theorem div_iirDenom_zero_q (k : Site) {a : F32} (ha : isFinite a = true) :
    fdiv k a (iirDenom T e fc 0x00000000) = fzero (fsign a) := by
  rw [iirDenom_zero_q hz hs hdf htemp, fdiv_by_inf k ha (isInf_finf _), fsign_finf, Bool.xor_false]

theorem iirSeq_zero_q (hdouble : ∀ k, isFinite (fmul k TWO (iirTemp T e fc)) = true) :
    (iirSeq T e fc 0x00000000).a0 = 0x3F800000 ∧ isZero (iirSeq T e fc 0x00000000).a1 = true ∧
      (iirSeq T e fc 0x00000000).a2 = 0xFF800000 ∧ (iirSeq T e fc 0x00000000).b0 = 0x00000000 ∧
      (iirSeq T e fc 0x00000000).b1 = 0x00000000 ∧ (iirSeq T e fc 0x00000000).b2 = 0x00000000 := by
  have hsign := fsign_iirTemp htemp
  have hquot (k : Site) {a : F32} := div_iirDenom_zero_q (k := k) (a := a) hz hs hdf htemp
  have hdsign (k : Site) : fsign (fmul k TWO (iirTemp T e fc)) = false := by
    rw [fsign_fmul (isNaN_false_of_finite (hdouble k)), hsign]
    rfl
  have hb0 : iirB0 T e fc 0x00000000 = 0x00000000 := by
    rw [iirB0, hquot _ htemp, hsign]
    rfl
  refine ⟨rfl, ?_, ?_, hb0, ?_, hb0⟩
  · change isZero (iirA1 T e fc 0x00000000) = true
    rw [iirA1, hquot _ (isFinite_sub_two _ (hdouble _) (hdsign _))]
    exact isZero_fzero _
  · change iirA2 T e fc 0x00000000 = 0xFF800000
    have hsub (k : Site) : fsub k ONE (finf false) = finf true :=
      fadd_inf_right k (by decide) (by decide) (fun h => absurd h (by decide))
    rw [iirA2, iirG_zero_q hz hs hdf, hsub, hquot _ htemp, hsign]
    exact fadd_inf_left _ (by decide) (by decide) (fun h => absurd h (by decide))
  · change iirB1 T e fc 0x00000000 = 0x00000000
    rw [iirB1, hquot _ (hdouble _), hdsign]
    rfl

end

/-- Settles O47: the registers are `iirSeq`, and each clause is one of the cases above; in the last one every
quantity of R162 that is finite at the given sites is the same at the command's own. -/
theorem iirlpfCornerCases : Obligations.IirlpfCornerCases := by
  refine ⟨fun s t hd ht => ?_, fun T e fc df k hdf hnan hz hs hdouble => ?_⟩
  · obtain rfl := Host.Outcome.next.inj ((execIirlpf_undisturbed hd rfl).symm.trans ht)
    refine ⟨rfl, rfl, fun h => ?_, fun hfc hqnan hqz => ?_, rfl⟩
    · obtain ⟨ha1, ha2, hb0, hb1⟩ := isQuietNaN_of_isNaN_iirG (T := Config.trig) (e := s.draws) (isNaN_iirG h)
      intro r hr
      simp only [List.mem_cons, List.not_mem_nil, or_false] at hr
      rcases hr with rfl | rfl | rfl | rfl | rfl
      exacts [ha1, ha2, hb0, hb1, hb0]
    · have hseq : iirSeq Config.trig s.draws s.fc s.qf =
          ⟨0x3F800000, 0xC0000000, 0x3F800000, 0, 0, 0⟩ := by rw [hfc, iirSeq_zero _ _ hqnan hqz]
      exact ⟨congrArg Biquad.a1 hseq, congrArg Biquad.a2 hseq, congrArg Biquad.b0 hseq, congrArg Biquad.b1 hseq⟩
  · change isFinite (fmul (k 5) TWO (fmul (k 4) FOUR_PI_SQ (fmul (k 3) df df))) = true at hdouble
    have hdf' : iirDf T e fc = df := (iirDf_eq e (hdf ▸ hnan)).trans hdf.symm
    have hprod := isFinite_of_fmul hdouble
    have hsq := isFinite_of_fmul hprod
    have htemp : iirTemp T e fc = fmul (k 4) FOUR_PI_SQ (fmul (k 3) df df) := by
      rw [iirTemp, hdf', fmul_congr_site _ (isNaN_false_of_finite hsq),
        fmul_congr_site (k := k 4) _ (isNaN_false_of_finite hprod)]
    refine iirSeq_zero_q (hdf'.symm ▸ hz) (hdf'.symm ▸ hs) (hdf'.symm ▸ isFinite_of_fmul hsq) (htemp ▸ hprod)
      fun k' => ?_
    rw [htemp, fmul_congr_site (k := k 5) k' (isNaN_false_of_finite hdouble)]
    exact hdouble

end Sys2Proof.Proofs.Biquads
end

section
/-! PROOFS. The kernels of the transforms (R112, R113, R115 to R120): the model's maps against the loops in any order,
the butterfly a stage performs at each pair of positions, and the division that ends `IFFT`. -/

namespace Sys2Proof.Proofs.Kernels

open Sys2Proof Sys2Proof.Machine Sys2Proof.Proofs.Loops Sys2Proof.Proofs.Transforms

/-! ### The order of the loops -/

/-- Settles O35: the input's elements are what the loops start from. -/
theorem transformIsTheLoopNest : Obligations.TransformIsTheLoopNest :=
  fun P _ _ _ hp => getElem?_transform P (fun _ _ => rfl) hp

theorem getElem?_stage (P : Plan) (s : Nat) (xs : List Cpx) {p : Nat} (hp : p < P.n) :
    (P.stage s xs)[p]? = some (P.stageAt s xs p) := by
  rw [Plan.stage, getElem?_tabulate, if_pos hp]

/-- Settles O36: the butterflies of a stage touch disjoint pairs of positions, so their fold is the stage. -/
theorem stageOrderIsFree : Obligations.StageOrderIsFree := by
  intro P s xs order h1 h2 _ hperm p hp
  have hfold := stage_agrees_foldl P h1 h2 hperm xs p hp
  rw [Plan.stage, elements_tabulate hp] at hfold
  rw [getElem?_stage P s xs hp, hfold]

/-- Settles O37: the exchanges touch disjoint pairs of positions. -/
theorem reversalOrderIsFree : Obligations.ReversalOrderIsFree :=
  fun P X _ hperm _ hp => foldl_exchange P hperm X hp

/-! ### One butterfly of a stage -/

theorem elements_of_getElem? {xs : List Cpx} {p : Nat} {x : Cpx} (h : xs[p]? = some x) : elements xs p = x := by
  rw [elements, List.getD_eq_getElem?_getD, h, Option.getD_some]

/-- Both positions of butterfly `(i, j)` are positions of the sequence (R112). -/
theorem butterfly_positions_lt (P : Plan) {s : Nat} (h1 : 1 ≤ s) (h2 : s ≤ P.limit) {i j : Nat}
    (hi : i < 2 ^ (s - 1)) (hj : j < P.half s) : 2 * P.half s * i + j + P.half s < P.n :=
  P.butterfly_lt h1 h2 ((P.mem_butterflies s (i, j)).2 ⟨hi, hj⟩)

/-- Where butterfly `(s, i, j)` draws its open values. -/
def bflySite (P : Plan) (s i j : Nat) : Site := ⟨P.epoch, s, 2 * P.half s * i + j, 0⟩

/-- Butterfly `(s, i, j)` by the elements it reads (R112, R113). -/
theorem butterfly_eq (P : Plan) (s i j : Nat) (xs : List Cpx) :
    P.butterfly s i j xs =
      bfly (bflySite P s i j) (elements xs (2 * P.half s * i + j)) (elements xs (2 * P.half s * i + j + P.half s))
        (decide (s < P.limit)) (twiddle P.trig (bflySite P s i j) P.dir (2 ^ (s - 1) * j) P.n) := rfl

/-- A stage leaves at the two positions of butterfly `(i, j)` its two results (R112, R113). -/
theorem getElem?_stage_butterfly (P : Plan) {s : Nat} (h1 : 1 ≤ s) (h2 : s ≤ P.limit) {i j : Nat}
    (hi : i < 2 ^ (s - 1)) (hj : j < P.half s) (xs : List Cpx) :
    (P.stage s xs)[2 * P.half s * i + j]? = some (P.butterfly s i j xs).1 ∧
      (P.stage s xs)[2 * P.half s * i + j + P.half s]? = some (P.butterfly s i j xs).2 := by
  have hlt := butterfly_positions_lt P h1 h2 hi hj
  have hh := half_pos P s
  obtain ⟨hdiv, hmod⟩ := div_mod_group P s i (show j < 2 * P.half s by omega)
  obtain ⟨hdiv', hmod'⟩ := div_mod_group P s i (show j + P.half s < 2 * P.half s by omega)
  rw [← Nat.add_assoc] at hdiv' hmod'
  rw [getElem?_stage P s xs ((Nat.le_add_right _ _).trans_lt hlt), getElem?_stage P s xs hlt]
  constructor
  · rw [Plan.stageAt, hdiv, hmod, if_pos hj]
  · rw [Plan.stageAt, hdiv', hmod', if_neg (by omega), Nat.add_sub_cancel]

/-- Settles O60: operation `n` of the butterfly at site `k` has the site `k.at n`. -/
theorem butterflyArithmetic : Obligations.ButterflyArithmetic := by
  refine ⟨fun k a b w => ⟨k.at, bflyDiff k a b, rfl, rfl, rfl⟩, ?_⟩
  rintro P s i j _ _ xs a b h1 h2 hi rfl hj rfl _ ha hb
  have hstage := getElem?_stage_butterfly P h1 h2 hi hj xs
  rw [butterfly_eq] at hstage
  exact ⟨bflySite P s i j, bflySite P s i j,
    elements_of_getElem? ha ▸ elements_of_getElem? hb ▸ hstage⟩

/-! ### The scaling pass -/

theorem getElem?_scale (P : Plan) {xs : List Cpx} {p : Nat} {c : Cpx} (h : xs[p]? = some c) :
    (P.scale xs)[p]? = some ⟨fdiv ⟨P.epoch, P.limit + 1, p, 0⟩ c.re (u2f P.n),
      fdiv ⟨P.epoch, P.limit + 1, p, 1⟩ c.im (u2f P.n)⟩ := by
  rw [Plan.scale, List.getElem?_mapIdx, h, Option.map_some]

/-- Settles O38: `IFFT` ends with the scaling pass, and its plan has the length of the sequence. -/
theorem ifftScalesTheTransform : Obligations.IfftScalesTheTransform := by
  intro T e xs hpow p hp
  have hn := plan_n_of_ispow2 hpow T e .inverse
  have htransform := getElem?_transform ⟨T, e, .inverse, Nat.log2 xs.length⟩ (X := elements xs)
    (fun _ _ => rfl) (hn.symm ▸ hp)
  have hscale := getElem?_scale ⟨T, e, .inverse, Nat.log2 xs.length⟩ htransform
  rw [hn] at hscale
  exact ⟨_, _, _, htransform, hscale⟩

end Sys2Proof.Proofs.Kernels
end

section
/-! PROOFS. `FFT` and `IFFT` as commands (R111, R122): the two length errors, and that what either leaves is made of
`LEN`, the input words and the draws alone. -/

namespace Sys2Proof.Proofs.TransformCommands

open Sys2Proof Sys2Proof.Machine Sys2Proof.Proofs.Integers Sys2Proof.Proofs.Transforms

/-! ### Length errors (R111) -/

theorem ispow2_eq_false_iff (n : Nat) : ispow2 n = false ↔ ∀ k : Nat, n ≠ 2 ^ k := by
  rw [← Bool.not_eq_true, powerOfTwoTest.1, not_exists]

/-- Both transforms make their check before anything else. -/
theorem exec_transform_of_error {i : Instr} (hi : i ∈ [Instr.fft, .ifft]) {s : State} {e : ErrorKind}
    (herr : s.transformError = some e) : exec i s = .next (s.raiseError e) := by
  cases i with
  | fft => change execFft s = _; rw [execFft, herr]
  | ifft => change execIfft s = _; rw [execIfft, herr]
  | _ => simp at hi

/-- Settles O27: by the three cases of the check, which exclude each other. -/
theorem transformLengthErrors : Obligations.TransformLengthErrors := by
  intro s i hi
  refine ⟨fun hno => ?invalid, fun hpow hmax => ?capacity, fun hpow hmax => ?passes⟩
  case invalid =>
    have herr : s.transformError = some .invalidLength := if_pos ((ispow2_eq_false_iff _).2 hno)
    exact exec_transform_of_error hi herr
  case capacity =>
    have herr : s.transformError = some .capacity := by
      rw [State.transformError, State.seqLen, (powerOfTwoTest.1 _).2 hpow, if_neg (by decide), if_pos hmax]
    exact exec_transform_of_error hi herr
  case passes => exact s.transformError_eq_none_iff.2 ⟨(powerOfTwoTest.1 _).2 hpow, hmax⟩

/-! ### What the results depend on (R122) -/

/-- Two loads of words that agree give the same sequence. -/
theorem loadSeq_congr {s s' : State} {m : MemName} {n : Nat} (h : ∀ p < n, s.wordAt m p = s'.wordAt m p)
    {ws : List Word} (hl : s.loadSeq m n = .ok ws) : s'.loadSeq m n = .ok ws := by
  obtain ⟨hlen, hws⟩ := (s.loadSeq_eq_ok_iff m n ws).1 hl
  exact (s'.loadSeq_eq_ok_iff m n ws).2 ⟨hlen, fun p hp => (h p hp).symm.trans (hws p hp)⟩

/-- Two states that pass the checks of transform `i` and agree on what R122 lets its results depend on. -/
structure SameInput (i : Instr) (s s' : State) : Prop where
  passes : s.transformError = none
  passes' : s'.transformError = none
  len : s.seqLen = s'.seqLen
  draws : s.draws = s'.draws
  xr : ∀ p < s.seqLen, s.wordAt .xr p = s'.wordAt .xr p
  xi : i = .ifft → ∀ p < s.seqLen, s.wordAt .xi p = s'.wordAt .xi p

/-- Two states with the same input store the same pairs. -/
theorem transform_stores_same {i : Instr} (hi : i ∈ [Instr.fft, .ifft]) {s s' t : State} (hin : SameInput i s s')
    (h : exec i s = .next t) :
    ∃ xs, xs.length = s.seqLen ∧ t = (s.storeCpx xs).complete ∧ exec i s' = .next (s'.storeCpx xs).complete := by
  obtain ⟨herr, herr', hlen, hdraws, hr, him⟩ := hin
  cases i with
  | fft =>
    change execFft s = _ at h
    change ∃ xs, _ ∧ _ ∧ execFft s' = _
    obtain ⟨e, he, -⟩ | ⟨A, -, -, hx⟩ | ⟨re, -, hre, -, hxs, hx⟩ := execFft_cases s
    · simp [herr] at he
    · simp [hx] at h
    · refine ⟨_, hxs, Host.Outcome.next.inj (h.symm.trans hx), ?_⟩
      simp [execFft, herr', ← hlen, loadSeq_congr hr hre, ← hdraws]
  | ifft =>
    change execIfft s = _ at h
    change ∃ xs, _ ∧ _ ∧ execIfft s' = _
    obtain ⟨e, he, -⟩ | ⟨A, -, -, hx⟩ | ⟨re, im, -, hre, hwi, -, -, hxs, hx⟩ := execIfft_cases s
    · simp [herr] at he
    · simp [hx] at h
    · refine ⟨_, hxs, Host.Outcome.next.inj (h.symm.trans hx), ?_⟩
      simp [execIfft, herr', ← hlen, loadSeq_congr hr hre, loadSeq_congr (him rfl) hwi, ← hdraws]
  | _ => simp at hi

/-- Settles O41: the two runs store the same pairs, and undisturbed both deliver them as they are. -/
theorem transformDependsOnItsInputAlone : Obligations.TransformDependsOnItsInputAlone := by
  intro i hi s s' t t' herr herr' hlen hdraws hd hd' hr him h h' p hp
  obtain ⟨xs, hxs, rfl, hx'⟩ := transform_stores_same hi
    ⟨herr, herr', congrArg BitVec.toNat hlen, hdraws, hr, him⟩ h
  obtain rfl := Host.Outcome.next.inj (hx'.symm.trans h')
  have hfit : xs.length ≤ 2 ^ 24 := hxs.trans_le ((s.transformError_eq_none_iff.1 herr).2.trans (nmax_le _))
  have hget : xs[p]? = some _ := List.getElem?_eq_getElem (hxs.symm ▸ hp)
  obtain ⟨hre, hwi⟩ := wordAt_storeCpx_undisturbed hd hfit hget
  obtain ⟨hre', hwi'⟩ := wordAt_storeCpx_undisturbed hd' hfit hget
  exact ⟨hre.trans hre'.symm, hwi.trans hwi'.symm⟩

end Sys2Proof.Proofs.TransformCommands
end

section
/-! PROOFS. The `FFT` of an impulse (R124 (b)): the butterfly on the pair `(1.0, +0)` and on pairs of zeros of either
sign, what each stage makes of a train of `(1.0, +0)`, and the command. -/

namespace Sys2Proof.Proofs.Impulse

open Sys2Proof Sys2Proof.Machine Sys2Proof.Proofs.Trig Sys2Proof.Proofs.Rounding Sys2Proof.Proofs.Specials
  Sys2Proof.Proofs.Units Sys2Proof.Proofs.Loops Sys2Proof.Proofs.Transforms Sys2Proof.Proofs.Kernels

/-! ### Sums and products with a zero (R88) -/

theorem scaledValue_of_isZero {a : F32} (hz : isZero a = true) : scaledValue a = 0 := by
  rw [scaledValue, (magnitude_eq_zero_iff a).2 hz]
  simp

theorem isZero_fadd (k : Site) {a b : F32} (ha : isZero a = true) (hb : isZero b = true) :
    isZero (fadd k a b) = true := by
  rw [fadd_of_finite k (isFinite_of_isZero ha) (isFinite_of_isZero hb), scaledValue_of_isZero ha,
    scaledValue_of_isZero hb, if_pos (Int.add_zero 0), isZero_fzero]

theorem isZero_fsub (k : Site) {a b : F32} (ha : isZero a = true) (hb : isZero b = true) :
    isZero (fsub k a b) = true := isZero_fadd k ha (by rwa [isZero_fneg])

/-- `+0` plus either zero is `+0`. -/
theorem fadd_posZero (k : Site) {b : F32} (hb : isZero b = true) : fadd k 0x00000000 b = 0x00000000 := by
  have h0 : isZero 0x00000000 = true := by decide
  rw [fadd_eq_zero k (isFinite_of_isZero h0) (isFinite_of_isZero hb)
    (by rw [scaledValue_of_isZero h0, scaledValue_of_isZero hb]; rfl)]
  exact if_neg fun h => absurd h.1 (by decide)

theorem fadd_one_zero (k : Site) {b : F32} (hb : isZero b = true) : fadd k ONE b = ONE :=
  fadd_zero k (by decide) (by decide) hb

theorem fsub_posZero (k : Site) {b : F32} (hb : isZero b = true) : fsub k 0x00000000 b = 0x00000000 :=
  fadd_posZero k (by rwa [isZero_fneg])

theorem fsub_one_zero (k : Site) {b : F32} (hb : isZero b = true) : fsub k ONE b = ONE :=
  fadd_one_zero k (by rwa [isZero_fneg])

theorem isZero_fmul (k : Site) {a b : F32} (ha : isFinite a = true) (hb : isFinite b = true)
    (hz : isZero a = true ∨ isZero b = true) : isZero (fmul k a b) = true := by
  rw [fmul_zero k ha hb hz, isZero_fzero]

/-! ### The butterfly on `(1.0, +0)` and on zeros (R113, R115) -/

/-- The pair `(1.0, +0)`. -/
def unitPair : Cpx := ⟨ONE, 0x00000000⟩

/-- Both components are zeros, of either sign. -/
def IsZeroPair (x : Cpx) : Prop := isZero x.re = true ∧ isZero x.im = true

theorem bflyDiff_unitPair (k : Site) {b : Cpx} (hb : IsZeroPair b) : bflyDiff k unitPair b = unitPair := by
  rw [bflyDiff, unitPair, fsub_one_zero _ hb.1, fsub_posZero _ hb.2]

/-- The twiddle of exponent 0, `(1.0, -0)` or `(1.0, +0)`, leaves `(1.0, +0)` as it is. -/
theorem cmul_unitPair (k : Site) {w : Cpx} (hre : w.re = ONE) (him : isZero w.im = true) :
    cmul k unitPair w = unitPair := by
  have h0 : isFinite 0x00000000 = true := by decide
  have hone : isFinite ONE = true := by decide
  have hfin := isFinite_of_isZero him
  rw [cmul, unitPair, hre, fmul_one_right _ hone, fmul_one_right _ h0,
    fsub_one_zero _ (isZero_fmul _ h0 hfin (.inr him)), fadd_posZero _ (isZero_fmul _ hone hfin (.inr him))]

theorem bfly_unitPair (k : Site) {b w : Cpx} (hb : IsZeroPair b) (tw : Bool) (hre : w.re = ONE)
    (him : isZero w.im = true) : bfly k unitPair b tw w = (unitPair, unitPair) := by
  rw [bfly, bflyDiff_unitPair k hb, cmul_unitPair k hre him, ite_self, unitPair, fadd_one_zero _ hb.1,
    fadd_posZero _ hb.2]

theorem isZeroPair_cmul (k : Site) {d w : Cpx} (hd : IsZeroPair d) (hre : isFinite w.re = true)
    (him : isFinite w.im = true) : IsZeroPair (cmul k d w) := by
  obtain ⟨hdr, hdi⟩ := hd
  have hr := isFinite_of_isZero hdr
  have hi := isFinite_of_isZero hdi
  exact ⟨isZero_fsub _ (isZero_fmul _ hr hre (.inl hdr)) (isZero_fmul _ hi him (.inl hdi)),
    isZero_fadd _ (isZero_fmul _ hi hre (.inl hdi)) (isZero_fmul _ hr him (.inl hdr))⟩

theorem isZeroPair_bfly (k : Site) {a b w : Cpx} (ha : IsZeroPair a) (hb : IsZeroPair b) (tw : Bool)
    (hre : isFinite w.re = true) (him : isFinite w.im = true) :
    IsZeroPair (bfly k a b tw w).1 ∧ IsZeroPair (bfly k a b tw w).2 := by
  have hdiff : IsZeroPair (bflyDiff k a b) := ⟨isZero_fsub _ ha.1 hb.1, isZero_fsub _ ha.2 hb.2⟩
  refine ⟨⟨isZero_fadd _ ha.1 hb.1, isZero_fadd _ ha.2 hb.2⟩, ?_⟩
  cases tw with
  | true => exact isZeroPair_cmul k hdiff hre him
  | false => exact hdiff

/-! ### Twiddles are finite (R92, R114) -/

theorem isFinite_of_isNearest {x : ℚ} {r : F32} (h : IsNearest x r) (hx : |x| < 2 ^ 128 - 2 ^ 103) :
    isFinite r = true := by
  rw [IsNearest, if_pos hx] at h
  exact h.1

theorem abs_realValue_two_pi_le : |realValue TWO_PI| ≤ 8 := by
  rw [abs_realValue, show magnitude TWO_PI = 0xC90FDB * 2 ^ 128 by decide]
  norm_num

/-- The angle is at most `2π·r` before the division, far below the overflow bound. -/
theorem isFinite_twiddleAngle (k : Site) {r n : Nat} (h1 : 1 ≤ n) (hn : n ≤ 2 ^ 24) (hr : r ≤ 2 ^ 24) :
    isFinite (twiddleAngle k r n) = true := by
  have hprod : isFinite (fmul (k.at 10) TWO_PI (u2f r)) = true := by
    refine isFinite_of_isNearest (isNearest_fmul _ (by decide) (isFinite_u2f hr)) ?_
    have hr' : |realValue (u2f r)| ≤ 2 ^ 24 := by
      rw [realValue_u2f hr, Nat.abs_cast]
      exact_mod_cast hr
    calc |realValue TWO_PI * realValue (u2f r)|
        = |realValue TWO_PI| * |realValue (u2f r)| := abs_mul _ _
      _ ≤ 8 * 2 ^ 24 := mul_le_mul abs_realValue_two_pi_le hr' (abs_nonneg _) (by norm_num)
      _ < 2 ^ 128 - 2 ^ 103 := by norm_num
  refine isFinite_of_isNearest (isNearest_fdiv _ hprod (isFinite_u2f hn) (isZero_u2f h1 hn)) ?_
  rw [realValue_u2f hn, abs_div, Nat.abs_cast]
  exact (div_le_self (abs_nonneg _) (by exact_mod_cast h1)).trans_lt (abs_realValue_lt hprod)

theorem isFinite_twiddle (T : Trig) (k : Site) (dir : Direction) {r n : Nat} (h1 : 1 ≤ n) (hn : n ≤ 2 ^ 24)
    (hr : r ≤ 2 ^ 24) : isFinite (twiddle T k dir r n).re = true ∧ isFinite (twiddle T k dir r n).im = true := by
  have hangle := isFinite_twiddleAngle k h1 hn hr
  have hsin := (trig_range T (k.at 13) hangle).2.1.1
  refine ⟨(trig_range T (k.at 12) hangle).1.1, ?_⟩
  cases dir with
  | forward => exact (isFinite_fneg _).trans hsin
  | inverse => exact hsin

/-- The twiddle of exponent 0 in either direction (R122). -/
theorem twiddle_zero (T : Trig) (k : Site) (dir : Direction) {n : Nat} (h1 : 1 ≤ n) (hn : n ≤ 2 ^ 24) :
    (twiddle T k dir 0 n).re = ONE ∧ isZero (twiddle T k dir 0 n).im = true := by
  obtain ⟨-, hforward, hinverse⟩ := twiddleFactors T k 0 n h1 hn h1
  cases dir with
  | forward => rw [hforward]; exact ⟨rfl, by decide⟩
  | inverse => rw [hinverse]; exact ⟨rfl, by decide⟩

/-! ### The stages on a train of `(1.0, +0)` -/

/-- Among the first `n` positions, the multiples of `d` hold `(1.0, +0)` and all others zeros. -/
structure IsTrain (n d : Nat) (X : Nat → Cpx) : Prop where
  unit : ∀ p < n, d ∣ p → X p = unitPair
  zero : ∀ p < n, ¬ d ∣ p → IsZeroPair (X p)

theorem half_dvd_iff (P : Plan) (s i : Nat) {j : Nat} (hj : j < P.half s) :
    P.half s ∣ 2 * P.half s * i + j ↔ j = 0 := by
  rw [Nat.dvd_add_right (Dvd.intro_left (2 * i) (by ring))]
  exact ⟨fun h => Nat.eq_zero_of_dvd_of_lt h hj, fun h => h ▸ dvd_zero _⟩

/-- A position off the start of its group is no multiple of the group's size. -/
theorem not_group_dvd (P : Plan) (s i : Nat) {y : Nat} (hy : 0 < y) (hy' : y < 2 * P.half s) :
    ¬ 2 * P.half s ∣ 2 * P.half s * i + y := by
  rw [Nat.dvd_add_right (Nat.dvd_mul_right _ i)]
  exact Nat.not_dvd_of_pos_of_lt hy hy'

section
variable {P : Plan} {s : Nat} {xs : List Cpx}

/-- What a stage leaves at a position is a result of the butterfly the position belongs to (R112). -/
theorem exists_butterfly (h1 : 1 ≤ s) (h2 : s ≤ P.limit) (xs : List Cpx) {p : Nat} (hp : p < P.n) :
    ∃ i j, i < 2 ^ (s - 1) ∧ j < P.half s ∧
      (p = 2 * P.half s * i + j ∧ elements (P.stage s xs) p = (P.butterfly s i j xs).1 ∨
        p = 2 * P.half s * i + j + P.half s ∧ elements (P.stage s xs) p = (P.butterfly s i j xs).2) := by
  obtain ⟨⟨i, j⟩, hj, htouch⟩ := exists_bflyTouches P s p
  obtain ⟨hi, -⟩ := (P.mem_butterflies s (i, j)).1 (mem_butterflies_of_bflyTouches h1 h2 hp hj htouch)
  obtain ⟨hfst, hsnd⟩ := getElem?_stage_butterfly P h1 h2 hi hj xs
  refine ⟨i, j, hi, hj, ?_⟩
  rcases htouch with rfl | rfl
  · exact .inl ⟨rfl, elements_of_getElem? hfst⟩
  · exact .inr ⟨rfl, elements_of_getElem? hsnd⟩

/-- The butterfly at the start of a group spreads its `(1.0, +0)` to both positions. -/
theorem butterfly_unitPair (h1 : 1 ≤ s) (h2 : s ≤ P.limit) (hn : P.n ≤ 2 ^ 24) {i : Nat} (hi : i < 2 ^ (s - 1))
    (hX : IsTrain P.n (2 * P.half s) (elements xs)) : P.butterfly s i 0 xs = (unitPair, unitPair) := by
  have hh := half_pos P s
  have hlt := butterfly_positions_lt P h1 h2 hi hh
  have ha := hX.unit (2 * P.half s * i + 0) (by omega) (Nat.dvd_mul_right _ i)
  have hb := hX.zero (2 * P.half s * i + P.half s) (by omega) (not_group_dvd P s i hh (by omega))
  obtain ⟨hre, him⟩ := twiddle_zero P.trig (bflySite P s i 0) P.dir (Nat.two_pow_pos P.limit) hn
  rw [butterfly_eq, ha]
  exact bfly_unitPair _ hb _ hre him

/-- Every other butterfly finds zeros and leaves zeros. -/
theorem isZeroPair_butterfly (h1 : 1 ≤ s) (h2 : s ≤ P.limit) (hn : P.n ≤ 2 ^ 24) {i j : Nat}
    (hi : i < 2 ^ (s - 1)) (hj : j < P.half s) (hj0 : 0 < j) (hX : IsTrain P.n (2 * P.half s) (elements xs)) :
    IsZeroPair (P.butterfly s i j xs).1 ∧ IsZeroPair (P.butterfly s i j xs).2 := by
  have hlt := butterfly_positions_lt P h1 h2 hi hj
  have ha := hX.zero (2 * P.half s * i + j) (by omega) (not_group_dvd P s i hj0 (by omega))
  have hb := hX.zero (2 * P.half s * i + j + P.half s) hlt
    (Nat.add_assoc _ j _ ▸ not_group_dvd P s i (by omega) (by omega))
  have hr : 2 ^ (s - 1) * j ≤ 2 ^ 24 := by
    refine le_trans ?_ hn
    rw [P.n_eq_groups h1 h2, Nat.mul_comm]
    exact Nat.mul_le_mul_right _ (by omega)
  obtain ⟨hre, him⟩ := isFinite_twiddle P.trig (bflySite P s i j) P.dir (Nat.two_pow_pos P.limit) hn hr
  exact isZeroPair_bfly _ ha hb _ hre him

/-- A stage halves the distance of the train. -/
theorem isTrain_stage (h1 : 1 ≤ s) (h2 : s ≤ P.limit) (hn : P.n ≤ 2 ^ 24)
    (hX : IsTrain P.n (2 * P.half s) (elements xs)) : IsTrain P.n (P.half s) (elements (P.stage s xs)) := by
  constructor <;> intro p hp hdvd <;> obtain ⟨i, j, hi, hj, hpos⟩ := exists_butterfly h1 h2 xs hp
  case unit =>
    obtain rfl : j = 0 := by
      rcases hpos with ⟨rfl, -⟩ | ⟨rfl, -⟩
      · exact (half_dvd_iff P s i hj).1 hdvd
      · exact (half_dvd_iff P s i hj).1 ((Nat.dvd_add_left (dvd_refl _)).1 hdvd)
    rw [butterfly_unitPair h1 h2 hn hi hX] at hpos
    rcases hpos with ⟨-, h⟩ | ⟨-, h⟩ <;> exact h
  case zero =>
    have hj0 : j ≠ 0 := by
      rintro rfl
      rcases hpos with ⟨rfl, -⟩ | ⟨rfl, -⟩
      · exact hdvd ((half_dvd_iff P s i hj).2 rfl)
      · exact hdvd ((Nat.dvd_add_left (dvd_refl _)).2 ((half_dvd_iff P s i hj).2 rfl))
    obtain ⟨hfst, hsnd⟩ := isZeroPair_butterfly h1 h2 hn hi hj (Nat.pos_of_ne_zero hj0) hX
    rcases hpos with ⟨-, h⟩ | ⟨-, h⟩ <;> rwa [h]

theorem isTrain_stages (hn : P.n ≤ 2 ^ 24) (hX : IsTrain P.n P.n (elements xs)) {t : Nat} (ht : t ≤ P.limit) :
    IsTrain P.n (P.half t) (elements (P.stages xs t)) := by
  induction t with
  | zero => exact hX
  | succ t ih =>
    refine isTrain_stage (Nat.le_add_left 1 t) ht hn ?_
    have hhalf : 2 * P.half (t + 1) = P.half t := by
      rw [Plan.half, Plan.half, ← Nat.pow_succ']
      congr 1
      omega
    rw [hhalf]
    exact ih (by omega)

end

/-! ### The transform of an impulse (R124) -/

/-- The pairs `FFT` makes of an impulse in `XR`. -/
def impulse : Nat → Cpx := fun q => ⟨if q = 0 then 0x3F800000 else 0x00000000, 0x00000000⟩

theorem isTrain_impulse (n : Nat) : IsTrain n n (elements (tabulate n impulse)) := by
  constructor <;> intro p hp hdvd <;> rw [elements_tabulate hp]
  case unit =>
    obtain rfl := Nat.eq_zero_of_dvd_of_lt hdvd hp
    rfl
  case zero =>
    have hp0 : p ≠ 0 := fun h => hdvd (h ▸ dvd_zero n)
    simp only [impulse, if_neg hp0]
    exact ⟨by decide, by decide⟩

/-- After the last stage the train has distance 1, so every position holds `(1.0, +0)`, in whatever order. -/
theorem loops_impulse (P : Plan) (hn : P.n ≤ 2 ^ 24) {p : Nat} (hp : p < P.n) : P.loops impulse p = unitPair := by
  have htrain := isTrain_stages hn (isTrain_impulse P.n) le_rfl
  have hhalf : P.half P.limit = 1 := by rw [Plan.half, Nat.sub_self, Nat.pow_zero]
  have hrev : bitrev p P.limit < P.n := bitrev_lt p P.limit
  calc P.loops impulse p
      = P.loops (elements (tabulate P.n impulse)) p :=
        AgreeBelow.loops P (fun q hq => (elements_tabulate hq impulse).symm) p hp
    _ = elements (P.transform (tabulate P.n impulse)) p := (transform_agrees_loops P _ p hp).symm
    _ = elements (P.stages (tabulate P.n impulse) P.limit) (bitrev p P.limit) := elements_tabulate hp _
    _ = unitPair := htrain.unit _ hrev (hhalf ▸ one_dvd _)

/-- Settles O40: `FFT` completes with what the loops make of an impulse. -/
theorem impulseResponseIsFlat : Obligations.ImpulseResponseIsFlat := by
  intro s hpow hmax hx hd
  obtain ⟨t, hexec, -, hwords, -⟩ := fftCompletes s _ hpow hmax hx hd
  have hn := plan_n_of_ispow2 hpow Config.trig s.draws .forward
  refine ⟨t, hexec, fun p hp => ?_⟩
  obtain ⟨hre, him⟩ := hwords p hp
  have hflat := loops_impulse ⟨Config.trig, s.draws, .forward, Nat.log2 s.len.toNat⟩
    (hn.trans_le (hmax.trans (nmax_le _))) (hn.symm ▸ hp)
  exact ⟨hre.trans (congrArg (fun x => some x.re) hflat), him.trans (congrArg (fun x => some x.im) hflat)⟩

end Sys2Proof.Proofs.Impulse
end

section
/-! PROOFS. The check of `HANN` (R140) and the first weight of a window (R145): at index 0 the angle is `+0`, its
cosine 1.0, and a half is taken from a half. -/

namespace Sys2Proof.Proofs.Hann

open Sys2Proof Sys2Proof.Machine Sys2Proof.Proofs.Trig Sys2Proof.Proofs.Invariant Sys2Proof.Proofs.Rounding
  Sys2Proof.Proofs.Specials Sys2Proof.Proofs.Units Sys2Proof.Proofs.Windows

/-! ### The capacity check (R140) -/

/-- Settles O28: the check is made before anything else, and its error entry changes the phase and `STATUS` alone. -/
theorem hannCapacityError : Obligations.HannCapacityError := by
  intro s
  refine ⟨fun hmax => ?capacity, (hannError_eq_none_iff s).2⟩
  case capacity =>
    have herr : s.hannError = some .capacity := if_pos hmax
    change execHann s = .next (s.raiseError .capacity)
    rw [execHann, herr]

/-! ### The first weight (R145) -/

/-- The angle of index 0 is that of the twiddle factor for `r = 0`: no NaN arises in it, so the sites do not matter. -/
theorem angle_zero (k k' : Site) {n : Nat} (h1 : 1 ≤ n) (hn : n ≤ 2 ^ 24) :
    fdiv k' (fmul k TWO_PI (u2f 0)) (u2f n) = 0x00000000 := by
  have htwiddle := twiddleAngle_zero k h1 hn
  have hprod : isNaN (fmul (k.at 10) TWO_PI (u2f 0)) = false := by
    rw [fmul_of_finite _ (by decide) (isFinite_u2f (Nat.zero_le _))]
    exact isNaN_fl32 _ _ _
  calc fdiv k' (fmul k TWO_PI (u2f 0)) (u2f n)
      = fdiv k' (fmul (k.at 10) TWO_PI (u2f 0)) (u2f n) := by rw [fmul_congr_site k hprod]
    _ = twiddleAngle k 0 n := fdiv_congr_site k' ((congrArg isNaN htwiddle).trans (by decide))
    _ = 0x00000000 := htwiddle

theorem fsub_half_half (k : Site) : fsub k HALF HALF = 0x00000000 := by
  rw [fsub, fadd_eq_zero k (by decide) (by decide) (by decide), if_neg (by decide)]

/-- The formula of R142 at index 0, whatever the draws. -/
theorem weight_zero (T : Trig) (k : Nat → Site) {n : Nat} (h1 : 1 ≤ n) (hn : n ≤ 2 ^ 24) :
    fsub (k 5) HALF (fmul (k 4) HALF (COS T (k 3) (fdiv (k 2) (fmul (k 1) TWO_PI (u2f 0)) (u2f n)))) =
      0x00000000 := by
  rw [angle_zero _ _ h1 hn, cos_of_isZero T _ (by decide), fmul_one _ (by decide), fsub_half_half]

/-- Settles O43: `HANN` completes, and the word it leaves at index 0 is the formula of R142 there. -/
theorem firstHannWeightIsZero : Obligations.FirstHannWeightIsZero := by
  intro s h1 hmax hd
  obtain ⟨t, hexec, -, hwords, -⟩ := hannCompletes s hmax hd
  obtain ⟨k, hword⟩ := hwords 0 h1
  rw [if_pos rfl] at hword
  have hfit : s.len.toNat ≤ 2 ^ 24 := (hmax.trans (wmax_le _)).trans (by decide)
  exact ⟨t, hexec, hword.trans (congrArg some (weight_zero Config.trig k h1 hfit))⟩

end Sys2Proof.Proofs.Hann
end

section
/-! PROOFS. The checks of `FIRLPF` (R151), with `NUM + 1` formed without wrap-around (R96). -/

namespace Sys2Proof.Proofs.Fir

open Sys2Proof Sys2Proof.Machine Sys2Proof.Proofs.Invariant

/-- `FIRLPF` makes its checks before anything else. -/
theorem exec_firlpf_of_error {s : State} {e : ErrorKind} (herr : s.firError = some e) :
    exec .firlpf s = .next (s.raiseError e) := by
  change execFirlpf s = _
  rw [execFirlpf, herr]

/-- A register is a word, so the `NUM + 1` of the largest `NUM` is beyond it. -/
theorem wlen_ne_taps_of_num_max {s : State} (hnum : s.num = 0xFFFFFFFF) : s.wlen.toNat ≠ s.taps := by
  have hword : s.wlen.toNat < 2 ^ 32 := s.wlen.isLt
  have htaps : s.taps = 2 ^ 32 := by rw [State.taps, hnum]; rfl
  omega

/-- Settles O29: by the three cases of the checks in their order; either error entry changes the phase and `STATUS`
alone. -/
theorem firShapeAndCapacityErrors : Obligations.FirShapeAndCapacityErrors := by
  intro s
  refine ⟨fun hshape => ?shape, fun hshape hmax => ?capacity,
    fun hshape hmax => (firError_eq_none_iff s).2 ⟨hshape, hmax⟩, wlen_ne_taps_of_num_max⟩
  case shape =>
    have herr : s.firError = some .shapeMismatch := if_pos hshape
    exact exec_firlpf_of_error herr
  case capacity =>
    have herr : s.firError = some .capacity := (if_neg (not_not_intro hshape)).trans (if_pos hmax)
    exact exec_firlpf_of_error herr

end Sys2Proof.Proofs.Fir
end

section
/-! PROOFS. The life of a command: its acceptance (R173), the two ways a command other than `CLR` ends (R174, R184),
its completion in the sequencer's turn (R220), and `CLR` (R170), which with the reset alone clears `HZ`. -/

namespace Sys2Proof.Proofs.Lifecycle

open Sys2Proof Sys2Proof.Machine Sys2Proof.Proofs.Frames Sys2Proof.Proofs.Steps

/-! ### Acceptance (R173) -/

/-- Settles O22: the write is the host's access in this step, and acceptance is all it does. -/
theorem acceptanceOfACommand : Obligations.AcceptanceOfACommand :=
  fun _ _ _ hs hb => step_write_cmd hs hb

/-! ### How a command ends (R174, R184) -/

/-- What the two ends of a command other than `CLR`, completion and error, have in common. -/
structure Ended (s t : State) : Prop where
  busy : t.status.busy = false
  done : t.status.done = true
  hz : t.status.hz = s.status.hz
  seq : t.seq = .idle
  cmd : t.cmd = s.cmd

theorem ended_raiseError (s : State) (e : ErrorKind) : Ended s (s.raiseError e) := ⟨rfl, rfl, rfl, rfl, rfl⟩

theorem ended_complete {s u : State} (hz : u.status.hz = s.status.hz) (hcmd : u.cmd = s.cmd) :
    Ended s u.complete := ⟨rfl, rfl, hz, rfl, hcmd⟩

theorem ended_transform {i : Instr} (hi : i ∈ [Instr.fft, .ifft]) {s t : State} (h : exec i s = .next t) :
    Ended s t := by
  obtain ⟨e, rfl⟩ | ⟨xs, -, rfl⟩ := transform_next hi h
  · exact ended_raiseError s e
  · exact ended_complete rfl rfl

theorem ended_execHann {s t : State} (h : execHann s = .next t) : Ended s t := by
  obtain ⟨-, hx⟩ | ⟨-, hx⟩ := execHann_cases s
  all_goals obtain rfl := Host.Outcome.next.inj (hx.symm.trans h)
  · exact ended_raiseError s .capacity
  · exact ended_complete rfl rfl

theorem ended_execFirlpf {s t : State} (h : execFirlpf s = .next t) : Ended s t := by
  obtain ⟨e, -, hx⟩ | ⟨A, -, -, hx⟩ | ⟨win, -, -, -, hx⟩ := execFirlpf_cases s
  · obtain rfl := Host.Outcome.next.inj (hx.symm.trans h)
    exact ended_raiseError s e
  · exact absurd (h.symm.trans hx) (by simp)
  · obtain rfl := Host.Outcome.next.inj (hx.symm.trans h)
    exact ended_complete rfl rfl

theorem ended_execIirlpf {s t : State} (h : execIirlpf s = .next t) : Ended s t := by
  obtain rfl := Host.Outcome.next.inj ((execIirlpf_eq s).symm.trans h)
  exact ended_complete rfl rfl

theorem ended_exec {i : Instr} (hi : i ≠ .clr) {s t : State} (h : exec i s = .next t) : Ended s t := by
  cases i with
  | clr => exact absurd rfl hi
  | fft => exact ended_transform (by simp) h
  | ifft => exact ended_transform (by simp) h
  | hann => exact ended_execHann h
  | firlpf => exact ended_execFirlpf h
  | iirlpf => exact ended_execIirlpf h

/-! ### Completion in the sequencer's turn (R174, R220) -/

/-- An accepted `CLR` has the next turn, unless a reset comes (R170, R211; log entries 5 and 15). -/
theorem step_runs_clr {s : State} {b : Bool} (hq : s.seq = .run (.command .clr) b) (hb : s.status.busy = true)
    (hr : s.script.head? ≠ some .reset) :
    step s = exec .clr
      { s with script := if s.script.head? = some .pause then s.script.tail else s.script } := by
  have hnow : s.endsAtOnce = true := s.endsAtOnce_iff.2 ⟨hb, .inl ⟨b, hq⟩⟩
  exact (step_of_endsAtOnce hnow hr).trans (State.seqTurn_command hq)

/-- In its turn the sequencer runs the accepted command; only the script can be shorter than before. -/
theorem step_runs_command {s : State} {i : Instr} {b : Bool} (hq : s.seq = .run (.command i) b)
    (hturn : s.script = [] ∨ (∃ rest, s.script = .pause :: rest) ∨
      (i = .clr ∧ s.status.busy = true ∧ s.script.head? ≠ some .reset)) :
    ∃ rest, step s = exec i { s with script := rest } := by
  obtain hs | ⟨rest, hs⟩ | ⟨rfl, hb, hr⟩ := hturn
  · exact ⟨s.script, (step_nil hs).trans (State.seqTurn_command hq)⟩
  · exact ⟨rest, (step_pause hs).trans (State.seqTurn_command hq)⟩
  · exact ⟨_, step_runs_clr hq hb hr⟩

/-- Settles O59: the sequencer has its turn, and a command with its operands in place gives a next state; it is
`CLR`'s, or one of the two ends of any other command. -/
theorem acceptedCommandCompletes : Obligations.AcceptedCommandCompletes := by
  intro s i b hq hready hturn
  obtain ⟨rest, hstep⟩ := step_runs_command hq hturn
  rw [hstep]
  by_cases hi : i = .clr
  · subst hi
    exact ⟨_, execClr_eq _, rfl, rfl, rfl, fun hne => absurd rfl hne⟩
  · obtain ⟨t, ht, -⟩ := goesOn_exec (s := { s with script := rest }) hready
    have hend := ended_exec hi ht
    exact ⟨t, ht, hend.busy, hend.seq, hend.cmd, fun _ => ⟨hend.done, hend.hz⟩⟩

/-! ### What clears `HZ` (R170, R189) -/

/-- A host read keeps `HZ` or sets it. -/
theorem hz_of_hostRead {s t : State} {a : Addr} (h : s.hostRead a = .next t) (hz : s.status.hz = true) :
    t.status.hz = true := by
  obtain ⟨-, hx⟩ | ⟨-, -, hx⟩ |
    ⟨-, -, ⟨r, -, hx⟩ | ⟨m, i, v, -, -, hx⟩ | ⟨m, i, -, -, hx⟩ | ⟨-, hx⟩⟩ := s.hostRead_cases a <;>
    simp only [hx, Host.Outcome.next.injEq, reduceCtorEq] at h <;> subst h
  case inr.inl => rfl
  all_goals exact hz

/-- A host write keeps `HZ` or sets it. -/
theorem hz_of_hostWrite {s : State} (a : Addr) (v : Word) (hz : s.status.hz = true) :
    (s.hostWrite a v).status.hz = true := by
  cases hb : s.status.busy with
  | true => rw [hostWrite_busy hb, State.hazard_status, Status.hazarded_hz]
  | false => exact (hz_hostWrite hb a v).trans hz

/-- A turn of the sequencer that clears `HZ` is one in which it runs `CLR`. -/
theorem runs_clr_of_hz_cleared {s t : State} (h : s.seqTurn = .next t) (hz : s.status.hz = true)
    (hz' : t.status.hz = false) : ∃ b, s.seq = .run (.command .clr) b := by
  have hne : t.status.hz ≠ s.status.hz := by simp [hz, hz']
  cases hq : s.seq with
  | idle =>
    obtain rfl := Host.Outcome.next.inj ((State.seqTurn_idle hq).symm.trans h)
    exact absurd rfl hne
  | run d b =>
    cases d with
    | illegal why =>
      obtain rfl := Host.Outcome.next.inj ((State.seqTurn_illegal hq).symm.trans h)
      exact absurd rfl hne
    | command i =>
      by_cases hi : i = .clr
      · exact ⟨b, by rw [hi]⟩
      · exact absurd (ended_exec hi ((State.seqTurn_command hq).symm.trans h)).hz hne

/-- A step that clears `HZ` is a reset, or the sequencer's turn in which it runs `CLR`. -/
theorem reset_or_clr_of_hz_cleared {s t : State} (h : step s = .next t) (hz : s.status.hz = true)
    (hz' : t.status.hz = false) :
    s.script.head? = some .reset ∨
    ((∃ b, s.seq = .run (.command .clr) b) ∧
      step s = exec .clr { s with
        script := if s.script.head? = some .pause then s.script.tail else s.script }) := by
  obtain ⟨hx, -⟩ | ⟨a, rest, -, -, hx⟩ | ⟨a, v, rest, -, -, hx⟩ | ⟨rest, hs, -⟩ := step_cases s
  · obtain ⟨b, hq⟩ := runs_clr_of_hz_cleared (hx.symm.trans h) hz hz'
    exact .inr ⟨⟨b, hq⟩, hx.trans (State.seqTurn_command hq)⟩
  · have hkept := hz_of_hostRead (hx.symm.trans h) hz
    exact absurd hkept (by simp [hz'])
  · obtain rfl := Host.Outcome.next.inj (hx.symm.trans h)
    have hkept := hz_of_hostWrite (s := { s with script := rest }) a v hz
    exact absurd hkept (by simp [hz'])
  · exact .inl (by simp [hs])

/-! ### `CLR` (R170) -/

/-- The state right after a `CLR` is accepted has the sequencer running it. -/
theorem seq_accept_clr (s : State) : (s.accept 0x00000000).seq = .run (.command .clr) false := by
  rw [State.accept_seq, show decode 0x00000000 = .command .clr by decide]

/-- Settles O25: by the common end of the other commands, by what can clear `HZ`, and by the turn `CLR` has right
after its acceptance. -/
theorem clrClearsStatus : Obligations.ClrClearsStatus := by
  refine ⟨fun i s t hi h => (ended_exec hi h).done, fun s t => reset_or_clr_of_hz_cleared,
    fun s => ⟨execClr_eq s, fun rest hs hb hr => ⟨_, step_write_cmd hs hb, ?_⟩⟩⟩
  exact (step_runs_clr (seq_accept_clr { s with script := rest }) rfl hr).trans (execClr_eq _)

end Sys2Proof.Proofs.Lifecycle
end

section
/-! PROOFS. The error entry (R184) and the commands that end in it (R183, R185): a command that gives a next state has
raised one of the errors of its checks, or is `CLR`, or has completed. -/

namespace Sys2Proof.Proofs.Errors

open Sys2Proof Sys2Proof.Machine Sys2Proof.Proofs.TransformCommands

/-! ### The error entry (R184) -/

/-- What the host reads after an error with `HZ = 0`: the code in its byte, `DONE` and `ERR` below it. -/
theorem word_raised {st : Status} (hz : st.hz = false) (e : ErrorKind) :
    (st.raised e).word = (0 : BitVec 16) ++ e.code ++ (0x06 : BitVec 8) := by
  rw [Status.raised, hz]
  cases e <;> decide

/-- Settles O26: the four words are the four codes put into the word of an error. -/
theorem errorEntry : Obligations.ErrorEntry := by
  intro s e
  refine ⟨rfl, fun hz => ?_⟩
  simp only [State.raiseError_status, word_raised hz]
  decide

/-! ### Which errors a command raises (R111, R140, R151) -/

theorem transformError_ne_illegalCmd {s : State} {e : ErrorKind} (herr : s.transformError = some e) :
    e ≠ .illegalCmd := by
  obtain ⟨-, hx⟩ | ⟨-, -, hx⟩ | ⟨-, -, hx⟩ := s.transformError_cases <;>
    cases hx.symm.trans herr <;> decide

theorem firError_ne_illegalCmd {s : State} {e : ErrorKind} (herr : s.firError = some e) : e ≠ .illegalCmd := by
  obtain ⟨-, hx⟩ | ⟨-, -, hx⟩ | ⟨-, -, hx⟩ := s.firError_cases <;>
    cases hx.symm.trans herr <;> decide

/-- The codes of R181 but the one of an illegal word. -/
theorem code_of_ne_illegalCmd {e : ErrorKind} (h : e ≠ .illegalCmd) : e.code = 1 ∨ e.code = 2 ∨ e.code = 3 := by
  cases e with
  | invalidLength => exact .inl rfl
  | shapeMismatch => exact .inr (.inl rfl)
  | capacity => exact .inr (.inr rfl)
  | illegalCmd => exact absurd rfl h

/-! ### How a command ends (R170, R174, R183) -/

/-- The two ends of a command other than `CLR`: an error of its own checks, with nothing but the error entry done, or
completion, which leaves `ERR` and `ERRCODE` as they were. -/
def RaisedOrCompleted (s t : State) : Prop :=
  (∃ e, e ≠ .illegalCmd ∧ t = s.raiseError e) ∨ t.status = s.status.completed

theorem sameInput_refl (i : Instr) {s : State} (herr : s.transformError = none) : SameInput i s s :=
  ⟨herr, herr, rfl, rfl, fun _ _ => rfl, fun _ _ _ => rfl⟩

/-- A transform that passes its checks and gives a next state has stored as many pairs as `LEN` says. -/
theorem transform_stores {i : Instr} (hi : i ∈ [Instr.fft, .ifft]) {s t : State} (herr : s.transformError = none)
    (h : exec i s = .next t) : ∃ xs, xs.length = s.seqLen ∧ t = (s.storeCpx xs).complete := by
  obtain ⟨xs, hlen, ht, -⟩ := transform_stores_same hi (sameInput_refl i herr) h
  exact ⟨xs, hlen, ht⟩

theorem raisedOrCompleted_transform {i : Instr} (hi : i ∈ [Instr.fft, .ifft]) {s t : State}
    (h : exec i s = .next t) : RaisedOrCompleted s t := by
  cases herr : s.transformError with
  | some e =>
    obtain rfl := Host.Outcome.next.inj ((exec_transform_of_error hi herr).symm.trans h)
    exact .inl ⟨e, transformError_ne_illegalCmd herr, rfl⟩
  | none =>
    obtain ⟨xs, -, rfl⟩ := transform_stores hi herr h
    exact .inr rfl

theorem raisedOrCompleted_execHann {s t : State} (h : execHann s = .next t) : RaisedOrCompleted s t := by
  obtain ⟨-, hx⟩ | ⟨-, hx⟩ := execHann_cases s
  all_goals obtain rfl := Host.Outcome.next.inj (hx.symm.trans h)
  · exact .inl ⟨.capacity, by decide, rfl⟩
  · exact .inr rfl

theorem raisedOrCompleted_execFirlpf {s t : State} (h : execFirlpf s = .next t) : RaisedOrCompleted s t := by
  obtain ⟨e, herr, hx⟩ | ⟨A, -, -, hx⟩ | ⟨win, -, -, -, hx⟩ := execFirlpf_cases s
  · obtain rfl := Host.Outcome.next.inj (hx.symm.trans h)
    exact .inl ⟨e, firError_ne_illegalCmd herr, rfl⟩
  · exact absurd (h.symm.trans hx) (by simp)
  · obtain rfl := Host.Outcome.next.inj (hx.symm.trans h)
    exact .inr rfl

theorem raisedOrCompleted_execIirlpf {s t : State} (h : execIirlpf s = .next t) : RaisedOrCompleted s t := by
  obtain rfl := Host.Outcome.next.inj ((execIirlpf_eq s).symm.trans h)
  exact .inr rfl

theorem raisedOrCompleted_exec {i : Instr} (hi : i ≠ .clr) {s t : State} (h : exec i s = .next t) :
    RaisedOrCompleted s t := by
  cases i with
  | clr => exact absurd rfl hi
  | fft => exact raisedOrCompleted_transform (by simp) h
  | ifft => exact raisedOrCompleted_transform (by simp) h
  | hann => exact raisedOrCompleted_execHann h
  | firlpf => exact raisedOrCompleted_execFirlpf h
  | iirlpf => exact raisedOrCompleted_execIirlpf h

/-- `CLR` leaves `ERR = 0`, and completion leaves `ERR` as it was: only an error of the command's checks sets it. -/
theorem raised_of_err_set {i : Instr} {s t : State} (hs : s.status.err = false) (h : exec i s = .next t)
    (ht : t.status.err = true) : ∃ e, e ≠ .illegalCmd ∧ t = s.raiseError e := by
  by_cases hi : i = .clr
  · subst hi
    obtain rfl := Host.Outcome.next.inj ((execClr_eq s).symm.trans h)
    exact absurd ht Bool.false_ne_true
  · have hnot : t.status ≠ s.status.completed := fun hx => by simp [hx, hs] at ht
    exact (raisedOrCompleted_exec hi h).resolve_right hnot

/-- Settles O30: the state after is the error entry of one of the three errors a command can raise. -/
theorem errorsChangeNothingElse : Obligations.ErrorsChangeNothingElse := by
  intro i s t hs h ht
  obtain ⟨e, he, rfl⟩ := raised_of_err_set hs h ht
  exact ⟨rfl, rfl, rfl, rfl, code_of_ne_illegalCmd he⟩

end Sys2Proof.Proofs.Errors
end

section
/-! PROOFS. A disturbed command (R189, R214, U4; log entry 4): every result it delivers, to a register or to a word of
memory, is the free word of its own site, and it completes as any other. -/

namespace Sys2Proof.Proofs.Disturbed

open Sys2Proof Sys2Proof.Machine Sys2Proof.Proofs.Invariant Sys2Proof.Proofs.Steps Sys2Proof.Proofs.Errors

/-! ### Delivery -/

section
variable {s : State}

theorem deliver_disturbed (hd : s.disturbed = true) (k : Site) (v : Word) : s.deliver k v = Config.freeWord k :=
  if_pos hd

theorem deliverReg_disturbed (hd : s.disturbed = true) (r : Reg) (v : Word) :
    s.deliverReg r v = Config.freeWord ⟨s.draws, 0, r.offset, 0⟩ := deliver_disturbed hd _ v

/-- A stored word of a disturbed command, read back. -/
theorem wordAt_storeSeq_disturbed (hd : s.disturbed = true) {m : MemName} {ws : List Word} {p : Nat}
    (hfit : ws.length ≤ 2 ^ 24) (hp : p < ws.length) :
    (s.storeSeq m ws).wordAt m p = some (Config.freeWord ⟨s.draws, m.region, p, 0⟩) := by
  rw [s.wordAt_storeSeq m m ws p hfit (by omega), if_pos ⟨rfl, hp⟩, List.getElem?_eq_getElem hp, Option.map_some,
    deliver_disturbed hd]

/-- A stored pair of a disturbed command, read back. -/
theorem wordAt_storeCpx_disturbed (hd : s.disturbed = true) {xs : List Cpx} {p : Nat}
    (hfit : xs.length ≤ 2 ^ 24) (hp : p < xs.length) :
    (s.storeCpx xs).wordAt .xr p = some (Config.freeWord ⟨s.draws, 1, p, 0⟩) ∧
      (s.storeCpx xs).wordAt .xi p = some (Config.freeWord ⟨s.draws, 2, p, 0⟩) := by
  constructor <;> rw [s.wordAt_storeCpx xs _ p hfit (by omega)] <;> simp [hp, deliver_disturbed hd]

/-! ### The commands -/

theorem transform_disturbed (hd : s.disturbed = true) {i : Instr} (hi : i ∈ [Instr.fft, .ifft])
    (herr : s.transformError = none) (hready : s.ready i) :
    ∃ t, exec i s = .next t ∧ t.status = s.status.completed ∧
      ∀ p < s.len.toNat, t.wordAt .xr p = some (Config.freeWord ⟨s.draws, 1, p, 0⟩) ∧
        t.wordAt .xi p = some (Config.freeWord ⟨s.draws, 2, p, 0⟩) := by
  obtain ⟨t, ht, -⟩ := goesOn_exec hready
  obtain ⟨xs, hlen, rfl⟩ := transform_stores hi herr ht
  have hfit : xs.length ≤ 2 ^ 24 := hlen.trans_le ((s.transformError_eq_none_iff.1 herr).2.trans (nmax_le _))
  exact ⟨_, ht, rfl, fun p hp => wordAt_storeCpx_disturbed hd hfit (hp.trans_eq hlen.symm)⟩

theorem hann_disturbed (hd : s.disturbed = true) (herr : s.hannError = none) :
    ∃ t, exec .hann s = .next t ∧ t.status = s.status.completed ∧
      t.wlen = Config.freeWord ⟨s.draws, 0, 6, 0⟩ ∧
      ∀ p < s.len.toNat, t.wordAt .win p = some (Config.freeWord ⟨s.draws, 3, p, 0⟩) := by
  obtain ⟨hx, -⟩ | ⟨-, hx⟩ := execHann_cases s
  · exact absurd (herr.symm.trans hx) (by simp)
  have hlen : (hannSeq Config.trig s.draws s.seqLen).length = s.seqLen := length_hannSeq _ _ _
  have hfit : s.seqLen ≤ 2 ^ 24 := ((hannError_eq_none_iff s).1 herr).trans ((wmax_le _).trans (by decide))
  exact ⟨_, hx, rfl, deliverReg_disturbed hd .wlen _,
    fun p hp => wordAt_storeSeq_disturbed hd (hlen.trans_le hfit) (hp.trans_eq hlen.symm)⟩

theorem firlpf_disturbed (hd : s.disturbed = true) (herr : s.firError = none) (hready : s.ready .firlpf) :
    ∃ t, exec .firlpf s = .next t ∧ t.status = s.status.completed ∧
      t.clen = Config.freeWord ⟨s.draws, 0, 7, 0⟩ ∧
      ∀ p ≤ s.num.toNat, t.wordAt .coef p = some (Config.freeWord ⟨s.draws, 4, p, 0⟩) := by
  obtain ⟨e, he, -⟩ | ⟨A, -, hload, -⟩ | ⟨win, -, -, hwin, hx⟩ := execFirlpf_cases s
  · exact absurd (herr.symm.trans he) (by simp)
  · exact absurd hload (not_load_error (hready herr))
  have hlen : (firSeq Config.trig s.draws s.fc s.num.toNat win).length = s.taps :=
    (length_firSeq _ _ _ _ _).trans hwin
  have hfit : s.taps ≤ 2 ^ 24 := ((firError_eq_none_iff s).1 herr).2.trans ((wmax_le _).trans (by decide))
  exact ⟨_, hx, rfl, deliverReg_disturbed hd .clen _, fun p hp =>
    wordAt_storeSeq_disturbed hd (hlen.trans_le hfit) ((Nat.lt_succ_of_le hp).trans_eq hlen.symm)⟩

theorem iirlpf_disturbed (hd : s.disturbed = true) :
    ∃ t, exec .iirlpf s = .next t ∧ t.status = s.status.completed ∧
      t.a0 = Config.freeWord ⟨s.draws, 0, 8, 0⟩ ∧ t.a1 = Config.freeWord ⟨s.draws, 0, 9, 0⟩ ∧
      t.a2 = Config.freeWord ⟨s.draws, 0, 10, 0⟩ ∧ t.b0 = Config.freeWord ⟨s.draws, 0, 11, 0⟩ ∧
      t.b1 = Config.freeWord ⟨s.draws, 0, 12, 0⟩ ∧ t.b2 = Config.freeWord ⟨s.draws, 0, 13, 0⟩ :=
  ⟨_, execIirlpf_eq s, rfl, deliverReg_disturbed hd .a0 _, deliverReg_disturbed hd .a1 _,
    deliverReg_disturbed hd .a2 _, deliverReg_disturbed hd .b0 _, deliverReg_disturbed hd .b1 _,
    deliverReg_disturbed hd .b2 _⟩

end

/-- Settles O49: command by command; each stores as many words as its checks have passed, at the sites of `deliver`. -/
theorem disturbedResultsAreOpen : Obligations.DisturbedResultsAreOpen :=
  fun _ hd => ⟨fun _ hi => transform_disturbed hd hi, hann_disturbed hd, firlpf_disturbed hd, iirlpf_disturbed hd⟩

end Sys2Proof.Proofs.Disturbed
end

section
/-! PROOFS. The reset event (R210, R211): but for `CAP`, which reads the parameters, every register of the new state
reads as that of `State.reset`, and its memory is empty; nothing of the sequencer or of `STATUS` is carried over. -/

namespace Sys2Proof.Proofs.Reset

open Sys2Proof Sys2Proof.Machine Sys2Proof.Proofs.Invariant Sys2Proof.Proofs.HostPort

theorem readReg_resetEvent (s : State) {r : Reg} (hr : r ≠ .cap) :
    s.resetEvent.readReg r = State.reset.readReg r := by
  cases r
  case cap => exact absurd rfl hr
  all_goals rfl

theorem readReg_resetEvent_eq_zero (s : State) : ∀ r ∈ [Reg.cmd, .status, .len, .num, .fc, .qf, .wlen, .clen,
    .a0, .a1, .a2, .b0, .b1, .b2], s.resetEvent.readReg r = 0x00000000 := by
  intro r hr
  have hcap : r ≠ .cap := ne_of_mem_of_not_mem hr (by decide)
  exact (readReg_resetEvent s hcap).trans (resetState.1 r hr)

theorem wordAt_resetEvent (s : State) (m : MemName) (i : Nat) : s.resetEvent.wordAt m i = none := rfl

/-- Settles O32: a pending reset is the next step whatever the sequencer is doing; `ID`, `CAP` and the parameters stay
as under every step. -/
theorem resetEventAbandonsEverything : Obligations.ResetEventAbandonsEverything := by
  intro s rest hs
  have hstep : step s = .next (State.resetEvent { s with script := rest }) := step_reset hs
  obtain ⟨hparams, hid, hcap⟩ := parametersNeverChange s _ hstep
  exact ⟨_, hstep, readReg_resetEvent_eq_zero _, hid, hcap, hparams, rfl, wordAt_resetEvent _, rfl, rfl⟩

end Sys2Proof.Proofs.Reset
end
